-- ==== Sys2Proof/Word.lean ====
section
/-! DEFINITION. The word types of the block: 32-bit words and addresses, and the two constant words.
Rules: 00_scope.md R10 (every number unsigned, addresses modulo 2^32), 30_encoding.md R91. -/

namespace Sys2Proof

/-- A 32-bit word or byte address (R10). -/
abbrev Word := BitVec 32

/-- An 8-bit operation number or operand byte (R99). -/
abbrev Byte := BitVec 8

/-- `ZERO` of R10. -/
abbrev ZERO : Word := 0x00000000#32

/-- `ONES` of R10. -/
abbrev ONES : Word := 0xFFFFFFFF#32

end Sys2Proof
end

