-- ==== Sys2Proof/Syntax.lean ====
section
/-! DEFINITION. The operations of the block as syntax: the 30 rows of spec/opcode_table.json (format D: descriptor
records, format H: host operations, format S: hardware and environment steps), their operands, the encoded forms,
and the lines of a spelled-out schedule (30_encoding.md R99, R100, R102). -/

namespace Sys2Proof

/-- Colour capacity `CAP` (R6). -/
inductive Cap where
  | three
  | four
deriving DecidableEq, Repr, Inhabited

/-- Buffer mode `MODE` (R6). -/
inductive Mode where
  | paced
  | free
  | double
deriving DecidableEq, Repr, Inhabited

/-- `ChannelType` (R37, R221): orders A and B of three channels, and four channels. -/
inductive ChType where
  | a
  | b
  | four
deriving DecidableEq, Repr, Inhabited

/-- `pins{shiftClockPin, latchClockPin, dataPin}` (R101, R132). -/
structure Pins where
  shiftClock : Byte
  latchClock : Byte
  data : Byte
deriving DecidableEq, Repr, Inhabited

/-- The enum tag of a descriptor record, `CTRL[2:0]` (R92). -/
inductive Kind where
  | prime
  | gateHi
  | data
  | close
  | gap
  | reserved5
  | reserved6
  | reserved7
deriving DecidableEq, Repr, Inhabited

/-- The fields of a descriptor record other than `KIND` (R90, R91). -/
structure Fields where
  src : Word
  dst : BitVec 2
  sadv : Bool
  inten : Bool
  dstop : Bool
  next : BitVec 3
  rsvd : BitVec 5
  count : BitVec 16
deriving DecidableEq, Repr, Inhabited

/-- An encoded descriptor record: word 0 `SRC`, word 1 `CTRL` (R90). -/
structure Desc where
  src : Word
  ctrl : Word
deriving DecidableEq, Repr, Inhabited

/-- One constructor per row of spec/opcode_table.json. -/
inductive Instr where
  /-- `PRIME`, R165. -/
  | prime (f : Fields)
  /-- `GATEHI`, R166. -/
  | gateHi (f : Fields)
  /-- `DATA`, R167. -/
  | data (f : Fields)
  /-- `CLOSE`, R168. -/
  | close (f : Fields)
  /-- `GAP`, R169. -/
  | gap (f : Fields)
  /-- `RESERVED_KIND5`, R98. -/
  | reservedKind5 (f : Fields)
  /-- `RESERVED_KIND6`, R98. -/
  | reservedKind6 (f : Fields)
  /-- `RESERVED_KIND7`, R98. -/
  | reservedKind7 (f : Fields)
  /-- `PTE_ENABLE sd, ld`, R123. -/
  | pteEnable (sd ld : BitVec 16)
  /-- `PTE_DISABLE`, R124. -/
  | pteDisable
  /-- `TDC_BUILD`, R152. -/
  | tdcBuild
  /-- `TDC_START`, R172. -/
  | tdcStart
  /-- `TDC_DISABLE`, R173. -/
  | tdcDisable
  /-- `FLUSH addr, len`, R72. -/
  | flush (addr len : Word)
  /-- `REQUEST_SWAP`, R191. -/
  | requestSwap
  /-- `IRQ_HANDLER`, R195. -/
  | irqHandler
  /-- `BUFFER_READY`, R198. -/
  | bufferReady
  /-- `FLIP_BUFFERS`, R199 and R200. -/
  | flipBuffers
  /-- `FLUSH_BUFFER`, R201. -/
  | flushBuffer
  /-- `SET_CHANNEL_TYPE ch, t`, R223; `t` is the raw operand, since an invalid type is a defined no-op. -/
  | setChannelType (ch t : Byte)
  /-- `SET_ACTIVE_COLOR ch, idx, col`, R227. -/
  | setActiveColor (ch : Byte) (idx col : Word)
  /-- `SET_INACTIVE_COLOR ch, idx, col`, R228. -/
  | setInactiveColor (ch : Byte) (idx col : Word)
  /-- `GET_ACTIVE_COLOR ch, idx`, R229. -/
  | getActiveColor (ch : Byte) (idx : Word)
  /-- `GET_INACTIVE_COLOR ch, idx`, R230. -/
  | getInactiveColor (ch : Byte) (idx : Word)
  /-- `CONSTRUCT leds, cap, mode`, R240. -/
  | construct (leds : Word) (cap : Cap) (mode : Mode)
  /-- `INITIALIZE unit, pins`, R241 to R243. -/
  | initialise (unit : Byte) (pins : Pins)
  /-- `TEARDOWN`, R246. -/
  | teardown
  /-- `LATCH`, R126. -/
  | latch
  /-- `SERVICE`, R161. -/
  | service
  /-- `WRITEBACK a`, R71. -/
  | writeback (a : Word)
deriving DecidableEq, Repr, Inhabited

/-- The two encoded forms (R99): a descriptor record, or an operation number with its operands. -/
inductive Code where
  | record (d : Desc)
  | op (bytes : List Byte)
deriving DecidableEq, Repr, Inhabited

/-- Why the decoder refuses a text. -/
inductive DecodeError where
  /-- no byte to read an operation number from -/
  | empty
  /-- the first byte is no operation number of R100 -/
  | unknownOperation (b : Byte)
  /-- the operands end early -/
  | truncated (b : Byte)
  /-- an operand byte names no value of its type (`CAP`, `MODE` of `CONSTRUCT`) -/
  | badOperand (b : Byte)
deriving DecidableEq, Repr, Inhabited

/-- How far an operation given one turn goes (R15 (a), (c)): all its micro-steps with no other agent's step between
them, as far as it can go without waiting; or its first micro-step only. -/
inductive Grain where
  | whole
  | micro
deriving DecidableEq, Repr, Inhabited

/-- One line of a spelled-out schedule (R102, R14): which agent moves next, and with what. -/
inductive Turn where
  /-- an operation of R100 on instance `inst`, as encoded -/
  | op (inst : Nat) (grain : Grain) (code : List Byte)
  /-- agent `TDC` of instance `inst`: one unit transfer, with the descriptor it has loaded -/
  | unit (inst : Nat)
  /-- agent `CALL`: the next micro-step of the operation in progress -/
  | callNext
  /-- agent `IRQ`: the next micro-step of the handler run in progress -/
  | irqNext
  /-- the clock generator's lock report changes (R244) -/
  | lockLine (locked : Bool)
deriving DecidableEq, Repr, Inhabited

end Sys2Proof
end

