-- ==== Sys2Proof/Config.lean ====
section
/-! DEFINITION. What an implementation fixes (the parameters of 00_scope.md R8, each instance's own data, read by the
rules that name them), the parameter set the reset state uses, and the free values: opaque constants of which nothing
can be proved. -/

namespace Sys2Proof

/-- `BYTE_ORDER` (R64): open, and read by no rule. -/
inductive ByteOrder where
  | little
  | big
deriving DecidableEq, Repr, Inhabited

/-- The two views of the frame buffer (R70). -/
inductive View where
  | cpu
  | dma
deriving DecidableEq, Repr, Inhabited

/-- The implementation parameters of R8. `fInt` is in hertz and `tBit` in picoseconds; no step reads either. -/
structure Params where
  maxXfer : BitVec 16
  gapCount : BitVec 16
  fInt : Nat
  tBit : Nat
  shiftDiv : BitVec 16
  latchDiv : BitVec 16
  envTicks : Nat
  oneTicks : Nat
  base0 : Word
  zeroAddr : Word
  onesAddr : Word
  chtypeInit : Vector ChType 32
  byteOrder : ByteOrder
deriving DecidableEq, Repr

/-- The constraints R8 puts on the parameters by themselves. The relation of the addresses to the buffer's size is
checked at `TDC_BUILD` (R67), that of `CHTYPE_INIT` to the capacity at `CONSTRUCT` (R222). -/
def Params.ok (p : Params) : Bool :=
  p.maxXfer != 0 && p.gapCount != 0 && 0 < p.fInt && 0 < p.tBit && p.shiftDiv != 0
    && p.latchDiv.toNat == 32 * p.shiftDiv.toNat && 1 ≤ p.envTicks && p.envTicks < p.oneTicks && p.oneTicks ≤ 32
    && p.base0.toNat % 4 == 0 && p.zeroAddr.toNat % 4 == 0 && p.onesAddr.toNat % 4 == 0

/-- The parameter set of the reset state (notes/assumptions/4.md). -/
def Config.params : Params where
  maxXfer := 65535
  gapCount := 240
  fInt := 153600000
  tBit := 416667
  shiftDiv := 2
  latchDiv := 64
  envTicks := 8
  oneTicks := 16
  base0 := 0x20200000
  zeroAddr := 0x20001000
  onesAddr := 0x20001004
  chtypeInit := Vector.replicate 32 .a
  byteOrder := .little

/-- Free value: the `n`-th value of 32 bits that the spec leaves unspecified (`⊥`, R10). -/
opaque Config.freeWord (n : Nat) : Word

/-- Free value: what a frame-buffer word nothing has written holds in view `v` (V10, R76): unknown, the same at every
read of one allocation. -/
opaque Config.unknownWord (allocation : Nat) (v : View) (addr : Nat) : Word

/-- Free value: which agent moves next, and with what, when the spelled-out schedule is at its end (V13, R14). -/
opaque Config.freeTurn (n : Nat) : Turn

end Sys2Proof
end

