-- ==== Sys2Proof/WellFormed.lean ====
section
/-! DEFINITION. Which instructions are well formed, checked on the syntax alone: the legality tests of R98 and the
canonical fields of R95 for descriptor records, the divisor relation of R123, the alignment of R71. -/

namespace Sys2Proof

/-- The reserved selector, count and bits of R98: `DST = 3`, `COUNT = 0`, `CTRL[15:11] != 0`. -/
def Fields.reservedBits (f : Fields) : Bool :=
  f.dst == 3 || f.count == 0 || f.rsvd != 0

/-- A legal record by R98 and R65: no reserved bits and an aligned source. -/
def Fields.legal (f : Fields) : Bool :=
  !f.reservedBits && f.src.toNat % 4 == 0

/-- A one-shot descriptor of R95: one unit transfer, no advance of the source, no stop. -/
def Fields.oneShot (f : Fields) : Bool :=
  f.legal && f.count == 1 && !f.sadv && !f.dstop

/-- The well-formed instructions. A host operation whose out-of-range operands have a defined outcome
(R223, R225, R241) is well formed with any operands. -/
def Instr.wellFormed : Instr → Bool
  | .prime f => f.oneShot && f.dst == 1 && !f.inten && f.next == 1
  | .gateHi f => f.oneShot && f.dst == 2 && !f.inten && f.next == 2
  | .data f => f.legal && f.dst == 0 && f.sadv && !f.inten && !f.dstop && (3 ≤ f.next.toNat && f.next.toNat ≤ 6)
  | .close f => f.oneShot && f.dst == 2 && f.next == 7
  | .gap f => f.legal && f.dst == 0 && !f.sadv && !f.inten && f.next == 0
  | .reservedKind5 _ => false
  | .reservedKind6 _ => false
  | .reservedKind7 _ => false
  | .pteEnable sd ld => sd != 0 && ld.toNat == 32 * sd.toNat
  | .pteDisable => true
  | .tdcBuild => true
  | .tdcStart => true
  | .tdcDisable => true
  | .flush _ _ => true
  | .requestSwap => true
  | .irqHandler => true
  | .bufferReady => true
  | .flipBuffers => true
  | .flushBuffer => true
  | .setChannelType _ _ => true
  | .setActiveColor _ _ _ => true
  | .setInactiveColor _ _ _ => true
  | .getActiveColor _ _ => true
  | .getInactiveColor _ _ => true
  | .construct _ _ _ => true
  | .initialise _ _ => true
  | .teardown => true
  | .latch => true
  | .service => true
  | .writeback a => a.toNat % 4 == 0

end Sys2Proof
end

