-- ==== Sys2Proof/Decode.lean ====
section
/-! DEFINITION. The decoder, total on any words and bytes and refusing by name, and after it the encoder written from
the same tables (30_encoding.md R90 to R100). Descriptor records are the spec's own layout; the operand bytes after an
operation number are the model's (notes/assumptions/23.md). -/

namespace Sys2Proof

/-! Descriptor records (format D) -/

/-- `KIND` (R92). -/
def kindOfBits (k : BitVec 3) : Kind :=
  match k.toNat with
  | 0 => .prime
  | 1 => .gateHi
  | 2 => .data
  | 3 => .close
  | 4 => .gap
  | 5 => .reserved5
  | 6 => .reserved6
  | _ => .reserved7

/-- The `KIND` number of a tag (R92). -/
def bitsOfKind : Kind → BitVec 3
  | .prime => 0
  | .gateHi => 1
  | .data => 2
  | .close => 3
  | .gap => 4
  | .reserved5 => 5
  | .reserved6 => 6
  | .reserved7 => 7

/-- The `KIND` of a record, `CTRL[2:0]`. -/
def kindOf (d : Desc) : Kind :=
  kindOfBits (d.ctrl.extractLsb' 0 3)

/-- The other fields of a record (R91): `DST` [4:3], `SADV` [5], `INTEN` [6], `DSTOP` [7], `NEXT` [10:8],
reserved [15:11], `COUNT` [31:16]. -/
def fieldsOf (d : Desc) : Fields where
  src := d.src
  dst := d.ctrl.extractLsb' 3 2
  sadv := d.ctrl.getLsbD 5
  inten := d.ctrl.getLsbD 6
  dstop := d.ctrl.getLsbD 7
  next := d.ctrl.extractLsb' 8 3
  rsvd := d.ctrl.extractLsb' 11 5
  count := d.ctrl.extractLsb' 16 16

/-- The row of the table a record of kind `k` is. -/
def instrOfRecord (k : Kind) (f : Fields) : Instr :=
  match k with
  | .prime => .prime f
  | .gateHi => .gateHi f
  | .data => .data f
  | .close => .close f
  | .gap => .gap f
  | .reserved5 => .reservedKind5 f
  | .reserved6 => .reservedKind6 f
  | .reserved7 => .reservedKind7 f

/-- The instruction a descriptor record is (R99: selected by `CTRL[2:0]`). Every record decodes; `Load` is where an
illegal one is found (R98, R160). -/
def decodeRecord (d : Desc) : Instr :=
  instrOfRecord (kindOf d) (fieldsOf d)

/-! Operations (formats H and S) -/

/-- The next operand byte. -/
def read8 : List Byte → Option (Byte × List Byte)
  | b :: r => some (b, r)
  | [] => none

/-- A 16-bit operand from its bytes, least significant first. -/
def join16 (b0 b1 : Byte) : BitVec 16 :=
  b0.setWidth 16 ||| (b1.setWidth 16 <<< 8)

/-- A 32-bit operand from its bytes, least significant first. -/
def join32 (b0 b1 b2 b3 : Byte) : Word :=
  b0.setWidth 32 ||| (b1.setWidth 32 <<< 8) ||| (b2.setWidth 32 <<< 16) ||| (b3.setWidth 32 <<< 24)

/-- The next 16-bit operand, least significant byte first. -/
def read16 : List Byte → Option (BitVec 16 × List Byte)
  | b0 :: b1 :: r => some (join16 b0 b1, r)
  | _ => none

/-- The next 32-bit operand, least significant byte first. -/
def read32 : List Byte → Option (Word × List Byte)
  | b0 :: b1 :: b2 :: b3 :: r => some (join32 b0 b1 b2 b3, r)
  | _ => none

/-- `CAP` from its operand byte. -/
def capOfByte (b : Byte) : Option Cap :=
  match b.toNat with
  | 0 => some .three
  | 1 => some .four
  | _ => none

/-- `MODE` from its operand byte. -/
def modeOfByte (b : Byte) : Option Mode :=
  match b.toNat with
  | 0 => some .paced
  | 1 => some .free
  | 2 => some .double
  | _ => none

/-- The `ChannelType` an operand byte names; any other byte names none (R223). -/
def chTypeOfByte (b : Byte) : Option ChType :=
  match b.toNat with
  | 0 => some .a
  | 1 => some .b
  | 2 => some .four
  | _ => none

/-- Two operands of 16 bits. -/
def operands16x2 (op : Byte) (r : List Byte) (k : BitVec 16 → BitVec 16 → Instr) :
    Except DecodeError (Instr × List Byte) :=
  match read16 r with
  | none => .error (.truncated op)
  | some (x, r1) =>
    match read16 r1 with
    | none => .error (.truncated op)
    | some (y, r2) => .ok (k x y, r2)

/-- Two operands of 32 bits. -/
def operands32x2 (op : Byte) (r : List Byte) (k : Word → Word → Instr) :
    Except DecodeError (Instr × List Byte) :=
  match read32 r with
  | none => .error (.truncated op)
  | some (x, r1) =>
    match read32 r1 with
    | none => .error (.truncated op)
    | some (y, r2) => .ok (k x y, r2)

/-- One operand of 32 bits. -/
def operands32 (op : Byte) (r : List Byte) (k : Word → Instr) : Except DecodeError (Instr × List Byte) :=
  match read32 r with
  | none => .error (.truncated op)
  | some (x, r1) => .ok (k x, r1)

/-- Two operand bytes. -/
def operands8x2 (op : Byte) (r : List Byte) (k : Byte → Byte → Instr) :
    Except DecodeError (Instr × List Byte) :=
  match read8 r with
  | none => .error (.truncated op)
  | some (x, r1) =>
    match read8 r1 with
    | none => .error (.truncated op)
    | some (y, r2) => .ok (k x y, r2)

/-- A channel and an LED index. -/
def operandsChIdx (op : Byte) (r : List Byte) (k : Byte → Word → Instr) :
    Except DecodeError (Instr × List Byte) :=
  match read8 r with
  | none => .error (.truncated op)
  | some (ch, r1) => operands32 op r1 (k ch)

/-- A channel, an LED index and a raw colour. -/
def operandsChIdxCol (op : Byte) (r : List Byte) (k : Byte → Word → Word → Instr) :
    Except DecodeError (Instr × List Byte) :=
  match read8 r with
  | none => .error (.truncated op)
  | some (ch, r1) => operands32x2 op r1 (k ch)

/-- The operands of `CONSTRUCT`. -/
def operandsConstruct (op : Byte) (r : List Byte) : Except DecodeError (Instr × List Byte) :=
  match r with
  | b0 :: b1 :: b2 :: b3 :: c :: m :: r1 =>
    match capOfByte c, modeOfByte m with
    | some cap, some mode => .ok (.construct (join32 b0 b1 b2 b3) cap mode, r1)
    | _, _ => .error (.badOperand op)
  | _ => .error (.truncated op)

/-- The operands of `INITIALIZE`. -/
def operandsInitialise (op : Byte) (r : List Byte) : Except DecodeError (Instr × List Byte) :=
  match r with
  | u :: p0 :: p1 :: p2 :: r1 => .ok (.initialise u ⟨p0, p1, p2⟩, r1)
  | _ => .error (.truncated op)

/-- The operation numbers of R100 and their operands; gives back the bytes after them. -/
def decode : List Byte → Except DecodeError (Instr × List Byte)
  | [] => .error .empty
  | op :: r =>
    match op.toNat with
    | 0x01 => operands16x2 op r .pteEnable
    | 0x02 => .ok (.pteDisable, r)
    | 0x03 => .ok (.tdcBuild, r)
    | 0x04 => .ok (.tdcStart, r)
    | 0x05 => .ok (.tdcDisable, r)
    | 0x06 => operands32x2 op r .flush
    | 0x07 => .ok (.requestSwap, r)
    | 0x08 => .ok (.irqHandler, r)
    | 0x09 => .ok (.bufferReady, r)
    | 0x0A => .ok (.flipBuffers, r)
    | 0x0B => .ok (.flushBuffer, r)
    | 0x0C => operands8x2 op r .setChannelType
    | 0x0D => operandsChIdxCol op r .setActiveColor
    | 0x0E => operandsChIdxCol op r .setInactiveColor
    | 0x0F => operandsChIdx op r .getActiveColor
    | 0x10 => operandsChIdx op r .getInactiveColor
    | 0x11 => operandsConstruct op r
    | 0x12 => operandsInitialise op r
    | 0x13 => .ok (.teardown, r)
    | 0x20 => .ok (.latch, r)
    | 0x21 => .ok (.service, r)
    | 0x22 => operands32 op r .writeback
    | _ => .error (.unknownOperation op)

/-- The instruction of one schedule line: the operation its bytes begin with. -/
def decodeLine (code : List Byte) : Except DecodeError Instr :=
  match decode code with
  | .ok (i, _) => .ok i
  | .error e => .error e

/-- The decoder over both encoded forms (R99). -/
def decodeCode : Code → Except DecodeError Instr
  | .record d => .ok (decodeRecord d)
  | .op bytes => decodeLine bytes

/-! The encoder -/

/-- `CTRL = KIND | DST<<3 | SADV<<5 | INTEN<<6 | DSTOP<<7 | NEXT<<8 | COUNT<<16` (R91), with the reserved bits kept. -/
def encodeCtrl (k : Kind) (f : Fields) : Word :=
  (bitsOfKind k).setWidth 32
    ||| (f.dst.setWidth 32 <<< 3)
    ||| ((BitVec.ofBool f.sadv).setWidth 32 <<< 5)
    ||| ((BitVec.ofBool f.inten).setWidth 32 <<< 6)
    ||| ((BitVec.ofBool f.dstop).setWidth 32 <<< 7)
    ||| (f.next.setWidth 32 <<< 8)
    ||| (f.rsvd.setWidth 32 <<< 11)
    ||| (f.count.setWidth 32 <<< 16)

/-- A record from its fields (R90, R91). -/
def encodeRecord (k : Kind) (f : Fields) : Desc :=
  ⟨f.src, encodeCtrl k f⟩

/-- A record with its `INTEN` field written and every other bit kept (R91). -/
def setInten (b : Bool) (d : Desc) : Desc :=
  encodeRecord (kindOf d) { fieldsOf d with inten := b }

/-- A 16-bit operand, least significant byte first. -/
def bytes16 (w : BitVec 16) : List Byte :=
  [w.extractLsb' 0 8, w.extractLsb' 8 8]

/-- A 32-bit operand, least significant byte first. -/
def bytes32 (w : Word) : List Byte :=
  [w.extractLsb' 0 8, w.extractLsb' 8 8, w.extractLsb' 16 8, w.extractLsb' 24 8]

/-- The operand byte of a capacity. -/
def byteOfCap : Cap → Byte
  | .three => 0
  | .four => 1

/-- The operand byte of a buffer mode. -/
def byteOfMode : Mode → Byte
  | .paced => 0
  | .free => 1
  | .double => 2

/-- The operand byte of a channel type. -/
def byteOfChType : ChType → Byte
  | .a => 0
  | .b => 1
  | .four => 2

/-- The encoded form of an instruction (R90, R91, R100). -/
def encode : Instr → Code
  | .prime f => .record (encodeRecord .prime f)
  | .gateHi f => .record (encodeRecord .gateHi f)
  | .data f => .record (encodeRecord .data f)
  | .close f => .record (encodeRecord .close f)
  | .gap f => .record (encodeRecord .gap f)
  | .reservedKind5 f => .record (encodeRecord .reserved5 f)
  | .reservedKind6 f => .record (encodeRecord .reserved6 f)
  | .reservedKind7 f => .record (encodeRecord .reserved7 f)
  | .pteEnable sd ld => .op (0x01 :: (bytes16 sd ++ bytes16 ld))
  | .pteDisable => .op [0x02]
  | .tdcBuild => .op [0x03]
  | .tdcStart => .op [0x04]
  | .tdcDisable => .op [0x05]
  | .flush a n => .op (0x06 :: (bytes32 a ++ bytes32 n))
  | .requestSwap => .op [0x07]
  | .irqHandler => .op [0x08]
  | .bufferReady => .op [0x09]
  | .flipBuffers => .op [0x0A]
  | .flushBuffer => .op [0x0B]
  | .setChannelType ch t => .op [0x0C, ch, t]
  | .setActiveColor ch idx col => .op (0x0D :: ch :: (bytes32 idx ++ bytes32 col))
  | .setInactiveColor ch idx col => .op (0x0E :: ch :: (bytes32 idx ++ bytes32 col))
  | .getActiveColor ch idx => .op (0x0F :: ch :: bytes32 idx)
  | .getInactiveColor ch idx => .op (0x10 :: ch :: bytes32 idx)
  | .construct leds cap mode => .op (0x11 :: (bytes32 leds ++ [byteOfCap cap, byteOfMode mode]))
  | .initialise u p => .op [0x12, u, p.shiftClock, p.latchClock, p.data]
  | .teardown => .op [0x13]
  | .latch => .op [0x20]
  | .service => .op [0x21]
  | .writeback a => .op (0x22 :: bytes32 a)

/-! The table's words -/

/-- The bytes of an operation whose number is `w` and whose operand bytes are all zero, as long as the longest
operation (`SET_ACTIVE_COLOR`: a number, a channel and two words). -/
def opText (w : Nat) : List Byte :=
  (List.range 10).map fun i => BitVec.ofNat 8 (w >>> (8 * i))

/-- The encoded form a row of the table has when its bits are `w`: an operation's bytes when the row has 8 bits or
fewer and they are an operation number of R100, else a record whose `CTRL` is `w` and whose `SRC` is 0 (R99: the mask
of a format D row is over `CTRL`). -/
def tableCode (nbits w : Nat) : Code :=
  if nbits ≤ 8 then
    match decode (opText (w % 2 ^ nbits)) with
    | .ok _ => .op (opText (w % 2 ^ nbits))
    | .error _ => .record ⟨0, BitVec.ofNat 32 (w % 2 ^ nbits)⟩
  else .record ⟨0, BitVec.ofNat 32 (w % 2 ^ nbits)⟩

/-- What the decoder reads from a row's word. -/
def decodeTableWord (nbits w : Nat) : Option Instr :=
  match decodeCode (tableCode nbits w) with
  | .ok i => some i
  | .error _ => none

end Sys2Proof
end

