-- ==== Sys2Proof/Machine/State.lean ====
section
/-! DEFINITION. The state of the block as plain data, the faults and refusals, the micro-steps an operation in progress
still has to take, and the state at process start (10_state.md R20 to R44, 60_exceptions.md R260). -/

namespace Sys2Proof.Machine

open Sys2Proof

/-- The six faults of R260. -/
inductive Fault where
  /-- F1, raised by `LATCH` (R126): gate open and no word since the previous `LATCH`; `slot` is the slot's index.
  Recorded in the state, and the step goes on. Safe: the slot's symbols are not to be relied on (R303). -/
  | underrun (slot : Nat)
  /-- F2, raised by `LATCH` (R127): a line's symbol is `UNSPEC`. Recorded in the state, and the step goes on. Safe. -/
  | unspecOutput (slot : Nat) (glatch dlatch : Word)
  /-- F3, raised by `GATEHI` (R166): the gate would open while `PTE.DSEC` is not the known 0. The machine stops: safe. -/
  | spuriousLeadBit
  /-- F4, raised by `Load` (R160) and by executing a record `Load` would not accept (R98): reserved kind, selector,
  count or bits, or a `⊥` record. The machine stops: safe. -/
  | reservedDescriptor (index : BitVec 3)
  /-- F5, raised by `Load` (R160): the record's source is not a multiple of 4. The machine stops: safe. -/
  | misalignedSource (index : BitVec 3)
  /-- F6, raised by a unit transfer (R161): the source is neither a frame-buffer word nor a constant word. The machine
  stops: safe. -/
  | unmappedSource (addr : Word)
deriving DecidableEq, Repr

/-- Calls and configurations no rule gives a meaning (R16, R261), each safe: nothing is claimed of them. -/
inductive Refusal where
  /-- an instruction without a meaning yet -/
  | notModelled (mnemonic : String)
  /-- `PTE_ENABLE` with a divisor of 0 or a ratio other than 32 (R123, V16) -/
  | badDivisors
  /-- `REQUEST_SWAP` outside `MODE = DOUBLE` (R190, V16) -/
  | notDoubleBuffered
  /-- `TDC_START` or `TDC_BUILD` with `TDC.RUN = 1` (R172, R152, V16) -/
  | chainRunning
  /-- `TDC_BUILD` with an address that breaks R67 (R152, V16) -/
  | badAddresses
  /-- `TDC_BUILD` ends with a chain that breaks R97, the constants of R63 among it (V7) -/
  | illFormedChain
  /-- executing a legal record whose fields are not those R95 gives its index, or with constant words that do not hold
  their values (R98 "not admitted", R97, R63, V7); `index` is `TDC.CUR` -/
  | notAdmitted (index : BitVec 3)
  /-- `CONSTRUCT` with more than four data descriptors (R240, U3) -/
  | tooManyDescriptors
  /-- `CONSTRUCT` under three-channel capacity with a `CHTYPE_INIT` that breaks R222 (R8) -/
  | badChannelTypes
  /-- a host operation while another is in progress (R15 (d)) -/
  | callerBusy
  /-- a host operation of call context while a handler run is in progress (R15 (b)) -/
  | heldByHandler
  /-- a schedule line whose bytes are no operation of R100 -/
  | undecodable (e : DecodeError)
deriving DecidableEq, Repr

/-- What one line carries in one slot (R19, R127). -/
inductive Sym where
  | low
  | pulse0
  | pulse1
  | unspec
deriving DecidableEq, Repr

/-- The shared clock generator (R40). -/
inductive ClkGen where
  | idle
  | locked
deriving DecidableEq, Repr

/-- The result of a call that returns one (R198, R226, R241). -/
inductive Ret where
  | none
  | bool (b : Bool)
  | color (c : Word)
deriving DecidableEq, Repr

/-- Words by byte address, rising addresses, one entry an address (R64: a map from word-aligned addresses to 32-bit
values, with no byte view). An address with no entry holds no known value. -/
abbrev Mem := List (Nat × Word)

/-- The frame buffer (R70): the CPU view, the DMA view, and the addresses of the dirty words in rising order. -/
structure Buffer where
  cpuv : Mem
  dmav : Mem
  dirty : List Nat
  alloc : Nat
deriving DecidableEq, Repr

/-- An entry of the descriptor table (R29): its two words, and whether `TDC_BUILD` has written it (`⊥` if not). -/
structure Entry where
  known : Bool
  body : Desc
deriving DecidableEq, Repr

/-- One driver instance with its unit, channel and buffer (R20, R44). -/
structure Inst where
  /-- the parameters of R8, changed by no step -/
  par : Params
  /-- `LEDS`, `CAP`, `MODE` (R6) -/
  leds : Nat
  cap : Cap
  mode : Mode
  /-- `PTE.EN` (R21) -/
  en : Bool
  /-- `PTE.SHIFT_DIV`, `PTE.LATCH_DIV` (R22) -/
  shiftDiv : BitVec 16
  latchDiv : BitVec 16
  /-- `PTE.DBUF` (R23) -/
  dbuf : Word
  /-- `PTE.DSEC` (R24), `none` for `⊥` -/
  dsec : Option Word
  /-- `PTE.GATE` (R25) -/
  gate : Word
  /-- `PTE.DLATCH`, `PTE.GLATCH` (R26) -/
  dlatch : Word
  glatch : Word
  /-- `PTE.REQ` (R27) -/
  req : Bool
  /-- `OUT` (R18): one entry of 32 symbols per `LATCH`, oldest first -/
  out : List (List Sym)
  /-- the recorded faults (R18, R260), oldest first -/
  faults : List Fault
  /-- `DESC[0..7]` (R29) -/
  desc : Vector Entry 8
  /-- `TDC.CUR`, `TDC.W`, `TDC.SRC_CUR`, `TDC.CNT_REM` (R30) -/
  cur : BitVec 3
  w : Desc
  srcCur : Word
  cntRem : BitVec 16
  /-- `TDC.RUN` (R31) -/
  run : Bool
  /-- `TDC.IRQ_PEND` (R32) -/
  irqPend : Bool
  /-- `TDC.IRQ_ATTACHED` (R33) -/
  irqAttached : Bool
  /-- a `SERVICE` loop (R161) has made a unit transfer and has not written its data word yet (the model's own) -/
  mid : Bool
  /-- `SWS.ACTIVE_PTR`, `SWS.INACTIVE_PTR` (R35) -/
  activePtr : Word
  inactivePtr : Word
  /-- `CHTYPE[0..31]` (R37) -/
  chtype : Vector ChType 32
  /-- `INITIALIZED`, `UNIT` (R38) -/
  initialized : Bool
  unitNo : Option (Fin 2)
  /-- the words at `ZERO_ADDR` and `ONES_ADDR` (R63) -/
  zeroWord : Word
  onesWord : Word
  /-- the frame buffer in its two views (R70) -/
  buf : Buffer
deriving DecidableEq, Repr

/-- One micro-step of a host operation or of the handler (R15 (a)), with the local values it carries (R266). -/
inductive Micro where
  /-- `PTE_ENABLE` (R123) -/
  | pteEnable (sd ld : BitVec 16)
  /-- `PTE_DISABLE` (R124) -/
  | pteDisable
  /-- `TDC_BUILD`: record `i` (R152) -/
  | buildRecord (i : BitVec 3)
  /-- `TDC_BUILD`: the chain is checked (R97) and the interrupt attached (R152) -/
  | buildEnd
  /-- `TDC_START` (R172) -/
  | tdcStart
  /-- `TDC_DISABLE`: `TDC.RUN <- 0` (R173) -/
  | runOff
  /-- `TDC_DISABLE`: `TDC.IRQ_ATTACHED <- 0` (R173) -/
  | detach
  /-- `Flush(addr, len)` (R72) -/
  | flush (addr len : Nat)
  /-- `REQUEST_SWAP` s1 (R191) -/
  | swapPtrs
  /-- `REQUEST_SWAP` s2 (R191) -/
  | flushActive
  /-- `REQUEST_SWAP` s3 (R191) -/
  | arm
  /-- `FLIP_BUFFERS` f2, one read of `TDC.RUN` (R200) -/
  | spinStopped
  /-- one read-modify-write of `setChannelColor` (R225): word address, channel, bit -/
  | setBit (a : Word) (ch : Nat) (b : Bool)
  /-- `INITIALIZE` i1 (R243) -/
  | claim (u : Fin 2)
  /-- `INITIALIZE` i2 (R243) -/
  | zeroFlush
  /-- `INITIALIZE` i3, `PinsConfigure` (R248) -/
  | pinsConfigure (p : Pins)
  /-- `INITIALIZE` i4, `ClkgenPowerUp`: one poll of the lock report (R244) -/
  | clkPowerUp
  /-- `INITIALIZE` i8 (R243) -/
  | initDone
  /-- `TEARDOWN` t3, `PinsRelease` (R246, R248) -/
  | pinsRelease
  /-- `TEARDOWN` t4 (R246) -/
  | clkPowerDown
  /-- `TEARDOWN` t5 (R246) -/
  | unclaim
  /-- `TEARDOWN` t6 (R246) -/
  | clearInit
  /-- `IRQ_HANDLER` h1 (R195) -/
  | disarm
  /-- `IRQ_HANDLER` h2.i (R195) -/
  | retarget (i : Nat)
  /-- `IRQ_HANDLER` h3 (R195) -/
  | ack
deriving DecidableEq, Repr

/-- The whole machine: the instances, what they share, and which agent moves. -/
structure State where
  /-- the instances by number; one not listed is as at process start (R43) -/
  insts : List Inst
  /-- `INST[0..1]` (R39) -/
  owner : Vector (Option Nat) 2
  /-- `CLKGEN` (R40) -/
  clkgen : ClkGen
  /-- the generator's lock report, an input (R244) -/
  lockLine : Bool
  /-- `CALL`: the micro-steps the operation in progress has left, each with its instance (R14, R15) -/
  call : List (Nat × Micro)
  /-- `IRQ`: the micro-steps the handler run in progress has left, each with its instance (R15 (b)) -/
  irq : List (Nat × Micro)
  /-- the result of the last call that returned one -/
  ret : Ret
  /-- the schedule still to come (R102, V13) -/
  sched : List Turn
  /-- how many free turns have been taken -/
  turnNo : Nat
  /-- how many free values have been used -/
  freeNo : Nat
  /-- the instance the turn in progress names -/
  sel : Nat
  /-- the grain of the turn in progress -/
  grain : Grain
deriving DecidableEq, Repr

/-- An instance at process start (R43, first column). Where that column has `⊥` or "not yet existing" the value is the
model's choice (notes/assumptions/3.md), but for `PTE.DSEC`, the records and the memory, whose `⊥` is kept. -/
def Inst.atStart : Inst where
  par := Config.params
  leds := 0
  cap := .three
  mode := .paced
  en := false
  shiftDiv := 0
  latchDiv := 0
  dbuf := 0
  dsec := none
  gate := 0
  dlatch := 0
  glatch := 0
  req := false
  out := []
  faults := []
  desc := Vector.replicate 8 ⟨false, ⟨0, 0⟩⟩
  cur := 0
  w := ⟨0, 0⟩
  srcCur := 0
  cntRem := 0
  run := false
  irqPend := false
  irqAttached := false
  mid := false
  activePtr := Config.params.base0
  inactivePtr := Config.params.base0
  chtype := Config.params.chtypeInit
  initialized := false
  unitNo := none
  zeroWord := ZERO
  onesWord := ONES
  buf := ⟨[], [], [], 0⟩

/-- Process start (R43, first column; R290): no instance constructed, no unit claimed, the generator idle
(`CLKGEN_INIT`, notes/assumptions/4.md), no operation in progress, no schedule spelled out. -/
def State.reset : State where
  insts := []
  owner := Vector.replicate 2 none
  clkgen := .idle
  lockLine := false
  call := []
  irq := []
  ret := .none
  sched := []
  turnNo := 0
  freeNo := 0
  sel := 0
  grain := .whole

end Sys2Proof.Machine
end

