-- ==== Sys2Proof/Machine/Operands.lean ====
section
/-! DEFINITION. The quantities operations compute their operands from: buffer sizes and addresses (00_scope.md R6, R9,
20_memory.md R61, R62), the data segments and the built descriptor table (41_descriptor_chain.md R151 to R156), and the
word a colour bit lives in (43_frame_buffer_codec.md R221, R224). -/

namespace Sys2Proof.Machine

open Sys2Proof

/-- `DEPTH` (R6). -/
def depthOf : Cap → Nat
  | .three => 24
  | .four => 32

/-- `FRAME_WORDS = LEDS * DEPTH` (R6). -/
def frameWords (x : Inst) : Nat :=
  x.leds * depthOf x.cap

/-- `BUF_WORDS` (R6). -/
def bufWords (x : Inst) : Nat :=
  match x.mode with
  | .double => 2 * frameWords x
  | .paced => frameWords x
  | .free => frameWords x

/-- `BUF_BYTES` (R6). -/
def bufBytes (x : Inst) : Nat :=
  bufWords x * 4

/-- `ceil(a / b)` (R10, R176). -/
def ceilDiv (a b : Nat) : Nat :=
  (a + b - 1) / b

/-- `N_DATA` for a frame of `words` words (R9, R151). -/
def segments (words : Nat) (p : Params) : Nat :=
  ceilDiv words p.maxXfer.toNat

/-- `N_DATA` (R9, R151). -/
def nData (x : Inst) : Nat :=
  segments (frameWords x) x.par

/-- `BASE1` (R9, R62). -/
def base1 (x : Inst) : Word :=
  match x.mode with
  | .double => x.par.base0 + BitVec.ofNat 32 (4 * frameWords x)
  | .paced => x.par.base0
  | .free => x.par.base0

/-- `CYCLE_SLOTS` (R9). -/
def cycleSlots (x : Inst) : Nat :=
  frameWords x + x.par.gapCount.toNat

/-- Byte address of frame-buffer word `k` (R61). -/
def wordAddr (x : Inst) (k : Nat) : Nat :=
  x.par.base0.toNat + 4 * k

/-- Whether a byte address is that of a frame-buffer word (R61, R67). -/
def isFrameWord (x : Inst) (a : Nat) : Bool :=
  x.par.base0.toNat ≤ a && a < x.par.base0.toNat + bufBytes x && (a - x.par.base0.toNat) % 4 == 0

/-- `COUNT(i)` (R153). -/
def segCount (x : Inst) (i : Nat) : Nat :=
  if i + 1 < nData x then x.par.maxXfer.toNat
  else if frameWords x % x.par.maxXfer.toNat = 0 then x.par.maxXfer.toNat
  else frameWords x % x.par.maxXfer.toNat

/-- `SRC` of `DATA_STREAM(i)` for the half at `base` (R94, R154). -/
def segSrc (x : Inst) (base : Word) (i : Nat) : Word :=
  base + BitVec.ofNat 32 (4 * i * x.par.maxXfer.toNat)

/-- `NEXT` of `DATA_STREAM(i)` (R155). -/
def segNext (x : Inst) (i : Nat) : BitVec 3 :=
  if i + 1 < nData x then BitVec.ofNat 3 (3 + i) else 6

/-- The canonical fields of `PRIME` (R95). -/
def primeFields (x : Inst) : Fields :=
  { src := x.par.zeroAddr, dst := 1, sadv := false, inten := false, dstop := false, next := 1, rsvd := 0, count := 1 }

/-- The canonical fields of `GATEHI` (R95). -/
def gateHiFields (x : Inst) : Fields :=
  { src := x.par.onesAddr, dst := 2, sadv := false, inten := false, dstop := false, next := 2, rsvd := 0, count := 1 }

/-- The canonical fields of `CLOSE`, armed or not (R95). -/
def closeFields (x : Inst) (armed : Bool) : Fields :=
  { src := x.par.zeroAddr, dst := 2, sadv := false, inten := armed, dstop := false, next := 7, rsvd := 0, count := 1 }

/-- The canonical fields of `GAP` (R95). -/
def gapFields (x : Inst) : Fields :=
  { src := x.par.zeroAddr, dst := 0, sadv := false, inten := false, dstop := x.mode == .paced, next := 0, rsvd := 0,
    count := x.par.gapCount }

/-- The canonical fields of a `DATA` at index `2+i` (R95): any word of the buffer as its source, any count up to the
maximum. -/
def dataCanonical (x : Inst) (i : Nat) (f : Fields) : Bool :=
  isFrameWord x f.src.toNat && f.dst == 0 && f.sadv && !f.inten && !f.dstop && f.rsvd == 0 && 1 ≤ f.count.toNat
    && f.count.toNat ≤ x.par.maxXfer.toNat && f.next == segNext x i

/-- The filler of an unused slot (R97 (b)). -/
def unusedRecord : Desc :=
  ⟨0, 0x00000007⟩

/-- `DATA_STREAM(i)` for the half at `base`, or the filler (R156). -/
def segRecord (x : Inst) (base : Word) (i : Nat) : Desc :=
  if i < nData x then
    encodeRecord .data
      { src := segSrc x base i, dst := 0, sadv := true, inten := false, dstop := false, next := segNext x i, rsvd := 0,
        count := BitVec.ofNat 16 (segCount x i) }
  else unusedRecord

/-- The built record of each index, for the half at `base` (R155, R156). -/
def builtRecord (x : Inst) (base : Word) (i : BitVec 3) : Desc :=
  match i.toNat with
  | 0 => encodeRecord .prime (primeFields x)
  | 1 => encodeRecord .gateHi (gateHiFields x)
  | 6 => encodeRecord .close (closeFields x false)
  | 7 => encodeRecord .gap (gapFields x)
  | k => segRecord x base (k - 2)

/-- `W(t)` (R37, R221). -/
def widthOf : ChType → Nat
  | .a => 24
  | .b => 24
  | .four => 32

/-- `CHTYPE[ch]` of a channel `0..31` (R37). -/
def chTypeAt (x : Inst) (ch : Fin 32) : ChType :=
  x.chtype[ch.val]

/-- Word address of bit position `b` of LED `n` for a channel of width `w` in the half at `buf` (R224). -/
def colorAddr (buf : Word) (w n b : Nat) : Word :=
  buf + BitVec.ofNat 32 (4 * (n * w + b))

/-- The operand checks of the colour accessors (R225, R226): the channel and its width, or `none` for a silent
no-op. -/
def colorTarget (x : Inst) (ch : Byte) (idx : Word) : Option (Fin 32 × Nat) :=
  if h : ch.toNat < 32 then
    if idx.toNat < x.leds then some (⟨ch.toNat, h⟩, widthOf (chTypeAt x ⟨ch.toNat, h⟩)) else none
  else none

/-- The unit a peripheral unit index names: `0..UNITS-1` (R7, R241 check 2). -/
def unitOfByte (u : Byte) : Option (Fin 2) :=
  if h : u.toNat < 2 then some ⟨u.toNat, h⟩ else none

end Sys2Proof.Machine
end

