-- ==== Sys2Proof/Machine/Flags.lean ====
section
/-! DEFINITION. Flags, enabling conditions and the functions of the state that are not state: what each agent's step
waits for (00_scope.md R14, R15), the symbol and waveform functions (40_timing_engine.md R120 to R130), the phase
(41_descriptor_chain.md R170), the swap views (10_state.md R34, R36, 42_swap_synchronizer.md R203). -/

namespace Sys2Proof.Machine

open Sys2Proof

/-- `SERVICE` is enabled (R14, R161). -/
def serviceEnabled (x : Inst) : Bool :=
  x.en && x.req && x.run

/-- A `SERVICE` loop is under way: it has begun and has not yet written its data word (R161). -/
def inService (x : Inst) : Bool :=
  x.mid && x.en && x.run

/-- `LATCH` is enabled (R14, R126): the engine has a clock, which it has not with the generator idle (R275, R291), and
the step does not fall inside a `SERVICE` step (R161). -/
def latchEnabled (c : ClkGen) (x : Inst) : Bool :=
  x.en && c == .locked && !inService x

/-- Between two passes of one `SERVICE` step where no other agent can come: `PRIME` and `GATEHI` (R302), or `CLOSE` and the
first gap zero (R131 (c), R174). How the model holds this is notes/assumptions/9.md. -/
def passBound (x : Inst) : Bool :=
  x.mid && serviceEnabled x && (kindOf x.w == .gateHi || kindOf x.w == .gap)

/-- The `IRQ` agent is enabled (R14, R195). -/
def irqEnabled (x : Inst) : Bool :=
  x.irqPend && x.irqAttached

/-- `SYM(g, d, c)` (R127). -/
def sym (g d : Word) (c : Nat) : Sym :=
  if g = ZERO then (if d.getLsbD c then .unspec else .low)
  else if g = ONES then (if d.getLsbD c then .pulse1 else .pulse0)
  else .unspec

/-- The 32 symbols of a slot, line 0 first (R18, R126). -/
def slotSyms (g d : Word) : List Sym :=
  (List.range 32).map (sym g d)

/-- `LATCH` finds no new word with the gate open (R126). -/
def underruns (x : Inst) : Bool :=
  x.req && x.gate != ZERO

/-- `WAVE(symbol, p)` (R129): `none` is `⊥`. -/
def wave (p : Params) (s : Sym) (tick : Nat) : Option Bool :=
  match s with
  | .low => some false
  | .pulse0 => some (decide (tick < p.envTicks))
  | .pulse1 => some (decide (tick < p.oneTicks))
  | .unspec => none

/-- The part of a bit-time a symbol is high, as a number of ticks over 32 (R130). -/
def dutyCycle (p : Params) (s : Sym) : Option Rat :=
  match s with
  | .low => some 0
  | .pulse0 => some (p.envTicks / 32)
  | .pulse1 => some (p.oneTicks / 32)
  | .unspec => none

/-- `F_INT` over a divisor, in hertz (R121). DESIGN CHOICE (notes/assumptions/29.md): the reserved divisor 0 (R22), to
which the spec gives no rate, has none. -/
def clockRate (p : Params) (d : BitVec 16) : Option Rat :=
  if d = 0 then none else some (p.fInt / d.toNat)

/-- `F_SHIFT`, in hertz (R121); none for the reserved divisor 0. -/
def shiftRate (p : Params) (sd : BitVec 16) : Option Rat :=
  clockRate p sd

/-- `F_LATCH`, in hertz (R121); none for the reserved divisor 0. -/
def latchRate (p : Params) (ld : BitVec 16) : Option Rat :=
  clockRate p ld

/-- The divisor pairs `PTE_ENABLE` accepts (R22, R123). -/
def divisorsOk (sd ld : BitVec 16) : Bool :=
  sd != 0 && ld != 0 && ld.toNat == 32 * sd.toNat

/-- The coarse view of the sequencer (R19, R170). -/
inductive Phase where
  | stopped
  | prime
  | stream
  | gap
deriving DecidableEq, Repr

/-- `PHASE` (R170). -/
def phase (x : Inst) : Phase :=
  if x.run = false then .stopped
  else if x.cur.toNat ≤ 1 then .prime
  else if x.cur.toNat ≤ 5 then .stream
  else .gap

/-- Entry `i` of the descriptor table. -/
def descAt (x : Inst) (i : BitVec 3) : Entry :=
  x.desc[i.toNat]'(by have := i.isLt; omega)

/-- `SWAP_PENDING` (R34). -/
def swapPending (x : Inst) : Bool :=
  (fieldsOf (descAt x 6).body).inten || x.irqPend

/-- `ACTIVE_SEL` (R36). -/
def activeSel (x : Inst) : Bool :=
  x.mode == .double && x.activePtr == base1 x

/-- `STREAM_HALF` (R203): the half `DESC[2].SRC` lies in, half 1 counted first only in `MODE = DOUBLE`. DESIGN CHOICE
(notes/assumptions/18.md): with `DESC[2] = ⊥`, before `TDC_BUILD`, the spec gives no value and the answer is none. -/
def streamHalf (x : Inst) : Option Word :=
  let a := (descAt x 2).body.src.toNat
  if !(descAt x 2).known then none
  else if !isFrameWord x a then none
  else if x.mode == .double && x.par.base0.toNat + 4 * frameWords x ≤ a then some (base1 x)
  else some x.par.base0

/-- `ACTIVE_COUNT` (R39). -/
def activeCount (s : State) : Nat :=
  (s.owner.toList.filter Option.isSome).length

/-- The answer of `BUFFER_READY` (R198). -/
def bufferReady (x : Inst) : Bool :=
  match x.mode with
  | .paced => !x.run
  | .free => true
  | .double => true

end Sys2Proof.Machine
end

