-- ==== Sys2Proof/Machine/Ops.lean ====
section
/-! DEFINITION. The named operations over the state: instances, memory in its two views (20_memory.md R70 to R72), the
descriptor table and `Load`, `Complete` and the unit transfer (41_descriptor_chain.md R160 to R162), the engine's reset
and latch (40_timing_engine.md R123, R126), the checks on a chain (30_encoding.md R97), and the interrupt: raising it,
entering the handler, leaving it (60_exceptions.md R262 to R267). -/

namespace Sys2Proof.Machine

open Sys2Proof

/-! Instances -/

/-- The instance at a place of the list; one not listed is as at process start. -/
def instAt : List Inst → Nat → Inst
  | [], _ => Inst.atStart
  | x :: _, 0 => x
  | _ :: l, n + 1 => instAt l n

/-- The list with an instance written at a place. -/
def setInstAt : List Inst → Nat → Inst → List Inst
  | [], 0, y => [y]
  | [], n + 1, y => Inst.atStart :: setInstAt [] n y
  | _ :: l, 0, y => y :: l
  | x :: l, n + 1, y => x :: setInstAt l n y

/-- Instance `n` (R44). -/
def getInst (s : State) (n : Nat) : Inst :=
  instAt s.insts n

/-- Writes instance `n` and nothing else. -/
def setInst (s : State) (n : Nat) (x : Inst) : State :=
  { s with insts := setInstAt s.insts n x }

/-- The instance the turn in progress names. -/
def this (s : State) : Inst :=
  getInst s s.sel

/-- Writes the instance the turn in progress names. -/
def setThis (s : State) (x : Inst) : State :=
  setInst s s.sel x

/-! Memory -/

/-- The word listed at an address, if one is. -/
def Mem.find : Mem → Nat → Option Word
  | [], _ => none
  | (k, v) :: m, a => if k = a then some v else Mem.find m a

/-- Writes a word, keeping the addresses rising. -/
def Mem.write : Mem → Nat → Word → Mem
  | [], a, v => [(a, v)]
  | (k, w) :: m, a, v =>
    if a < k then (a, v) :: (k, w) :: m
    else if a = k then (a, v) :: m
    else (k, w) :: Mem.write m a v

/-- Adds an address to a rising list. -/
def addAddr : List Nat → Nat → List Nat
  | [], a => [a]
  | k :: l, a => if a < k then a :: k :: l else if a = k then k :: l else k :: addAddr l a

/-- The canonical form of a list of addresses: strictly rising. -/
def rising : List Nat → Bool
  | [] => true
  | [_] => true
  | a :: b :: l => a < b && rising (b :: l)

/-- The canonical form of a memory: strictly rising addresses. An unlisted address reads as a free value, which no
entry can be said to equal, so no entry is superfluous. -/
def Mem.wf (m : Mem) : Bool :=
  rising (m.map Prod.fst)

/-- The canonical form of a frame buffer: both views and the dirty set. -/
def Buffer.wf (b : Buffer) : Bool :=
  Mem.wf b.cpuv && Mem.wf b.dmav && rising b.dirty

/-- `HostRead(a, 4)` (R11, R70): the CPU view; a word nothing has written reads as a free value (V10). -/
def hostRead (b : Buffer) (a : Nat) : Word :=
  (Mem.find b.cpuv a).getD (Config.unknownWord b.alloc .cpu a)

/-- What the DMA view holds at `a` (R70). -/
def dmaRead (b : Buffer) (a : Nat) : Word :=
  (Mem.find b.dmav a).getD (Config.unknownWord b.alloc .dma a)

/-- `HostWrite(a, 4, v)` (R70). -/
def hostWrite (b : Buffer) (a : Nat) (v : Word) : Buffer :=
  { b with cpuv := Mem.write b.cpuv a v, dirty := addAddr b.dirty a }

/-- `DMAV[a] <- CPUV[a]` for each of some addresses. -/
def carry (b : Buffer) : List Nat → Mem → Mem
  | [], m => m
  | a :: l, m => carry b l (Mem.write m a (hostRead b a))

/-- Whether a `Flush(addr, len)` covers `a` (R72). -/
def covers (addr len a : Nat) : Bool :=
  addr ≤ a && a < addr + len && a % 4 == 0

/-- `Flush(addr, len)` (R72). -/
def flushBuf (b : Buffer) (addr len : Nat) : Buffer :=
  { b with
    dmav := carry b (b.dirty.filter (covers addr len)) b.dmav
    dirty := b.dirty.filter (fun a => !covers addr len a) }

/-- `WRITEBACK(a)` of a dirty word (R71). -/
def writebackBuf (b : Buffer) (a : Nat) : Buffer :=
  { b with dmav := Mem.write b.dmav a (hostRead b a), dirty := b.dirty.filter (fun k => k != a) }

/-- `HostWrite(a, 4, 0)` for words `k .. k+n-1` of a buffer at `base` (R243 i2). -/
def zeroWords (base : Nat) : Nat → Nat → Buffer → Buffer
  | 0, _, b => b
  | n + 1, k, b => zeroWords base n (k + 1) (hostWrite b (base + 4 * k) 0)

/-- `INITIALIZE` i2 (R76, R243): every frame-buffer word zeroed, then the buffer flushed. -/
def zeroAndFlush (x : Inst) : Inst :=
  { x with
    buf := flushBuf (zeroWords x.par.base0.toNat (bufWords x) 0 x.buf) x.par.base0.toNat (bufBytes x) }

/-- `MemRead(a, 4)` (R11, R161): a frame-buffer word in the DMA view or a constant word; `none` at any other address. -/
def memRead (x : Inst) (a : Word) : Option Word :=
  if isFrameWord x a.toNat then some (dmaRead x.buf a.toNat)
  else if a = x.par.zeroAddr then some x.zeroWord
  else if a = x.par.onesAddr then some x.onesWord
  else none

/-- `setChannelColor`'s read-modify-write of one word (R225). -/
def writeBit (b : Buffer) (a : Word) (ch : Nat) (bit : Bool) : Buffer :=
  hostWrite b a.toNat
    ((hostRead b a.toNat &&& ~~~(1#32 <<< ch)) ||| ((if bit then 1#32 else 0#32) <<< ch))

/-- The micro-steps of `setChannelColor(buf, ch, idx, col)` (R225), `b` from `0` to `W-1`. -/
def colorMicros (buf : Word) (ch w idx : Nat) (col : Word) : List Micro :=
  (List.range w).map fun b => .setBit (colorAddr buf w idx b) ch (col.getLsbD (w - 1 - b))

/-- `getChannelColor`'s loop (R226): bits `W-1 .. 0` from bit positions `b = 0 .. W-1`. -/
def gatherColor (b : Buffer) (buf : Word) (ch w idx : Nat) : Word :=
  (List.range w).foldl
    (fun col k =>
      col ||| ((if (hostRead b (colorAddr buf w idx k).toNat).getLsbD ch then 1#32 else 0#32) <<< (w - 1 - k)))
    0#32

/-! The descriptor table -/

/-- Writes record `i` of the table; it is then known. -/
def writeRecord (x : Inst) (i : BitVec 3) (d : Desc) : Inst :=
  { x with desc := x.desc.set i.toNat ⟨true, d⟩ (by have := i.isLt; omega) }

/-- Writes one field of record `i`, `⊥` or not: whether the rest is known does not change. -/
def editRecord (x : Inst) (i : BitVec 3) (g : Desc → Desc) : Inst :=
  { x with
    desc := x.desc.set i.toNat ⟨(descAt x i).known, g (descAt x i).body⟩ (by have := i.isLt; omega) }

/-- `DESC[6].INTEN <- b` (R191 s3, R195 h1). -/
def setArmed (x : Inst) (b : Bool) : Inst :=
  editRecord x 6 (setInten b)

/-- `DESC[2+i].SRC <- SWS.ACTIVE_PTR + 4 * i * MAX_XFER` (R195 h2.i). -/
def retargetSegment (x : Inst) (i : Nat) : Inst :=
  editRecord x (BitVec.ofNat 3 (2 + i)) fun d => { d with src := segSrc x x.activePtr i }

/-- The addresses R67 asks for at `TDC_BUILD`: the buffer does not wrap, the constants lie outside it and apart, all
word-aligned. -/
def addressesOk (x : Inst) : Bool :=
  x.par.base0.toNat + bufBytes x ≤ 2 ^ 32 && x.par.base0.toNat % 4 == 0 && x.par.zeroAddr.toNat % 4 == 0
    && x.par.onesAddr.toNat % 4 == 0 && !isFrameWord x x.par.zeroAddr.toNat && !isFrameWord x x.par.onesAddr.toNat
    && x.par.zeroAddr != x.par.onesAddr

/-- The record of segment `i`. -/
def segAt (x : Inst) (i : Nat) : Entry :=
  descAt x (BitVec.ofNat 3 (2 + i))

/-- R97 (a) and (b): each record canonical for its index, the unused slots filled. -/
def recordsCanonical (x : Inst) : Bool :=
  (descAt x 0).known && (descAt x 0).body == builtRecord x 0 0
    && (descAt x 1).known && (descAt x 1).body == builtRecord x 0 1
    && (descAt x 6).known && setInten false (descAt x 6).body == builtRecord x 0 6
    && (descAt x 7).known && (descAt x 7).body == builtRecord x 0 7
    && 1 ≤ nData x && nData x ≤ 4
    && (List.range 4).all fun i =>
      (segAt x i).known
        && (if i < nData x then kindOf (segAt x i).body == .data && dataCanonical x i (fieldsOf (segAt x i).body)
            else (segAt x i).body == unusedRecord)

/-- R97 (c): the counts add up to one half, and the sources are those of one half. -/
def sourcesOf (x : Inst) (base : Word) : Bool :=
  (List.range (nData x)).all fun i => (segAt x i).body.src == segSrc x base i

/-- The sum of the `DATA` counts (R97 (c)). -/
def countSum (x : Inst) : Nat :=
  ((List.range (nData x)).map fun i => (fieldsOf (segAt x i).body).count.toNat).sum

/-- The indices met by following `NEXT` from `i` (R97 (d)). -/
def ringFrom (x : Inst) : Nat → BitVec 3 → List (BitVec 3)
  | 0, i => [i]
  | n + 1, i => i :: ringFrom x n (fieldsOf (descAt x i).body).next

/-- R97 (d): `0, 1, 2, ..., 1+N_DATA, 6, 7, 0`. -/
def ringOk (x : Inst) : Bool :=
  ringFrom x (nData x + 4) 0 == [0, 1] ++ ((List.range (nData x)).map fun i => BitVec.ofNat 3 (2 + i)) ++ [6, 7, 0]

/-- R97 (e): the constant words hold their constants (R63). -/
def constantsOk (x : Inst) : Bool :=
  x.zeroWord == ZERO && x.onesWord == ONES

/-- Well-formedness of the chain (R97 (a) to (e)). -/
def chainOk (x : Inst) : Bool :=
  recordsCanonical x && countSum x == frameWords x && (sourcesOf x x.par.base0 || sourcesOf x (base1 x)) && ringOk x
    && constantsOk x && 1 ≤ x.par.gapCount.toNat

/-! The sequencer -/

/-- Why an agent's step gives no next state: the machine stops with a fault, or no rule gives the step a meaning. -/
inductive Stop where
  | fault (e : Fault)
  | refuse (r : Refusal)
deriving DecidableEq, Repr

/-- `Load(i)` (R160), the block's control transfer and instruction fetch (R75). -/
def load (i : BitVec 3) (x : Inst) : Except Fault Inst :=
  let e := descAt x i
  let illegal := !e.known || kindOf e.body == .reserved5 || kindOf e.body == .reserved6 || kindOf e.body == .reserved7
    || (fieldsOf e.body).reservedBits
  if illegal then .error (.reservedDescriptor i)
  else if e.body.src.toNat % 4 ≠ 0 then .error (.misalignedSource i)
  else .ok { x with cur := i, w := e.body, srcCur := e.body.src, cntRem := (fieldsOf e.body).count }

/-- Raising the completion interrupt (R32, R262): the flag is sticky. -/
def raiseIrq (x : Inst) : Inst :=
  { x with irqPend := true }

/-- `Complete(d)` (R162). -/
def complete (f : Fields) (x : Inst) : Except Fault Inst :=
  let y := if f.inten then raiseIrq x else x
  if f.dstop then .ok { y with run := false } else load f.next y

/-- `x[r] <- v` (R11, R93). -/
def writeReg (r : BitVec 2) (v : Word) (x : Inst) : Inst :=
  match r.toNat with
  | 0 => { x with dbuf := v }
  | 1 => { x with dsec := some v }
  | 2 => { x with gate := v }
  | _ => x

/-- What a unit transfer does to the sequencer's counters and to the request, after its register write (R161): a
write to `PTE.DBUF` clears `PTE.REQ` and ends the `SERVICE` loop. -/
def advance (f : Fields) (x : Inst) : Inst :=
  { x with
    srcCur := if f.sadv then x.srcCur + 4 else x.srcCur
    cntRem := x.cntRem - 1
    req := if f.dst = 0 then false else x.req
    mid := f.dst != 0 }

/-- A record of kind `k` with fields `f`, loaded at index `TDC.CUR`, is admitted (R95, R97 (a) and (e), R98): the kind
is that of the index, the fields are the canonical ones, the constant words hold their constants. -/
def admitted (k : Kind) (f : Fields) (x : Inst) : Bool :=
  constantsOk x
    && match k with
      | .prime => x.cur == 0 && f == primeFields x
      | .gateHi => x.cur == 1 && f == gateHiFields x
      | .data =>
        2 ≤ x.cur.toNat && x.cur.toNat < 2 + nData x && x.cur.toNat ≤ 5 && dataCanonical x (x.cur.toNat - 2) f
      | .close => x.cur == 6 && f == closeFields x f.inten
      | .gap => x.cur == 7 && f == gapFields x
      | .reserved5 => false
      | .reserved6 => false
      | .reserved7 => false

/-- The fault that keeps a unit transfer with fields `f` from being made, if one does: a reserved record (R98), an
unmapped source (R161), the kind's own check. -/
def transferFault (check : Inst → Option Fault) (f : Fields) (x : Inst) : Option Fault :=
  if f.reservedBits then some (.reservedDescriptor x.cur)
  else if (memRead x x.srcCur).isNone then some (.unmappedSource x.srcCur)
  else check x

/-- `Complete`, at the end of a step that may also be refused. -/
def completeStep (f : Fields) (x : Inst) : Except Stop Inst :=
  match complete f x with
  | .ok y => .ok y
  | .error e => .error (.fault e)

/-- What a unit transfer does once nothing keeps it from being made (R161): the kind's own effect, the register write,
the counters, the completion. -/
def transferEffect (effect : Inst → Inst) (f : Fields) (v : Word) (x : Inst) : Except Stop Inst :=
  let y := advance f (writeReg f.dst v (effect x))
  if y.cntRem = 0 then completeStep f y else .ok y

/-- One pass of the loop of `SERVICE` (R161) with the descriptor fields `f`: the faults in the order of the rule, then
the effect, which a record that R98 does not admit does not have. -/
def transfer (k : Kind) (check : Inst → Option Fault) (effect : Inst → Inst) (f : Fields) (x : Inst) :
    Except Stop Inst :=
  match transferFault check f x with
  | some e => .error (.fault e)
  | none =>
    if !admitted k f x then .error (.refuse (.notAdmitted x.cur))
    else transferEffect effect f ((memRead x x.srcCur).getD 0) x

/-- The kind's own check of a kind that has none. -/
def noCheck (_ : Inst) : Option Fault :=
  none

/-- The kind-specific check of `GATEHI` (R166, R24). -/
def primedCheck (x : Inst) : Option Fault :=
  if x.dsec = some ZERO then none else some .spuriousLeadBit

/-- The kind-specific effect of `CLOSE` (R168, R24): `PTE.DSEC <- ⊥`. -/
def forgetDsec (x : Inst) : Inst :=
  { x with dsec := none }

/-- `PRIME`'s unit transfer (R165). -/
def primeTransfer (f : Fields) (x : Inst) : Except Stop Inst :=
  transfer .prime noCheck id f x

/-- `GATEHI`'s unit transfer (R166). -/
def gateHiTransfer (f : Fields) (x : Inst) : Except Stop Inst :=
  transfer .gateHi primedCheck id f x

/-- `DATA`'s unit transfer (R167). -/
def dataTransfer (f : Fields) (x : Inst) : Except Stop Inst :=
  transfer .data noCheck id f x

/-- `CLOSE`'s unit transfer (R168). -/
def closeTransfer (f : Fields) (x : Inst) : Except Stop Inst :=
  transfer .close noCheck forgetDsec f x

/-- `GAP`'s unit transfer (R169). -/
def gapTransfer (f : Fields) (x : Inst) : Except Stop Inst :=
  transfer .gap noCheck id f x

/-- A record of a reserved kind has no unit transfer (R98). -/
def reservedTransfer (x : Inst) : Except Stop Inst :=
  .error (.fault (.reservedDescriptor x.cur))

/-- One pass of the loop of `SERVICE` with the loaded descriptor (R161): `d := TDC.W`. -/
def unitTransfer (x : Inst) : Except Stop Inst :=
  match kindOf x.w with
  | .prime => primeTransfer (fieldsOf x.w) x
  | .gateHi => gateHiTransfer (fieldsOf x.w) x
  | .data => dataTransfer (fieldsOf x.w) x
  | .close => closeTransfer (fieldsOf x.w) x
  | .gap => gapTransfer (fieldsOf x.w) x
  | .reserved5 => reservedTransfer x
  | .reserved6 => reservedTransfer x
  | .reserved7 => reservedTransfer x

/-- `repeat ... until wrote_data or TDC.RUN = 0` (R161), at most `n` passes. -/
def serviceLoop : Nat → Inst → Except Stop Inst
  | 0, x => .ok x
  | n + 1, x =>
    match unitTransfer x with
    | .error e => .error e
    | .ok y => if y.mid && y.run then serviceLoop n y else .ok y

/-- Passes after which a ring that has written no data word never will: eight records of at most 65535 transfers. -/
def servicePasses : Nat :=
  524288

/-- `SERVICE()` (R161). -/
def serviceInst (x : Inst) : Except Stop Inst :=
  serviceLoop servicePasses x

/-- `TDC_START` (R172): `Load(0); TDC.RUN <- 1`. -/
def startChain (x : Inst) : Except Fault Inst :=
  match load 0 x with
  | .error e => .error e
  | .ok y => .ok { y with run := true, mid := false }

/-! The engine -/

/-- The PTE reset, action (1) of `PTE_ENABLE` (R43, R123). -/
def pteReset (x : Inst) : Inst :=
  { x with
    en := false, req := false, dbuf := 0, gate := 0, dlatch := 0, glatch := 0, dsec := none, shiftDiv := 0,
    latchDiv := 0, mid := false }

/-- `PTE_ENABLE`'s three actions (R123). -/
def enableEngine (sd ld : BitVec 16) (x : Inst) : Inst :=
  { pteReset x with shiftDiv := sd, latchDiv := ld, en := true, req := true }

/-- The faults a `LATCH` records (R126, R260), with the slot's index. -/
def latchFaults (x : Inst) : List Fault :=
  (if underruns x then [.underrun x.out.length] else [])
    ++ (if (slotSyms x.gate x.dbuf).contains .unspec then [.unspecOutput x.out.length x.gate x.dbuf] else [])

/-- `LATCH()` (R126). -/
def latchInst (x : Inst) : Inst :=
  { x with
    faults := x.faults ++ latchFaults x
    dlatch := x.dbuf
    glatch := x.gate
    out := x.out ++ [slotSyms x.gate x.dbuf]
    req := true }

/-! The interrupt -/

/-- The instance whose handler the hardware event of instance `n` enters (R247, R264): the trampoline of its unit looks
up `INST`; an instance with no unit has only its own handler to enter. -/
def irqRoute (s : State) (n : Nat) : Option Nat :=
  match (getInst s n).unitNo with
  | none => some n
  | some u => s.owner[u.val]

/-- The handler's micro-steps on instance `n` (R195): h1, h2.i for `i = 0 .. N_DATA-1`, h3. -/
def handlerMicros (x : Inst) : List Micro :=
  [.disarm] ++ (List.range (nData x)).map .retarget ++ [.ack]

/-- Return from the handler (R195 h3, R267): the pending flag is cleared. -/
def ackIrq (x : Inst) : Inst :=
  { x with irqPend := false }

/-- Whether the `IRQ` agent is inside a handler run (R15 (b), R267). -/
def inHandler (s : State) : Bool :=
  !s.irq.isEmpty

/-- Whether the `CALL` agent has an operation in progress (R15 (d)). -/
def inCall (s : State) : Bool :=
  !s.call.isEmpty

/-! The registry and the generator -/

/-- `INST[u] <- v` (R39). -/
def setOwner (s : State) (u : Fin 2) (v : Option Nat) : State :=
  { s with owner := s.owner.set u.val v }

/-- Whether `UNIT != none and INST[UNIT] = this instance` (R246 t4, t5). -/
def ownsUnit (s : State) (n : Nat) : Bool :=
  match (getInst s n).unitNo with
  | none => false
  | some u => s.owner[u.val] == some n

/-- The engine of an instance when the generator is powered down (R275): none of its state survives, so its registers
are free values numbered from `k`, its engine is not enabled (R43, R21), a `SERVICE` loop under way is over. -/
def losePower (k : Nat) (x : Inst) : Inst :=
  { x with
    en := false, dsec := none, mid := false
    shiftDiv := (Config.freeWord k).setWidth 16
    latchDiv := (Config.freeWord (k + 1)).setWidth 16
    dbuf := Config.freeWord (k + 2)
    gate := Config.freeWord (k + 3)
    dlatch := Config.freeWord (k + 4)
    glatch := Config.freeWord (k + 5)
    req := (Config.freeWord (k + 6)).getLsbD 0 }

/-- The generator powers every peripheral unit (R275): every listed instance loses its engine's state. -/
def losePowerAll : Nat → List Inst → List Inst
  | _, [] => []
  | k, x :: l => losePower k x :: losePowerAll (k + 7) l

/-- `ClkgenPowerDown()` (R244, R275). -/
def powerDown (s : State) : State :=
  { s with
    clkgen := .idle, insts := losePowerAll s.freeNo s.insts, freeNo := s.freeNo + 7 * s.insts.length }

/-- The five checks of `INITIALIZE` in their order (R241): the unit to claim, or `none` at the first that fails. -/
def initChecks (s : State) (n : Nat) (unit : Byte) : Option (Fin 2) :=
  if (getInst s n).leds = 0 then none
  else
    match unitOfByte unit with
    | none => none
    | some u =>
      if (getInst s n).initialized then none
      else if s.owner[u.val] ≠ none then none
      else if activeCount s = 0 ∧ s.clkgen ≠ .idle then none
      else some u

/-- An instance after `CONSTRUCT` (R240, R43 third column): the position of the sequencer is `⊥`, that is free values
numbered from `k`, and both views of a newly allocated buffer are `⊥`. DESIGN CHOICE (notes/assumptions/15.md): no word
of that buffer is dirty, of which the spec says nothing. -/
def constructInst (leds : Nat) (cap : Cap) (mode : Mode) (k : Nat) (x : Inst) : Inst :=
  let y : Inst :=
    { x with
      leds := leds, cap := cap, mode := mode
      desc := Vector.replicate 8 ⟨false, ⟨0, 0⟩⟩
      cur := (Config.freeWord k).setWidth 3
      w := ⟨Config.freeWord (k + 1), Config.freeWord (k + 2)⟩
      srcCur := Config.freeWord (k + 3)
      cntRem := (Config.freeWord (k + 4)).setWidth 16
      run := false, irqPend := false, irqAttached := false, mid := false
      activePtr := x.par.base0
      chtype := x.par.chtypeInit
      initialized := false
      unitNo := none
      buf := ⟨[], [], [], k + 1⟩ }
  { y with inactivePtr := base1 y }

end Sys2Proof.Machine
end

