-- ==== Sys2Proof/Machine/Micro.lean ====
section
/-! DEFINITION. The effect of each micro-step, and how the two software agents take them: whole, or one at a time
(00_scope.md R14, R15, 60_exceptions.md R266, R267). -/

namespace Sys2Proof.Machine

open Sys2Proof

/-- What taking a micro-step gives: it is done, it waits (a spin finds its condition false, R244, R200), the machine
stops with a fault, or no rule gives it a meaning. -/
inductive MicroOut where
  | done (s : State)
  | waits
  | faults (f : Fault)
  | refuses (r : Refusal)
deriving DecidableEq, Repr

/-- A micro-step that only writes instance `n`. -/
def onInst (s : State) (n : Nat) (g : Inst → Inst) : MicroOut :=
  .done (setInst s n (g (getInst s n)))

/-- A micro-step on instance `n` that may raise a fault. -/
def onInstE (s : State) (n : Nat) (g : Inst → Except Fault Inst) : MicroOut :=
  match g (getInst s n) with
  | .ok x => .done (setInst s n x)
  | .error e => .faults e

/-- `PTE_ENABLE sd, ld` (R123). -/
def microPteEnable (n : Nat) (sd ld : BitVec 16) (s : State) : MicroOut :=
  if divisorsOk sd ld then onInst s n (enableEngine sd ld) else .refuses .badDivisors

/-- `TDC_BUILD`, record `i` (R152): refused while running or with bad addresses. -/
def microBuildRecord (n : Nat) (i : BitVec 3) (s : State) : MicroOut :=
  if (getInst s n).run then .refuses .chainRunning
  else if !addressesOk (getInst s n) then .refuses .badAddresses
  else onInst s n fun x => writeRecord x i (builtRecord x x.activePtr i)

/-- `TDC_BUILD`, its end (R152, R97, R263): the chain is checked and the interrupt attached. -/
def microBuildEnd (n : Nat) (s : State) : MicroOut :=
  if chainOk (getInst s n) then onInst s n fun x => { x with irqAttached := true } else .refuses .illFormedChain

/-- `TDC_START` (R172). -/
def microTdcStart (n : Nat) (s : State) : MicroOut :=
  if (getInst s n).run then .refuses .chainRunning else onInstE s n startChain

/-- `INITIALIZE` i1 (R243): `INST[unit] <- this instance; UNIT <- unit`. -/
def microClaim (n : Nat) (u : Fin 2) (s : State) : MicroOut :=
  onInst (setOwner s u (some n)) n fun x => { x with unitNo := some u }

/-- `ClkgenPowerUp()` (R244): spins until the generator reports lock, then `CLKGEN <- LOCKED`. -/
def microClkPowerUp (s : State) : MicroOut :=
  if s.lockLine then .done { s with clkgen := .locked } else .waits

/-- `INITIALIZE` i8 (R243): `INITIALIZED <- 1; return true`. -/
def microInitDone (n : Nat) (s : State) : MicroOut :=
  onInst { s with ret := .bool true } n fun x => { x with initialized := true }

/-- `TEARDOWN` t4 (R246): `ClkgenPowerDown` if this is the last active instance. -/
def microClkPowerDown (n : Nat) (s : State) : MicroOut :=
  if ownsUnit s n && activeCount s == 1 then .done (powerDown s) else .done s

/-- `TEARDOWN` t5 (R246): `INST[UNIT] <- none`. -/
def microUnclaim (n : Nat) (s : State) : MicroOut :=
  match (getInst s n).unitNo with
  | none => .done s
  | some u => if ownsUnit s n then .done (setOwner s u none) else .done s

/-- The effect of one micro-step on instance `n`. -/
def runMicro (n : Nat) (m : Micro) (s : State) : MicroOut :=
  match m with
  | .pteEnable sd ld => microPteEnable n sd ld s
  | .pteDisable => onInst s n fun x => { x with en := false }
  | .buildRecord i => microBuildRecord n i s
  | .buildEnd => microBuildEnd n s
  | .tdcStart => microTdcStart n s
  | .runOff => onInst s n fun x => { x with run := false }
  | .detach => onInst s n fun x => { x with irqAttached := false }
  | .flush addr len => onInst s n fun x => { x with buf := flushBuf x.buf addr len }
  | .swapPtrs => onInst s n fun x => { x with activePtr := x.inactivePtr, inactivePtr := x.activePtr }
  | .flushActive => onInst s n fun x => { x with buf := flushBuf x.buf x.activePtr.toNat (4 * frameWords x) }
  | .arm => onInst s n fun x => setArmed x true
  | .spinStopped => if (getInst s n).run then .waits else .done s
  | .setBit a ch b => onInst s n fun x => { x with buf := writeBit x.buf a ch b }
  | .claim u => microClaim n u s
  | .zeroFlush => onInst s n zeroAndFlush
  | .pinsConfigure _ => .done s
  | .clkPowerUp => microClkPowerUp s
  | .initDone => microInitDone n s
  | .pinsRelease => .done s
  | .clkPowerDown => microClkPowerDown n s
  | .unclaim => microUnclaim n s
  | .clearInit => onInst s n fun x => { x with unitNo := none, initialized := false }
  | .disarm => onInst s n fun x => setArmed x false
  | .retarget i => onInst s n fun x => retargetSegment x i
  | .ack => onInst s n ackIrq

/-- What a step of the machine answers. -/
abbrev Step := Host.Outcome State Fault Refusal

/-- `CALL` takes the micro-steps on its list one after another, as far as they go: it stops where one waits, and the
rest is then the operation in progress. -/
def runCall : List (Nat × Micro) → State → Step
  | [], s => .next { s with call := [] }
  | (n, m) :: l, s =>
    match runMicro n m s with
    | .done t => runCall l t
    | .waits => .next { s with call := (n, m) :: l }
    | .faults f => .fault f
    | .refuses r => .refused r

/-- `CALL` takes one micro-step of a list; the rest is the operation in progress. -/
def stepCall : List (Nat × Micro) → State → Step
  | [], s => .next { s with call := [] }
  | (n, m) :: l, s =>
    match runMicro n m s with
    | .done t => .next { t with call := l }
    | .waits => .next { s with call := (n, m) :: l }
    | .faults f => .fault f
    | .refuses r => .refused r

/-- `IRQ` takes the micro-steps on its list one after another. -/
def runIrq : List (Nat × Micro) → State → Step
  | [], s => .next { s with irq := [] }
  | (n, m) :: l, s =>
    match runMicro n m s with
    | .done t => runIrq l t
    | .waits => .next { s with irq := (n, m) :: l }
    | .faults f => .fault f
    | .refuses r => .refused r

/-- `IRQ` takes one micro-step of a list; the rest is the handler run in progress. -/
def stepIrq : List (Nat × Micro) → State → Step
  | [], s => .next { s with irq := [] }
  | (n, m) :: l, s =>
    match runMicro n m s with
    | .done t => .next { t with irq := l }
    | .waits => .next { s with irq := (n, m) :: l }
    | .faults f => .fault f
    | .refuses r => .refused r

/-- Micro-steps of one operation on instance `n`. -/
def micros (n : Nat) (l : List Micro) : List (Nat × Micro) :=
  l.map fun m => (n, m)

/-- `IRQ` takes micro-steps called from inside the handler run in progress, one after another; that run then goes on
where it was. -/
def runNested : List (Nat × Micro) → State → Step
  | [], s => .next s
  | (n, m) :: l, s =>
    match runMicro n m s with
    | .done t => runNested l t
    | .waits => .next { s with irq := (n, m) :: l ++ s.irq }
    | .faults f => .fault f
    | .refuses r => .refused r

/-- `IRQ` takes one micro-step called from inside the handler run in progress; the rest comes before what that run has
left. -/
def stepNested : List (Nat × Micro) → State → Step
  | [], s => .next s
  | (n, m) :: l, s =>
    match runMicro n m s with
    | .done t => .next { t with irq := l ++ t.irq }
    | .waits => .next { s with irq := (n, m) :: l ++ s.irq }
    | .faults f => .fault f
    | .refuses r => .refused r

/-- A host operation of call context is taken up only when no handler run and no other operation is in progress
(R15 (b), (d)). -/
def asCall (s : State) (k : State → Step) : Step :=
  if inHandler s then .refused .heldByHandler
  else if inCall s then .refused .callerBusy
  else k s

/-- A host operation made of micro-steps on the instance of the turn, taken up in the grain of the turn (R15 (a)). -/
def callOp (l : List Micro) (s : State) : Step :=
  asCall s fun s =>
    match s.grain with
    | .whole => runCall (micros s.sel l) s
    | .micro => stepCall (micros s.sel l) s

/-- A colour accessor that answers at once: from interrupt context, inside a handler run, or from call context
("callable from any execution context", R225, R292). DESIGN CHOICE (notes/assumptions/7.md): the two contexts R270 gives
software are the two places it can be called from. -/
def asAccessor (s : State) (k : State → Step) : Step :=
  if inHandler s then k s else asCall s k

/-- A colour accessor made of micro-steps, in the grain of the turn: from interrupt context, inside a handler run, or
from call context (R225, R292). DESIGN CHOICE (notes/assumptions/7.md): one called inside a handler run begins at once,
also where another called there has micro-steps left, which then wait until the later one is done; R15 (d) limits call
context only. -/
def accessorOp (l : List Micro) (s : State) : Step :=
  if inHandler s then
    match s.grain with
    | .whole => runNested (micros s.sel l) s
    | .micro => stepNested (micros s.sel l) s
  else callOp l s

/-- The next micro-step of the operation in progress; none while a handler run is in progress (R15 (b)). -/
def callNext (s : State) : Step :=
  if inHandler s then .next s else stepCall s.call s

/-- The next micro-step of the handler run in progress. -/
def irqNext (s : State) : Step :=
  stepIrq s.irq s

/-- Entry into the handler (R195, R264, R266): the interrupt is enabled and routed and no handler run is in progress;
it changes no state element by itself, and the handler takes its micro-steps in the grain of the turn. -/
def enterHandler (s : State) : Step :=
  if inHandler s then .next s
  else if !irqEnabled (this s) then .next s
  else
    match irqRoute s s.sel with
    | none => .next s
    | some n =>
      match s.grain with
      | .whole => runIrq (micros n (handlerMicros (getInst s n))) s
      | .micro => stepIrq (micros n (handlerMicros (getInst s n))) s

/-- A hardware step of the instance of the turn. -/
def hardware (s : State) (g : Inst → Except Stop Inst) : Step :=
  match g (this s) with
  | .ok x => .next (setThis s x)
  | .error (.fault e) => .fault e
  | .error (.refuse r) => .refused r

/-- A unit transfer of a format D record (R161), taken when `SERVICE` is enabled; not enabled, no step is taken. -/
def unitStep (s : State) (g : Inst → Except Stop Inst) : Step :=
  if serviceEnabled (this s) then hardware s g else .next s

end Sys2Proof.Machine
end

