-- ==== Sys2Proof/Machine/Cache.lean ====
section
/-! DEFINITION. The meanings of the cache's rows (20_memory.md R71, R72). -/

namespace Sys2Proof.Machine

open Sys2Proof

/-- `FLUSH addr, len` (R72). -/
def execFlush (addr len : Word) (s : State) : Step :=
  callOp [.flush addr.toNat len.toNat] s

/-- `WRITEBACK a` (R71), enabled whenever `DIRTY[a] = 1`; not enabled, no step. -/
def execWriteback (a : Word) (s : State) : Step :=
  if a.toNat ∈ (this s).buf.dirty then
    hardware s fun x => .ok { x with buf := writebackBuf x.buf a.toNat }
  else .next s

end Sys2Proof.Machine
end

