-- ==== Sys2Proof/Machine/Chain.lean ====
section
/-! DEFINITION. The meanings of the sequencer's rows (41_descriptor_chain.md R152, R161, R172, R173). -/

namespace Sys2Proof.Machine

open Sys2Proof

/-- The micro-steps of `TDC_BUILD` (R152): all eight records in index order, then the end. -/
def buildMicros : List Micro :=
  [.buildRecord 0, .buildRecord 1, .buildRecord 2, .buildRecord 3, .buildRecord 4, .buildRecord 5, .buildRecord 6,
    .buildRecord 7, .buildEnd]

/-- The micro-steps of `TDC_DISABLE` (R173). -/
def disableMicros : List Micro :=
  [.runOff, .detach]

/-- `TDC_BUILD` (R152). -/
def execTdcBuild (s : State) : Step :=
  callOp buildMicros s

/-- `TDC_START` (R172). -/
def execTdcStart (s : State) : Step :=
  callOp [.tdcStart] s

/-- `TDC_DISABLE` (R173). -/
def execTdcDisable (s : State) : Step :=
  callOp disableMicros s

/-- `SERVICE` (R161); not enabled, no step. -/
def execService (s : State) : Step :=
  if serviceEnabled (this s) then hardware s serviceInst else .next s

end Sys2Proof.Machine
end

