-- ==== Sys2Proof/Machine/Codec.lean ====
section
/-! DEFINITION. The meanings of the codec's rows (43_frame_buffer_codec.md R223, R225 to R230). -/

namespace Sys2Proof.Machine

open Sys2Proof

/-- The type `SET_CHANNEL_TYPE ch, t` assigns, and to which channel: a channel `0..31`, a type, and four channels only
under that capacity; `none` is one of the silent no-ops of R223. -/
def channelTypeTarget (x : Inst) (ch t : Byte) : Option (Fin 32 × ChType) :=
  if h : ch.toNat < 32 then
    match chTypeOfByte t with
    | none => none
    | some ty => if ty = .four ∧ x.cap = .three then none else some (⟨ch.toNat, h⟩, ty)
  else none

/-- `CHTYPE[c] <- t`. -/
def writeChannelType (c : Fin 32) (t : ChType) (x : Inst) : Inst :=
  { x with chtype := x.chtype.set c.val t }

/-- `SET_CHANNEL_TYPE ch, t` (R223). -/
def execSetChannelType (ch t : Byte) (s : State) : Step :=
  asCall s fun s =>
    match channelTypeTarget (this s) ch t with
    | none => .next s
    | some (c, ty) => .next (setThis s (writeChannelType c ty (this s)))

/-- The micro-steps of `setChannelColor(buf, ch, idx, col)` (R225): none where the bounds are violated. -/
def setColorMicros (x : Inst) (buf : Word) (ch : Byte) (idx col : Word) : List Micro :=
  match colorTarget x ch idx with
  | none => []
  | some (c, w) => colorMicros buf c.val w idx.toNat col

/-- `getChannelColor(buf, ch, idx)` (R226): 0 where the bounds are violated. -/
def getColor (x : Inst) (buf : Word) (ch : Byte) (idx : Word) : Word :=
  match colorTarget x ch idx with
  | none => 0
  | some (c, w) => gatherColor x.buf buf c.val w idx.toNat

/-- `SET_ACTIVE_COLOR ch, idx, col` (R227). -/
def execSetActiveColor (ch : Byte) (idx col : Word) (s : State) : Step :=
  accessorOp (setColorMicros (this s) (this s).activePtr ch idx col) s

/-- `SET_INACTIVE_COLOR ch, idx, col` (R228). -/
def execSetInactiveColor (ch : Byte) (idx col : Word) (s : State) : Step :=
  accessorOp (setColorMicros (this s) (this s).inactivePtr ch idx col) s

/-- `GET_ACTIVE_COLOR ch, idx` (R229). -/
def execGetActiveColor (ch : Byte) (idx : Word) (s : State) : Step :=
  asAccessor s fun s => .next { s with ret := .color (getColor (this s) (this s).activePtr ch idx) }

/-- `GET_INACTIVE_COLOR ch, idx` (R230). -/
def execGetInactiveColor (ch : Byte) (idx : Word) (s : State) : Step :=
  asAccessor s fun s => .next { s with ret := .color (getColor (this s) (this s).inactivePtr ch idx) }

end Sys2Proof.Machine
end

