-- ==== Sys2Proof/Machine/Descriptors.lean ====
section
/-! DEFINITION. The meanings of the format D rows: executing a loaded record is one pass of the loop of `SERVICE`
(41_descriptor_chain.md R161, R165 to R169; 30_encoding.md R98 for the reserved kinds). -/

namespace Sys2Proof.Machine

open Sys2Proof

/-- `PRIME` (R165). -/
def execPrime (f : Fields) (s : State) : Step :=
  unitStep s (primeTransfer f)

/-- `GATEHI` (R166). -/
def execGateHi (f : Fields) (s : State) : Step :=
  unitStep s (gateHiTransfer f)

/-- `DATA` (R167). -/
def execData (f : Fields) (s : State) : Step :=
  unitStep s (dataTransfer f)

/-- `CLOSE` (R168). -/
def execClose (f : Fields) (s : State) : Step :=
  unitStep s (closeTransfer f)

/-- `GAP` (R169). -/
def execGap (f : Fields) (s : State) : Step :=
  unitStep s (gapTransfer f)

/-- `RESERVED_KIND5` (R98): illegal, whatever its other bits. Like every record it runs only where `SERVICE` is enabled
(R14): `takeTurn` gives it no turn elsewhere. -/
def execReservedKind5 (_f : Fields) (s : State) : Step :=
  .fault (.reservedDescriptor (this s).cur)

/-- `RESERVED_KIND6` (R98): illegal, whatever its other bits. Like every record it runs only where `SERVICE` is enabled
(R14): `takeTurn` gives it no turn elsewhere. -/
def execReservedKind6 (_f : Fields) (s : State) : Step :=
  .fault (.reservedDescriptor (this s).cur)

/-- `RESERVED_KIND7` (R98): illegal, whatever its other bits. Like every record it runs only where `SERVICE` is enabled
(R14): `takeTurn` gives it no turn elsewhere. -/
def execReservedKind7 (_f : Fields) (s : State) : Step :=
  .fault (.reservedDescriptor (this s).cur)

end Sys2Proof.Machine
end

