-- ==== Sys2Proof/Machine/Engine.lean ====
section
/-! DEFINITION. The meanings of the Protocol Timing Engine's rows (40_timing_engine.md R123, R124, R126). -/

namespace Sys2Proof.Machine

open Sys2Proof

/-- `PTE_ENABLE sd, ld` (R123). -/
def execPteEnable (sd ld : BitVec 16) (s : State) : Step :=
  callOp [.pteEnable sd ld] s

/-- `PTE_DISABLE` (R124). -/
def execPteDisable (s : State) : Step :=
  callOp [.pteDisable] s

/-- `LATCH` (R126); not enabled, no step and no slot (T68, R275). -/
def execLatch (s : State) : Step :=
  if latchEnabled s.clkgen (this s) then hardware s fun x => .ok (latchInst x) else .next s

end Sys2Proof.Machine
end

