-- ==== Sys2Proof/Machine/Lifecycle.lean ====
section
/-! DEFINITION. The meanings of the lifecycle's rows (44_lifecycle.md R240 to R248). -/

namespace Sys2Proof.Machine

open Sys2Proof

/-- `CHTYPE_INIT` obeys R222 under a capacity (R8). -/
def chTypesOk (cap : Cap) (l : Vector ChType 32) : Bool :=
  cap == .four || l.toList.all fun t => t != .four

/-- `CONSTRUCT leds, cap, mode` (R240). DESIGN CHOICE (notes/assumptions/26.md): R240 lists no micro-steps, and the
operation is one in either grain. -/
def execConstruct (leds : Word) (cap : Cap) (mode : Mode) (s : State) : Step :=
  asCall s fun s =>
    if 0 < leds.toNat ∧ 4 < segments (leds.toNat * depthOf cap) (this s).par then .refused .tooManyDescriptors
    else if !chTypesOk cap (this s).par.chtypeInit then .refused .badChannelTypes
    else
      .next
        { setThis s (constructInst leds.toNat cap mode s.freeNo (this s)) with
          freeNo := s.freeNo + 5 }

/-- The micro-steps of `INITIALIZE` once its checks pass (R243), `u` the unit claimed. -/
def initMicros (s : State) (u : Fin 2) (p : Pins) : List Micro :=
  [.claim u, .zeroFlush, .pinsConfigure p]
    ++ (if activeCount s = 0 then [.clkPowerUp] else [])
    ++ [.pteEnable (this s).par.shiftDiv (this s).par.latchDiv]
    ++ buildMicros
    ++ (if (this s).mode = .paced then [] else [.tdcStart])
    ++ [.initDone]

/-- `INITIALIZE unit, pins` (R241 to R243): the first check that fails ends the call with the result `false`. -/
def execInitialise (unit : Byte) (p : Pins) (s : State) : Step :=
  asCall s fun s =>
    match initChecks s s.sel unit with
    | none => .next { s with ret := .bool false }
    | some u => callOp (initMicros s u p) s

/-- The micro-steps of `TEARDOWN` (R246): t1 to t6. DESIGN CHOICE (notes/assumptions/35.md): none of them touches the
frame buffer, whose release the source does not describe. -/
def teardownMicros : List Micro :=
  disableMicros ++ [.pteDisable, .pinsRelease, .clkPowerDown, .unclaim, .clearInit]

/-- `TEARDOWN` (R246). -/
def execTeardown (s : State) : Step :=
  callOp teardownMicros s

end Sys2Proof.Machine
end

