-- ==== Sys2Proof/Machine/Swap.lean ====
section
/-! DEFINITION. The meanings of the Swap Synchronizer's rows (42_swap_synchronizer.md R190 to R201). -/

namespace Sys2Proof.Machine

open Sys2Proof

/-- The micro-steps of `REQUEST_SWAP` (R191): s1, s2, s3. -/
def swapMicros : List Micro :=
  [.swapPtrs, .flushActive, .arm]

/-- `REQUEST_SWAP` (R190, R191). -/
def execRequestSwap (s : State) : Step :=
  asCall s fun s =>
    match (this s).mode with
    | .double => callOp swapMicros s
    | .paced => .refused .notDoubleBuffered
    | .free => .refused .notDoubleBuffered

/-- `IRQ_HANDLER` (R195), entered as R264 and R266 say; not enabled, no step. -/
def execIrqHandler (s : State) : Step :=
  enterHandler s

/-- `BUFFER_READY` (R198): a query, no side effect but its answer. -/
def execBufferReady (s : State) : Step :=
  asCall s fun s => .next { s with ret := .bool (bufferReady (this s)) }

/-- The micro-steps of `FLIP_BUFFERS` by mode (R103, R199, R200). -/
def flipMicros (x : Inst) : List Micro :=
  match x.mode with
  | .double => swapMicros
  | .free => [.flush x.par.base0.toNat (bufBytes x)]
  | .paced => [.flush x.par.base0.toNat (bufBytes x), .spinStopped, .tdcStart]

/-- `FLIP_BUFFERS` (R199, R200). -/
def execFlipBuffers (s : State) : Step :=
  callOp (flipMicros (this s)) s

/-- `FLUSH_BUFFER` (R201): `FLIP_BUFFERS` in every mode. -/
def execFlushBuffer (s : State) : Step :=
  callOp (flipMicros (this s)) s

end Sys2Proof.Machine
end

