-- ==== Sys2Proof/Machine/Dispatch.lean ====
section
/-! DEFINITION. The meaning of every row of spec/opcode_table.json, one arm per constructor. -/

namespace Sys2Proof.Machine

open Sys2Proof

def exec (i : Instr) (s : State) : Host.Outcome State Fault Refusal :=
  match i with
  | .prime f => Sys2Proof.Machine.execPrime f s
  | .gateHi f => Sys2Proof.Machine.execGateHi f s
  | .data f => Sys2Proof.Machine.execData f s
  | .close f => Sys2Proof.Machine.execClose f s
  | .gap f => Sys2Proof.Machine.execGap f s
  | .reservedKind5 f => Sys2Proof.Machine.execReservedKind5 f s
  | .reservedKind6 f => Sys2Proof.Machine.execReservedKind6 f s
  | .reservedKind7 f => Sys2Proof.Machine.execReservedKind7 f s
  | .pteEnable sd ld => Sys2Proof.Machine.execPteEnable sd ld s
  | .pteDisable => Sys2Proof.Machine.execPteDisable s
  | .tdcBuild => Sys2Proof.Machine.execTdcBuild s
  | .tdcStart => Sys2Proof.Machine.execTdcStart s
  | .tdcDisable => Sys2Proof.Machine.execTdcDisable s
  | .flush addr len => Sys2Proof.Machine.execFlush addr len s
  | .requestSwap => Sys2Proof.Machine.execRequestSwap s
  | .irqHandler => Sys2Proof.Machine.execIrqHandler s
  | .bufferReady => Sys2Proof.Machine.execBufferReady s
  | .flipBuffers => Sys2Proof.Machine.execFlipBuffers s
  | .flushBuffer => Sys2Proof.Machine.execFlushBuffer s
  | .setChannelType ch t => Sys2Proof.Machine.execSetChannelType ch t s
  | .setActiveColor ch idx col => Sys2Proof.Machine.execSetActiveColor ch idx col s
  | .setInactiveColor ch idx col => Sys2Proof.Machine.execSetInactiveColor ch idx col s
  | .getActiveColor ch idx => Sys2Proof.Machine.execGetActiveColor ch idx s
  | .getInactiveColor ch idx => Sys2Proof.Machine.execGetInactiveColor ch idx s
  | .construct leds cap mode => Sys2Proof.Machine.execConstruct leds cap mode s
  | .initialise unit pins => Sys2Proof.Machine.execInitialise unit pins s
  | .teardown => Sys2Proof.Machine.execTeardown s
  | .latch => Sys2Proof.Machine.execLatch s
  | .service => Sys2Proof.Machine.execService s
  | .writeback a => Sys2Proof.Machine.execWriteback a s

end Sys2Proof.Machine
end

