-- ==== Sys2Proof/Machine/Fetch.lean ====
section
/-! DEFINITION. Fetching: the turn that comes next (00_scope.md R14, V13), the instruction a turn is, the loaded
record as the sequencer's next instruction (20_memory.md R75), and placing a row's word where the next step fetches. -/

namespace Sys2Proof.Machine

open Sys2Proof

/-- The turn that comes next, and the state once it is taken off: the head of the spelled-out schedule, or a free turn
when there is none left (V13). -/
def nextTurn (s : State) : Turn × State :=
  match s.sched with
  | t :: l => (t, { s with sched := l })
  | [] => (Config.freeTurn s.turnNo, { s with turnNo := s.turnNo + 1 })

/-- The state in which an operation of instance `n` is executed. -/
def select (n : Nat) (g : Grain) (s : State) : State :=
  { s with sel := n, grain := g }

/-- The instruction the sequencer of instance `n` runs next: its loaded record (R75, R160, R161). -/
def loadedInstr (s : State) (n : Nat) : Instr :=
  decodeRecord (getInst s n).w

/-- Whether a turn goes on with the `SERVICE` step of an instance that no other agent can come into now, or is no agent's
step at all (the lock report is an input). -/
def ownPass (t : Turn) (s : State) : Bool :=
  match t with
  | .op n _ code =>
    passBound (getInst s n)
      && (match decodeLine code with
        | .ok i => i == .service
        | .error _ => false)
  | .unit n => passBound (getInst s n)
  | .callNext => false
  | .irqNext => false
  | .lockLine _ => true

/-- A turn that may not come: some `TDC` is between `PRIME` and `GATEHI` (R302) or between `CLOSE` and the first gap zero
(R131 (c)), and the turn is another agent's. -/
def turnHeld (t : Turn) (s : State) : Bool :=
  s.insts.any passBound && !ownPass t s

/-- The index a record of a kind has in the chain (R97 (a)). -/
def indexOfKind : Kind → BitVec 3
  | .prime => 0
  | .gateHi => 1
  | .data => 2
  | .close => 6
  | .gap => 7
  | .reserved5 => 0
  | .reserved6 => 0
  | .reserved7 => 0

/-- An instance in which a record is the loaded one, as `Load` leaves it (R160), and `SERVICE` is enabled (R14). -/
def placeRecord (d : Desc) (x : Inst) : Inst :=
  { x with
    cur := indexOfKind (kindOf d), w := d, srcCur := d.src, cntRem := (fieldsOf d).count
    en := true, req := true, run := true }

/-- No `SERVICE` loop is under way in any instance, so that no turn is held. -/
def releaseTurns (s : State) : State :=
  { s with insts := s.insts.map fun x => { x with mid := false } }

/-- An encoded instruction placed where the next step fetches: an operation at the head of the schedule; a record as
the loaded one of instance 0, with that instance's unit transfer at the head of the schedule. -/
def placeCode (c : Code) (s : State) : State :=
  let s := releaseTurns s
  match c with
  | .op bytes => { s with sched := .op 0 .whole bytes :: s.sched }
  | .record d => { setInst s 0 (placeRecord d (getInst s 0)) with sched := .unit 0 :: s.sched }

end Sys2Proof.Machine
end

