-- ==== Sys2Proof/Machine/Step.lean ====
section
/-! DEFINITION. One step of the machine: the agent whose turn it is moves (00_scope.md R14, R15). -/

namespace Sys2Proof.Machine

open Sys2Proof

/-- One turn: no step where another agent's `SERVICE` step holds it (R302, R131 (c)), and no unit transfer where `SERVICE` is not
enabled (R14). -/
def takeTurn (t : Turn) (s : State) : Host.Outcome State Fault Refusal :=
  if turnHeld t s then .next s
  else
    match t with
    | .op n g code =>
      match decodeLine code with
      | .ok i => exec i (select n g s)
      | .error e => .refused (.undecodable e)
    | .unit n => if serviceEnabled (getInst s n) then exec (loadedInstr s n) (select n .whole s) else .next s
    | .callNext => callNext s
    | .irqNext => irqNext s
    | .lockLine b => .next { s with lockLine := b }

/-- One step of the machine. -/
def step (s : State) : Host.Outcome State Fault Refusal :=
  takeTurn (nextTurn s).1 (nextTurn s).2

/-- A row's word placed where the next step fetches its instruction. -/
def State.withFetchWord (s : State) (nbits w : Nat) : State :=
  placeCode (tableCode nbits w) s

end Sys2Proof.Machine
end

