-- ==== Sys2Proof/Safety.lean ====
section
/-! DEFINITION. What claims about runs are stated with: recorded faults and the end of a run (00_scope.md R16 to R18),
the two timing premises (70_reset_and_hazards.md R300, R301), the canonical form of a state's memories, what a flush and a
colour write leave, and the conditions under which a chain can be built or a record loaded. -/

namespace Sys2Proof.Machine

open Sys2Proof

/-- No fault has been recorded on instance `n` (R18). -/
def clean (s : State) (n : Nat) : Prop :=
  (getInst s n).faults = []

/-- The chain stands where the completion of a stopping `FRAME_GAP` leaves it (R17, R169 (a)): the channel disabled, the
position at the gap record with no zero left. Before the first trigger after a construction the position is a free
value (notes/assumptions/15.md). -/
def gapCompleted (x : Inst) : Prop :=
  x.run = false ∧ x.cur = 7 ∧ x.cntRem = 0 ∧ kindOf x.w = .gap ∧ (fieldsOf x.w).dstop = true ∧ (descAt x 7).known = true

/-- The end of a run of instance `n` (R17): paced, `STOPPED` after the `FRAME_GAP` descriptor completed, and final, that
is with no recorded fault (R16). -/
def finished (s : State) (n : Nat) : Prop :=
  (getInst s n).mode = .paced ∧ gapCompleted (getInst s n) ∧ clean s n

/-- The step at which a run of instance `n` ends (R17). -/
def Ends (s t : State) (n : Nat) : Prop :=
  step s = .next t ∧ (getInst s n).run = true ∧ finished t n

/-- Whether a turn is the step `i` of instance `n`. -/
def turnIs (t : Turn) (n : Nat) (i : Instr) : Bool :=
  match t with
  | .op m _ code =>
    match decodeLine code with
    | .ok j => m == n && j == i
    | .error _ => false
  | .unit _ => false
  | .callNext => false
  | .irqNext => false
  | .lockLine _ => false

/-- The instance whose handler the event of instance `k` enters, said of `UNIT` and `INST` (R264): the owner of its unit;
the handler of an instance with no unit is its own, which is the model's choice (notes/assumptions/20.md). -/
def routed (s : State) (k n : Nat) : Prop :=
  (∃ u, (getInst s k).unitNo = some u ∧ s.owner[u.val] = some n) ∨ ((getInst s k).unitNo = none ∧ n = k)

/-- The `SERVICE` loop of an instance is under way and goes on with `GATEHI` after `PRIME`, or with the gap after `CLOSE`:
the two places inside one `SERVICE` step where no other agent can come (R302, R131 (c)). -/
def InsideStep (x : Inst) : Prop :=
  x.mid = true ∧ x.en = true ∧ x.req = true ∧ x.run = true ∧ (kindOf x.w = .gateHi ∨ kindOf x.w = .gap)

/-- A turn that goes on with such a `SERVICE` step: a unit transfer or a `SERVICE` of its own instance; or a change of the
lock report, which is no agent's step. -/
def GoesOn (t : Turn) (s : State) : Prop :=
  match t with
  | .op n _ code => decodeLine code = .ok .service ∧ InsideStep (getInst s n)
  | .unit n => InsideStep (getInst s n)
  | .callNext => False
  | .irqNext => False
  | .lockLine _ => True

/-- A turn that would come inside another agent's `SERVICE` step where none can come. -/
def HeldTurn (t : Turn) (s : State) : Prop :=
  (∃ x ∈ s.insts, InsideStep x) ∧ ¬GoesOn t s

/-- `PROMPT_SERVICE` at one state (R300): the next step is not a `LATCH` of instance `n` while its `SERVICE` is
enabled. A line that takes no step is no step. -/
def PromptAt (n : Nat) (s : State) : Prop :=
  turnIs (nextTurn s).1 n .latch = true → turnHeld (nextTurn s).1 s = false →
    latchEnabled s.clkgen (getInst s n) = true → serviceEnabled (getInst s n) = false

/-- `HANDLER_DEADLINE` at one state (R301): the first `SERVICE` step of a cycle of instance `n` does not come while the
interrupt of `n` waits for its handler or that handler has a micro-step of its own left. A line that takes no step is no
step, and the handler of another instance does not matter. -/
def DeadlineAt (n : Nat) (s : State) : Prop :=
  (turnIs (nextTurn s).1 n .service = true ∨ (nextTurn s).1 = .unit n) → turnHeld (nextTurn s).1 s = false →
    serviceEnabled (getInst s n) = true → (getInst s n).cur = 0 →
    ∀ m, routed s n m →
      irqEnabled (getInst s n) = false ∧ ∀ e ∈ s.irq, e.1 = m → e.2 ∉ handlerMicros (getInst s m)

/-- A property of every state of a run of `k` steps (premises R300 and R301 are claimed along runs). -/
def Along (P : State → Prop) : Nat → State → Prop
  | 0, s => P s
  | k + 1, s =>
    P s ∧
      match step s with
      | .next t => Along P k t
      | .fault _ => True
      | .refused _ => True

/-- `y` is `x` but for what the sequencer may write (R20, R270): the three DMA-writable registers, the request, its own
position, `TDC.RUN` and the pending flag. -/
def SequencerOnly (x y : Inst) : Prop :=
  y = { x with
    dbuf := y.dbuf, dsec := y.dsec, gate := y.gate, req := y.req, cur := y.cur, w := y.w, srcCur := y.srcCur,
    cntRem := y.cntRem, run := y.run, irqPend := y.irqPend, mid := y.mid }

/-- Every instance's frame buffer is in canonical form. -/
def memoryCanonical (s : State) : Bool :=
  s.insts.all fun x => x.buf.wf

/-- Nothing is in progress in either software agent: the condition under which a host operation is taken up (R15). -/
def idle (s : State) : Prop :=
  s.call = [] ∧ s.irq = []

/-- A host operation: every row of format H but the handler (R99, R100). -/
def isHostCall : Instr → Bool
  | .pteEnable _ _ => true
  | .pteDisable => true
  | .tdcBuild => true
  | .tdcStart => true
  | .tdcDisable => true
  | .flush _ _ => true
  | .requestSwap => true
  | .irqHandler => false
  | .bufferReady => true
  | .flipBuffers => true
  | .flushBuffer => true
  | .setChannelType _ _ => true
  | .setActiveColor _ _ _ => true
  | .setInactiveColor _ _ _ => true
  | .getActiveColor _ _ => true
  | .getInactiveColor _ _ => true
  | .construct _ _ _ => true
  | .initialise _ _ => true
  | .teardown => true
  | .prime _ => false
  | .gateHi _ => false
  | .data _ => false
  | .close _ => false
  | .gap _ => false
  | .reservedKind5 _ => false
  | .reservedKind6 _ => false
  | .reservedKind7 _ => false
  | .latch => false
  | .service => false
  | .writeback _ => false

/-- The four colour accessors, callable from any execution context (R225, R292). -/
def isAccessor : Instr → Bool
  | .setActiveColor _ _ _ => true
  | .setInactiveColor _ _ _ => true
  | .getActiveColor _ _ => true
  | .getInactiveColor _ _ => true
  | .pteEnable _ _ => false
  | .pteDisable => false
  | .tdcBuild => false
  | .tdcStart => false
  | .tdcDisable => false
  | .flush _ _ => false
  | .requestSwap => false
  | .irqHandler => false
  | .bufferReady => false
  | .flipBuffers => false
  | .flushBuffer => false
  | .setChannelType _ _ => false
  | .construct _ _ _ => false
  | .initialise _ _ => false
  | .teardown => false
  | .prime _ => false
  | .gateHi _ => false
  | .data _ => false
  | .close _ => false
  | .gap _ => false
  | .reservedKind5 _ => false
  | .reservedKind6 _ => false
  | .reservedKind7 _ => false
  | .latch => false
  | .service => false
  | .writeback _ => false

/-- A colour accessor can be called: from inside a handler run, or from call context with no operation in progress
(R15 (b), (d), R225). -/
def canAccess (s : State) : Prop :=
  s.irq ≠ [] ∨ s.call = []

/-- `y` is `x` after the generator that powers its engine was powered down (R275): disabled, the registers of the engine
without known content, everything else as before. -/
def EngineLost (x y : Inst) : Prop :=
  y = { x with
    en := false, dsec := none, mid := false, shiftDiv := y.shiftDiv, latchDiv := y.latchDiv, dbuf := y.dbuf
    gate := y.gate, dlatch := y.dlatch, glatch := y.glatch, req := y.req }

/-- A step the hardware takes by itself: a record's unit transfer, `SERVICE`, `LATCH` (R14, R99). -/
def isHardwareStep (i : Instr) : Bool :=
  match i with
  | .prime _ => true
  | .gateHi _ => true
  | .data _ => true
  | .close _ => true
  | .gap _ => true
  | .latch => true
  | .service => true
  | .writeback _ => false
  | .irqHandler => false
  | .reservedKind5 _ => false
  | .reservedKind6 _ => false
  | .reservedKind7 _ => false
  | .pteEnable _ _ => false
  | .pteDisable => false
  | .tdcBuild => false
  | .tdcStart => false
  | .tdcDisable => false
  | .flush _ _ => false
  | .requestSwap => false
  | .bufferReady => false
  | .flipBuffers => false
  | .flushBuffer => false
  | .setChannelType _ _ => false
  | .setActiveColor _ _ _ => false
  | .setInactiveColor _ _ _ => false
  | .getActiveColor _ _ => false
  | .getInactiveColor _ _ => false
  | .construct _ _ _ => false
  | .initialise _ _ => false
  | .teardown => false

/-- A host operation taken up whole (R15): nothing in progress, and the turn's grain is the whole operation. -/
def idleWhole (s : State) : Prop :=
  idle s ∧ s.grain = .whole

/-- A record `Load` accepts (R160). -/
def loadable (e : Entry) : Prop :=
  e.known = true ∧ kindOf e.body ≠ .reserved5 ∧ kindOf e.body ≠ .reserved6 ∧ kindOf e.body ≠ .reserved7
    ∧ (fieldsOf e.body).reservedBits = false ∧ e.body.src.toNat % 4 = 0

/-- `k` turns of `CALL` one after another (R15 (a)). -/
def callTurns : Nat → State → Step
  | 0, s => .next s
  | k + 1, s =>
    match callNext s with
    | .next t => callTurns k t
    | .fault e => .fault e
    | .refused r => .refused r

/-- `k` turns of `IRQ` one after another (R15 (a), (b)). -/
def irqTurns : Nat → State → Step
  | 0, s => .next s
  | k + 1, s =>
    match irqNext s with
    | .next t => irqTurns k t
    | .fault e => .fault e
    | .refused r => .refused r

/-- A record of kind `k` with fields `f` stands at its place in the chain: the kind is that of the index `TDC.CUR`
(R97 (a)), the fields are those of R95, written out. -/
def CanonicalAt (k : Kind) (f : Fields) (x : Inst) : Prop :=
  match k with
  | .prime => x.cur = 0 ∧ f = ⟨x.par.zeroAddr, 1, false, false, false, 1, 0, 1⟩
  | .gateHi => x.cur = 1 ∧ f = ⟨x.par.onesAddr, 2, false, false, false, 2, 0, 1⟩
  | .data =>
    ∃ i, i < 4 ∧ i < nData x ∧ x.cur.toNat = 2 + i ∧ isFrameWord x f.src.toNat = true ∧
      1 ≤ f.count.toNat ∧ f.count.toNat ≤ x.par.maxXfer.toNat ∧
      f = ⟨f.src, 0, true, false, false, if i + 1 < nData x then BitVec.ofNat 3 (3 + i) else 6, 0, f.count⟩
  | .close => x.cur = 6 ∧ f = ⟨x.par.zeroAddr, 2, false, f.inten, false, 7, 0, 1⟩
  | .gap => x.cur = 7 ∧ f = ⟨x.par.zeroAddr, 0, false, false, decide (x.mode = .paced), 0, 0, x.par.gapCount⟩
  | .reserved5 => False
  | .reserved6 => False
  | .reserved7 => False

/-- The `TEARDOWN` of the instance of the turn powers the generator down: it owns its unit, and no other instance is
active (R246 t4). -/
def PowersDown (s : State) : Prop :=
  activeCount s = 1 ∧ ∃ u, (this s).unitNo = some u ∧ s.owner[u.val] = some s.sel

/-- `b'` is `b` after `Flush(addr, len)` (R72), said of every address. -/
def FlushedOver (b b' : Buffer) (addr len : Nat) : Prop :=
  ∀ k,
    hostRead b' k = hostRead b k
      ∧ dmaRead b' k
          = (if k ∈ b.dirty ∧ addr ≤ k ∧ k < addr + len ∧ k % 4 = 0 then hostRead b k else dmaRead b k)
      ∧ (k ∈ b'.dirty ↔ k ∈ b.dirty ∧ ¬(addr ≤ k ∧ k < addr + len ∧ k % 4 = 0))

/-- `b'` is `b` after a colour was written for channel `ch` of width `w`, LED `n`, in the half at `half` (R224, R225),
said of every address. -/
def ColorStored (b b' : Buffer) (half : Word) (ch w n : Nat) (col : Word) : Prop :=
  (∀ j, j < w → ∀ c, c < 32 →
      (hostRead b' (colorAddr half w n j).toNat).getLsbD c
        = if c = ch then col.getLsbD (w - 1 - j) else (hostRead b (colorAddr half w n j).toNat).getLsbD c)
    ∧ (∀ k, (∀ j, j < w → k ≠ (colorAddr half w n j).toNat) → hostRead b' k = hostRead b k)
    ∧ (∀ k, dmaRead b' k = dmaRead b k)
    ∧ ∀ k, k ∈ b'.dirty ↔ k ∈ b.dirty ∨ ∃ j, j < w ∧ k = (colorAddr half w n j).toNat

/-- What `TDC_BUILD` asks of an instance (R152, R97, R67) but for the constant words. -/
def buildable (x : Inst) : Prop :=
  x.run = false ∧ addressesOk x = true ∧ 1 ≤ x.par.gapCount.toNat ∧ 1 ≤ nData x ∧ nData x ≤ 4
    ∧ (x.activePtr = x.par.base0 ∨ x.activePtr = base1 x)

/-- Whether one of the five checks of `INITIALIZE unit` fails (R241). -/
def initRejected (s : State) (unit : Byte) : Prop :=
  (this s).leds = 0 ∨ 2 ≤ unit.toNat ∨ (this s).initialized = true
    ∨ (∃ u : Fin 2, u.val = unit.toNat ∧ s.owner[u.val] ≠ none)
    ∨ (activeCount s = 0 ∧ s.clkgen ≠ .idle)

/-- The pointer pair names the two halves (R35). -/
def pointersOk (x : Inst) : Prop :=
  (x.activePtr = x.par.base0 ∧ x.inactivePtr = base1 x) ∨ (x.activePtr = base1 x ∧ x.inactivePtr = x.par.base0)

/-- Four channels only under that capacity (R222), and at most four data descriptors (R151). -/
def configOk (x : Inst) : Prop :=
  (∀ c : Fin 32, chTypeAt x c = .four → x.cap = .four) ∧ nData x ≤ 4

/-- Only the record of index 6 may carry the interrupt bit, only that of index 7 the stop bit (R34). -/
def flagBitsOk (x : Inst) : Prop :=
  ∀ i : BitVec 3,
    (i ≠ 6 → (fieldsOf (descAt x i).body).inten = false) ∧ (i ≠ 7 → (fieldsOf (descAt x i).body).dstop = false)

end Sys2Proof.Machine
end

