-- ==== Sys2Proof/Certificates/Slice0/Obligations.lean ====
section
/-! DEFINITION. The statements for the provers, in the order of spec/: encoding, the step, the timing engine, the
sequencer, the cache, the swap synchronizer, the codec, the lifecycle, and what holds of every step. -/

open Sys2Proof Sys2Proof.Machine

/-! Encoding (30_encoding.md) -/

/-- Decoding an encoded instruction gives it back, every instruction with every value of its operands, and what
follows an operation's bytes is left alone. -/
def Obligations.EncodeDecodeAgree : Prop :=
  ∀ i : Instr,
    match encode i with
    | .record d => decodeRecord d = i
    | .op bytes => ∀ rest, decode (bytes ++ rest) = .ok (i, rest)

/-- The arithmetic of `CTRL` (R91): the word is the sum of its fields at their places, with the reserved bits at 11. -/
def Obligations.ControlWordLayout : Prop :=
  ∀ (k : Kind) (f : Fields),
    (encodeRecord k f).src = f.src ∧
    (encodeRecord k f).ctrl.toNat
      = (bitsOfKind k).toNat + 2 ^ 3 * f.dst.toNat + 2 ^ 5 * f.sadv.toNat + 2 ^ 6 * f.inten.toNat
        + 2 ^ 7 * f.dstop.toNat + 2 ^ 8 * f.next.toNat + 2 ^ 11 * f.rsvd.toNat + 2 ^ 16 * f.count.toNat

/-- The example encodings of R96, each word decoded to its record. -/
def Obligations.SpecWordsDecode : Prop :=
  ∀ src : Word,
    decodeRecord ⟨src, 0x00010108⟩ = .prime ⟨src, 1, false, false, false, 1, 0, 1⟩ ∧
    decodeRecord ⟨src, 0x00010211⟩ = .gateHi ⟨src, 2, false, false, false, 2, 0, 1⟩ ∧
    decodeRecord ⟨src, 0x00010713⟩ = .close ⟨src, 2, false, false, false, 7, 0, 1⟩ ∧
    decodeRecord ⟨src, 0x00010753⟩ = .close ⟨src, 2, false, true, false, 7, 0, 1⟩ ∧
    decodeRecord ⟨src, 0x00F00004⟩ = .gap ⟨src, 0, false, false, false, 0, 0, 240⟩ ∧
    decodeRecord ⟨src, 0x00F00084⟩ = .gap ⟨src, 0, false, false, true, 0, 0, 240⟩ ∧
    decodeRecord ⟨src, 0x00480622⟩ = .data ⟨src, 0, true, false, false, 6, 0, 72⟩

/-- The operation numbers of R100; any other first byte is no operation. The operand bytes are the model's
(notes/assumptions/23.md). -/
def Obligations.OperationNumbersDecode : Prop :=
  decodeLine [0x01, 2, 0, 64, 0] = .ok (.pteEnable 2 64) ∧
  decodeLine [0x02] = .ok .pteDisable ∧
  decodeLine [0x03] = .ok .tdcBuild ∧
  decodeLine [0x04] = .ok .tdcStart ∧
  decodeLine [0x05] = .ok .tdcDisable ∧
  decodeLine [0x06, 0, 0, 0x20, 0x20, 0x20, 1, 0, 0] = .ok (.flush 0x20200000 0x120) ∧
  decodeLine [0x07] = .ok .requestSwap ∧
  decodeLine [0x08] = .ok .irqHandler ∧
  decodeLine [0x09] = .ok .bufferReady ∧
  decodeLine [0x0A] = .ok .flipBuffers ∧
  decodeLine [0x0B] = .ok .flushBuffer ∧
  decodeLine [0x0C, 5, 2] = .ok (.setChannelType 5 2) ∧
  decodeLine [0x0D, 0, 1, 0, 0, 0, 0xF0, 0xC3, 0xA5, 0] = .ok (.setActiveColor 0 1 0x00A5C3F0) ∧
  decodeLine [0x0E, 0, 1, 0, 0, 0, 0xF0, 0xC3, 0xA5, 0] = .ok (.setInactiveColor 0 1 0x00A5C3F0) ∧
  decodeLine [0x0F, 31, 2, 0, 0, 0] = .ok (.getActiveColor 31 2) ∧
  decodeLine [0x10, 31, 2, 0, 0, 0] = .ok (.getInactiveColor 31 2) ∧
  decodeLine [0x11, 3, 0, 0, 0, 0, 2] = .ok (.construct 3 .three .double) ∧
  decodeLine [0x12, 1, 7, 8, 9] = .ok (.initialise 1 ⟨7, 8, 9⟩) ∧
  decodeLine [0x13] = .ok .teardown ∧
  decodeLine [0x20] = .ok .latch ∧
  decodeLine [0x21] = .ok .service ∧
  decodeLine [0x22, 4, 0, 0x20, 0x20] = .ok (.writeback 0x20200004) ∧
  ∀ (op : Byte) (r : List Byte), (op = 0 ∨ (0x13 < op.toNat ∧ op.toNat < 0x20) ∨ 0x22 < op.toNat) →
    decode (op :: r) = .error (.unknownOperation op)

/-! The step (00_scope.md) -/

/-- What a turn is: a schedule line runs the operation its bytes decode to, a unit turn the loaded record where `SERVICE` is
enabled, the other turns one micro-step of an agent or a change of the lock report; with no line left the turn is a free
value. A turn that would come between `PRIME` and `GATEHI` (R302) or between `CLOSE` and the first gap zero (R131 (c)) of
another agent's `SERVICE` step takes no step, said of the registers of the instance whose step it is (the schedule and the
held turn are the model's, notes/assumptions/5.md, 9.md). -/
def Obligations.StepRunsTheDecodedInstruction : Prop :=
  ∀ (s : State) (l : List Turn),
    (∀ n g code i, s.sched = .op n g code :: l → ¬HeldTurn (.op n g code) s → decodeLine code = .ok i →
      step s = exec i { s with sched := l, sel := n, grain := g }) ∧
    (∀ n g code e, s.sched = .op n g code :: l → ¬HeldTurn (.op n g code) s → decodeLine code = .error e →
      step s = .refused (.undecodable e)) ∧
    (∀ n, s.sched = .unit n :: l → ¬HeldTurn (.unit n) s → serviceEnabled (getInst s n) = true →
      step s = exec (decodeRecord (getInst s n).w) { s with sched := l, sel := n, grain := .whole }) ∧
    (∀ n, s.sched = .unit n :: l → serviceEnabled (getInst s n) = false → step s = .next { s with sched := l }) ∧
    (s.sched = .callNext :: l → ¬HeldTurn .callNext s → step s = callNext { s with sched := l }) ∧
    (s.sched = .irqNext :: l → ¬HeldTurn .irqNext s → step s = irqNext { s with sched := l }) ∧
    (∀ b, s.sched = .lockLine b :: l → step s = .next { s with sched := l, lockLine := b }) ∧
    (∀ t, s.sched = t :: l → HeldTurn t s → step s = .next { s with sched := l }) ∧
    (s.sched = [] → step s = takeTurn (Config.freeTurn s.turnNo) { s with turnNo := s.turnNo + 1 })

/-! The timing engine (40_timing_engine.md) -/

/-- `PTE_ENABLE` (R123): refused on a divisor of 0 or a ratio other than 32, else a full reset, the configuration and
the start. Everything it does not name stays. -/
def Obligations.PteEnableResult : Prop :=
  ∀ (s : State) (sd ld : BitVec 16), idle s →
    ((sd = 0 ∨ ld = 0 ∨ ld.toNat ≠ 32 * sd.toNat) → exec (.pteEnable sd ld) s = .refused .badDivisors) ∧
    (¬(sd = 0 ∨ ld = 0 ∨ ld.toNat ≠ 32 * sd.toNat) →
      exec (.pteEnable sd ld) s
        = .next (setThis s
            { this s with
              en := true, req := true, dbuf := 0, gate := 0, dlatch := 0, glatch := 0, dsec := none
              shiftDiv := sd, latchDiv := ld, mid := false }))

/-- Idempotence (R125): a second `PTE_ENABLE` with the same divisors, or a second `PTE_DISABLE`, changes nothing. -/
def Obligations.EnablingTwiceIsOnce : Prop :=
  ∀ (s t : State), idle s →
    (∀ sd ld, exec (.pteEnable sd ld) s = .next t → exec (.pteEnable sd ld) t = .next t) ∧
    (exec .pteDisable s = .next t → exec .pteDisable t = .next t)

/-- `PTE_DISABLE` (R124): `PTE.EN` goes to 0 and nothing else changes; afterwards no `LATCH`, no `SERVICE` and no unit
transfer takes a step, whatever `TDC.RUN` is. -/
def Obligations.PteDisableResult : Prop :=
  ∀ s : State, idle s →
    ∃ t, exec .pteDisable s = .next t ∧ t = setThis s { this s with en := false }
      ∧ exec .latch t = .next t ∧ exec .service t = .next t
      ∧ ∀ f, exec (.prime f) t = .next t ∧ exec (.gateHi f) t = .next t ∧ exec (.data f) t = .next t
          ∧ exec (.close f) t = .next t ∧ exec (.gap f) t = .next t

/-- `LATCH` (R126), outside a `SERVICE` step under way: with `PTE.EN = 1` and a clock the latches are loaded, the slot's 32
symbols appended, the request set, and the two faults recorded where they occur; with `PTE.EN = 0` or with the clock
generator idle (R275) no step is taken. -/
def Obligations.LatchResult : Prop :=
  ∀ s : State,
    (((this s).en = false ∨ s.clkgen = .idle) → exec .latch s = .next s) ∧
    ((this s).en = true → s.clkgen = .locked → ¬((this s).mid = true ∧ (this s).run = true) →
      exec .latch s
        = .next (setThis s
            { this s with
              faults := (this s).faults
                ++ (if (this s).req = true ∧ (this s).gate ≠ ZERO then [.underrun (this s).out.length] else [])
                ++ (if (List.range 32).any (fun c => sym (this s).gate (this s).dbuf c == .unspec) then
                      [.unspecOutput (this s).out.length (this s).gate (this s).dbuf] else [])
              dlatch := (this s).dbuf
              glatch := (this s).gate
              out := (this s).out ++ [(List.range 32).map (sym (this s).gate (this s).dbuf)]
              req := true }))

/-- The symbol function (R127), row by row. -/
def Obligations.SymbolTable : Prop :=
  ∀ (d : Word) (c : Nat), c < 32 →
    (d.getLsbD c = false → sym ZERO d c = .low) ∧
    (d.getLsbD c = true → sym ZERO d c = .unspec) ∧
    (d.getLsbD c = false → sym ONES d c = .pulse0) ∧
    (d.getLsbD c = true → sym ONES d c = .pulse1) ∧
    ∀ g : Word, g ≠ ZERO → g ≠ ONES → sym g d c = .unspec

/-- Lanes (R128): after a `LATCH`, what line `c` carries in the new slot depends on the gate and on bit `c` of the data
register alone. -/
def Obligations.LanesAreIndependent : Prop :=
  ∀ (s s' t t' : State) (c : Nat), c < 32 →
    latchEnabled s.clkgen (this s) = true → latchEnabled s'.clkgen (this s') = true →
    (this s).gate = (this s').gate → (this s).dbuf.getLsbD c = (this s').dbuf.getLsbD c →
    exec .latch s = .next t → exec .latch s' = .next t' →
    ∃ slot slot', (this t).out = (this s).out ++ [slot] ∧ (this t').out = (this s').out ++ [slot']
      ∧ slot.length = 32 ∧ slot'.length = 32 ∧ slot[c]? = slot'[c]?

/-- The waveform (R129), and its equivalent for an open gate. -/
def Obligations.WaveLevels : Prop :=
  ∀ (p : Params) (tick : Nat), tick < 32 → 1 ≤ p.envTicks → p.envTicks < p.oneTicks → p.oneTicks ≤ 32 →
    wave p .low tick = some false ∧
    wave p .pulse0 tick = some (decide (tick < p.envTicks)) ∧
    wave p .pulse1 tick = some (decide (tick < p.oneTicks)) ∧
    wave p .unspec tick = none ∧
    ∀ (d : Word) (c : Nat), c < 32 →
      wave p (sym ONES d c) tick = some (decide (tick < p.envTicks ∨ (d.getLsbD c = true ∧ tick < p.oneTicks)))

/-- The duty cycle (R130) is the number of ticks the waveform is high, over 32. -/
def Obligations.DutyIsTheHighTime : Prop :=
  ∀ (p : Params) (y : Sym), p.envTicks < p.oneTicks → p.oneTicks ≤ 32 → y ≠ .unspec →
    dutyCycle p y
      = some ((((List.range 32).filter fun k => wave p y k == some true).length : Rat) / 32)

/-- The two clock rates (R120, R121): each is the intermediate clock over its divisor, and the shift rate is 32 times the
latch rate exactly when the latch divisor is 32 times the shift divisor. -/
def Obligations.ClockRates : Prop :=
  ∀ (p : Params) (sd ld : BitVec 16), 0 < p.fInt → sd ≠ 0 → ld ≠ 0 →
    ∃ a b : Rat, shiftRate p sd = some a ∧ latchRate p ld = some b ∧
      a * sd.toNat = p.fInt ∧ b * ld.toNat = p.fInt ∧ (a = 32 * b ↔ ld.toNat = 32 * sd.toNat)

/-! The sequencer (41_descriptor_chain.md) -/

/-- `Load(i)` (R160), with the `⊥` record of R260: the reserved check first, then the alignment, else the position. -/
def Obligations.LoadRule : Prop :=
  ∀ (i : BitVec 3) (x : Inst),
    let e := descAt x i
    let illegal := e.known = false ∨ 5 ≤ (e.body.ctrl.extractLsb' 0 3).toNat ∨ e.body.ctrl.extractLsb' 3 2 = 3
      ∨ e.body.ctrl.extractLsb' 16 16 = 0 ∨ e.body.ctrl.extractLsb' 11 5 ≠ 0
    (illegal → load i x = .error (.reservedDescriptor i)) ∧
    (¬illegal → e.body.src.toNat % 4 ≠ 0 → load i x = .error (.misalignedSource i)) ∧
    (¬illegal → e.body.src.toNat % 4 = 0 →
      load i x
        = .ok { x with cur := i, w := e.body, srcCur := e.body.src, cntRem := e.body.ctrl.extractLsb' 16 16 })

/-- One pass of the loop of `SERVICE` (R161) and the completion (R162), for a record of any of the five kinds with any
fields: where it takes no step, where it faults, where it is refused because R98 does not admit it, and the next state
otherwise. That the test comes last is the model's (notes/assumptions/19.md), and so is that a count of 0, which no `Load`
leaves (R176), counts down to 65535 (notes/assumptions/30.md). -/
def Obligations.UnitTransferRule : Prop :=
  ∀ (k : Kind) (f : Fields) (s : State), k ≠ .reserved5 → k ≠ .reserved6 → k ≠ .reserved7 →
    let x := this s
    let i := instrOfRecord k f
    (serviceEnabled x = false → exec i s = .next s) ∧
    (serviceEnabled x = true → f.reservedBits = true → exec i s = .fault (.reservedDescriptor x.cur)) ∧
    (serviceEnabled x = true → f.reservedBits = false → memRead x x.srcCur = none →
      exec i s = .fault (.unmappedSource x.srcCur)) ∧
    ∀ v, serviceEnabled x = true → f.reservedBits = false → memRead x x.srcCur = some v →
      (k = .gateHi → x.dsec ≠ some ZERO → exec i s = .fault .spuriousLeadBit) ∧
      ((k = .gateHi → x.dsec = some ZERO) → ¬(x.zeroWord = ZERO ∧ x.onesWord = ONES ∧ CanonicalAt k f x) →
        exec i s = .refused (.notAdmitted x.cur)) ∧
      ((k = .gateHi → x.dsec = some ZERO) → x.zeroWord = ZERO → x.onesWord = ONES → CanonicalAt k f x →
        let y : Inst :=
          { x with
            dbuf := if f.dst = 0 then v else x.dbuf
            dsec := if f.dst = 1 then some v else if k = .close then none else x.dsec
            gate := if f.dst = 2 then v else x.gate
            srcCur := if f.sadv = true then x.srcCur + 4 else x.srcCur
            cntRem := x.cntRem - 1
            req := if f.dst = 0 then false else x.req
            mid := !decide (f.dst = 0) }
        (x.cntRem ≠ 1 → exec i s = .next (setThis s y)) ∧
        (x.cntRem = 1 → f.dstop = true →
          exec i s = .next (setThis s { y with irqPend := x.irqPend || f.inten, run := false })) ∧
        (x.cntRem = 1 → f.dstop = false → loadable (descAt x f.next) →
          exec i s
            = .next (setThis s
                { y with
                  irqPend := x.irqPend || f.inten
                  cur := f.next, w := (descAt x f.next).body, srcCur := (descAt x f.next).body.src
                  cntRem := (fieldsOf (descAt x f.next).body).count })) ∧
        (x.cntRem = 1 → f.dstop = false → ¬loadable (descAt x f.next) →
          exec i s = .fault (.reservedDescriptor f.next) ∨ exec i s = .fault (.misalignedSource f.next)))

/-- `PRIME` with its canonical fields (R165, R95): `PTE.DSEC` becomes the known 0 and the gate-high record is loaded. -/
def Obligations.PrimeResult : Prop :=
  ∀ (s : State), serviceEnabled (this s) = true → (this s).cur = 0 → (this s).srcCur = (this s).par.zeroAddr →
    (this s).cntRem = 1 → isFrameWord (this s) (this s).par.zeroAddr.toNat = false →
    (this s).zeroWord = ZERO → (this s).onesWord = ONES → loadable (descAt (this s) 1) →
    exec (.prime ⟨(this s).par.zeroAddr, 1, false, false, false, 1, 0, 1⟩) s
      = .next (setThis s
          { this s with
            dsec := some 0, mid := true
            cur := 1, w := (descAt (this s) 1).body, srcCur := (descAt (this s) 1).body.src
            cntRem := (fieldsOf (descAt (this s) 1).body).count })

/-- `GATEHI` with its canonical fields (R166, R95): on a primed channel the gate opens and segment 0 is loaded; on one not
primed the fault `SpuriousLeadBit`. -/
def Obligations.GateHiResult : Prop :=
  ∀ (s : State), serviceEnabled (this s) = true → (this s).cur = 1 → (this s).srcCur = (this s).par.onesAddr →
    (this s).cntRem = 1 → isFrameWord (this s) (this s).par.onesAddr.toNat = false →
    (this s).par.onesAddr ≠ (this s).par.zeroAddr → (this s).zeroWord = ZERO → (this s).onesWord = ONES →
    loadable (descAt (this s) 2) →
    ((this s).dsec = some 0 →
      exec (.gateHi ⟨(this s).par.onesAddr, 2, false, false, false, 2, 0, 1⟩) s
        = .next (setThis s
            { this s with
              gate := ONES, mid := true
              cur := 2, w := (descAt (this s) 2).body, srcCur := (descAt (this s) 2).body.src
              cntRem := (fieldsOf (descAt (this s) 2).body).count })) ∧
    ((this s).dsec ≠ some 0 →
      exec (.gateHi ⟨(this s).par.onesAddr, 2, false, false, false, 2, 0, 1⟩) s = .fault .spuriousLeadBit)

/-- `DATA` with its canonical fields (R167, R95): one frame-buffer word of the DMA view goes to `PTE.DBUF`, the source
advances by 4, the request is cleared; the last word loads the successor. That a count of 0, which no `Load` leaves
(R176), counts down to 65535 is the model's choice (notes/assumptions/30.md). -/
def Obligations.DataResult : Prop :=
  ∀ (s : State) (i : Nat) (src : Word) (count : BitVec 16) (next : BitVec 3), serviceEnabled (this s) = true →
    i < 4 → i < nData (this s) → (this s).cur.toNat = 2 + i → next = (if i + 1 < nData (this s) then BitVec.ofNat 3 (3 + i) else 6) →
    count ≠ 0 → count.toNat ≤ (this s).par.maxXfer.toNat → isFrameWord (this s) src.toNat = true →
    (this s).zeroWord = ZERO → (this s).onesWord = ONES → isFrameWord (this s) (this s).srcCur.toNat = true →
    ((this s).cntRem ≠ 1 →
      exec (.data ⟨src, 0, true, false, false, next, 0, count⟩) s
        = .next (setThis s
            { this s with
              dbuf := dmaRead (this s).buf (this s).srcCur.toNat, srcCur := (this s).srcCur + 4
              cntRem := (this s).cntRem - 1, req := false, mid := false })) ∧
    ((this s).cntRem = 1 → loadable (descAt (this s) next) →
      exec (.data ⟨src, 0, true, false, false, next, 0, count⟩) s
        = .next (setThis s
            { this s with
              dbuf := dmaRead (this s).buf (this s).srcCur.toNat, req := false, mid := false
              cur := next, w := (descAt (this s) next).body, srcCur := (descAt (this s) next).body.src
              cntRem := (fieldsOf (descAt (this s) next).body).count }))

/-- `CLOSE` with its canonical fields, armed or not (R168, R95): the gate closes, `PTE.DSEC` has no known content, an armed
record sets `TDC.IRQ_PEND`, and the gap is loaded. -/
def Obligations.CloseResult : Prop :=
  ∀ (s : State) (inten : Bool), serviceEnabled (this s) = true → (this s).cur = 6 →
    (this s).srcCur = (this s).par.zeroAddr → (this s).cntRem = 1 →
    isFrameWord (this s) (this s).par.zeroAddr.toNat = false → (this s).zeroWord = ZERO → (this s).onesWord = ONES →
    loadable (descAt (this s) 7) →
    exec (.close ⟨(this s).par.zeroAddr, 2, false, inten, false, 7, 0, 1⟩) s
      = .next (setThis s
          { this s with
            gate := ZERO, dsec := none, mid := true, irqPend := if inten = true then true else (this s).irqPend
            cur := 7, w := (descAt (this s) 7).body, srcCur := (descAt (this s) 7).body.src
            cntRem := (fieldsOf (descAt (this s) 7).body).count })

/-- `GAP` with its canonical fields, stopping in `MODE = PACED` and looping in the others (R169, R95): a zero goes to
`PTE.DBUF` from a source that does not advance; the last zero stops the chain or loads the head of the ring. That a count of 0, which no `Load` leaves (R176),
counts down to 65535 is the model's choice (notes/assumptions/30.md). -/
def Obligations.GapResult : Prop :=
  ∀ (s : State) (stop : Bool), serviceEnabled (this s) = true → stop = decide ((this s).mode = .paced) →
    (this s).cur = 7 → (this s).srcCur = (this s).par.zeroAddr →
    isFrameWord (this s) (this s).par.zeroAddr.toNat = false → (this s).zeroWord = ZERO → (this s).onesWord = ONES →
    (this s).par.gapCount ≠ 0 →
    ((this s).cntRem ≠ 1 →
      exec (.gap ⟨(this s).par.zeroAddr, 0, false, false, stop, 0, 0, (this s).par.gapCount⟩) s
        = .next (setThis s
            { this s with dbuf := 0, req := false, mid := false, cntRem := (this s).cntRem - 1 })) ∧
    ((this s).cntRem = 1 → stop = true →
      exec (.gap ⟨(this s).par.zeroAddr, 0, false, false, stop, 0, 0, (this s).par.gapCount⟩) s
        = .next (setThis s
            { this s with dbuf := 0, req := false, mid := false, cntRem := 0, run := false })) ∧
    ((this s).cntRem = 1 → stop = false → loadable (descAt (this s) 0) →
      exec (.gap ⟨(this s).par.zeroAddr, 0, false, false, stop, 0, 0, (this s).par.gapCount⟩) s
        = .next (setThis s
            { this s with
              dbuf := 0, req := false, mid := false
              cur := 0, w := (descAt (this s) 0).body, srcCur := (descAt (this s) 0).body.src
              cntRem := (fieldsOf (descAt (this s) 0).body).count }))

/-- Illegal records (R98): executing a record of a reserved kind stops with `ReservedDescriptor`, `Load` of an illegal
record raises it, and a chain that passes the check of R97, with addresses that obey R67, holds at each index of its ring
a well-formed record with exactly the fields of R95. That executing one stops, with the index `TDC.CUR`, is DEDUCED
(notes/assumptions/34.md): R98 speaks of `Load`. -/
def Obligations.IllegalRecordsStop : Prop :=
  (∀ (f : Fields) (s : State),
    exec (.reservedKind5 f) s = .fault (.reservedDescriptor (this s).cur) ∧
    exec (.reservedKind6 f) s = .fault (.reservedDescriptor (this s).cur) ∧
    exec (.reservedKind7 f) s = .fault (.reservedDescriptor (this s).cur)) ∧
  (∀ (x : Inst) (i : BitVec 3),
    (kindOf (descAt x i).body = .reserved5 ∨ kindOf (descAt x i).body = .reserved6
      ∨ kindOf (descAt x i).body = .reserved7 ∨ (fieldsOf (descAt x i).body).dst = 3
      ∨ (fieldsOf (descAt x i).body).count = 0 ∨ (fieldsOf (descAt x i).body).rsvd ≠ 0) →
    load i x = .error (.reservedDescriptor i)) ∧
  ∀ x : Inst, chainOk x = true → addressesOk x = true →
    (∀ i : BitVec 3, (i.toNat < 2 + nData x ∨ 6 ≤ i.toNat) → (decodeRecord (descAt x i).body).wellFormed = true) ∧
    decodeRecord (descAt x 0).body = .prime ⟨x.par.zeroAddr, 1, false, false, false, 1, 0, 1⟩ ∧
    decodeRecord (descAt x 1).body = .gateHi ⟨x.par.onesAddr, 2, false, false, false, 2, 0, 1⟩ ∧
    (∃ base, (base = x.par.base0 ∨ base = base1 x) ∧
      ∀ j, j < nData x →
        ∃ count : BitVec 16, 1 ≤ count.toNat ∧ count.toNat ≤ x.par.maxXfer.toNat ∧
          isFrameWord x (base + BitVec.ofNat 32 (4 * j * x.par.maxXfer.toNat)).toNat = true ∧
          decodeRecord (descAt x (BitVec.ofNat 3 (2 + j))).body
            = .data ⟨base + BitVec.ofNat 32 (4 * j * x.par.maxXfer.toNat), 0, true, false, false,
                if j + 1 < nData x then BitVec.ofNat 3 (3 + j) else 6, 0, count⟩) ∧
    (∃ armed, decodeRecord (descAt x 6).body = .close ⟨x.par.zeroAddr, 2, false, armed, false, 7, 0, 1⟩) ∧
    decodeRecord (descAt x 7).body
      = .gap ⟨x.par.zeroAddr, 0, false, false, decide (x.mode = .paced), 0, 0, x.par.gapCount⟩

/-- `TDC_START` (R172): refused while running; else the head of the ring is loaded and the channel enabled, or `Load`'s
fault. -/
def Obligations.TdcStartResult : Prop :=
  ∀ s : State, idle s →
    ((this s).run = true → exec .tdcStart s = .refused .chainRunning) ∧
    ((this s).run = false → loadable (descAt (this s) 0) →
      exec .tdcStart s
        = .next (setThis s
            { this s with
              cur := 0, w := (descAt (this s) 0).body, srcCur := (descAt (this s) 0).body.src
              cntRem := (fieldsOf (descAt (this s) 0).body).count, run := true, mid := false })) ∧
    ((this s).run = false → ¬loadable (descAt (this s) 0) →
      exec .tdcStart s = .fault (.reservedDescriptor 0) ∨ exec .tdcStart s = .fault (.misalignedSource 0))

/-- `TDC_DISABLE` (R173): its two micro-steps, whole, or the first alone with the second left. -/
def Obligations.TdcDisableResult : Prop :=
  ∀ s : State, idle s →
    (s.grain = .whole →
      exec .tdcDisable s = .next (setThis s { this s with run := false, irqAttached := false })) ∧
    (s.grain = .micro →
      exec .tdcDisable s
        = .next { setThis s { this s with run := false } with call := [(s.sel, .detach)] })

/-- `TDC_BUILD` (R152): what it refuses, and otherwise the table of R156 and the interrupt attached, nothing else
changed. That equal constant addresses are among the bad addresses, and that constant words not holding their constants
(R63, R97 (e)) are refused here, is DEDUCED (notes/assumptions/33.md). -/
def Obligations.TdcBuildResult : Prop :=
  ∀ s : State, idleWhole s →
    let x := this s
    let m := x.par.maxXfer.toNat
    (x.run = true → exec .tdcBuild s = .refused .chainRunning) ∧
    (x.run = false → addressesOk x = false → exec .tdcBuild s = .refused .badAddresses) ∧
    (buildable x → ¬(x.zeroWord = ZERO ∧ x.onesWord = ONES) → exec .tdcBuild s = .refused .illFormedChain) ∧
    (buildable x → x.zeroWord = ZERO → x.onesWord = ONES →
      ∃ d : Vector Entry 8,
        exec .tdcBuild s = .next (setThis s { x with desc := d, irqAttached := true }) ∧
        d[0] = ⟨true, encodeRecord .prime ⟨x.par.zeroAddr, 1, false, false, false, 1, 0, 1⟩⟩ ∧
        d[1] = ⟨true, encodeRecord .gateHi ⟨x.par.onesAddr, 2, false, false, false, 2, 0, 1⟩⟩ ∧
        (∀ i : Fin 4,
          d[2 + i.val]
            = ⟨true,
                if i.val < nData x then
                  encodeRecord .data
                    ⟨x.activePtr + BitVec.ofNat 32 (4 * i.val * m), 0, true, false, false,
                      if i.val + 1 < nData x then BitVec.ofNat 3 (3 + i.val) else 6, 0,
                      BitVec.ofNat 16
                        (if i.val + 1 < nData x ∨ frameWords x % m = 0 then m else frameWords x % m)⟩
                else ⟨0x00000000, 0x00000007⟩⟩) ∧
        d[6] = ⟨true, encodeRecord .close ⟨x.par.zeroAddr, 2, false, false, false, 7, 0, 1⟩⟩ ∧
        d[7]
          = ⟨true,
              encodeRecord .gap
                ⟨x.par.zeroAddr, 0, false, false, decide (x.mode = .paced), 0, 0, x.par.gapCount⟩⟩)

/-- Segment lengths (R153): the maximum but for the last, which has the remainder or the maximum; they add up to one
frame. -/
def Obligations.SegmentCountsAddUp : Prop :=
  ∀ x : Inst, 0 < frameWords x → 0 < x.par.maxXfer.toNat →
    (∀ i, i + 1 < nData x → segCount x i = x.par.maxXfer.toNat) ∧
    (frameWords x % x.par.maxXfer.toNat ≠ 0 →
      segCount x (nData x - 1) = frameWords x % x.par.maxXfer.toNat) ∧
    (frameWords x % x.par.maxXfer.toNat = 0 → segCount x (nData x - 1) = x.par.maxXfer.toNat) ∧
    ((List.range (nData x)).map (segCount x)).sum = frameWords x

/-- `SERVICE` where the loop ends after its first pass, where that pass faults, and where it is not enabled (R161); and a
`LATCH` takes no step inside a `SERVICE` loop under way. -/
def Obligations.ServiceIsItsPasses : Prop :=
  ∀ s : State,
    (serviceEnabled (this s) = false → exec .service s = .next s) ∧
    (∀ t, serviceEnabled (this s) = true → exec (decodeRecord (this s).w) s = .next t →
      ((this t).mid = false ∨ (this t).run = false) → exec .service s = .next t) ∧
    (∀ e, serviceEnabled (this s) = true → exec (decodeRecord (this s).w) s = .fault e →
      exec .service s = .fault e) ∧
    ((this s).en = true → (this s).mid = true → (this s).run = true → exec .latch s = .next s)

/-- The first `SERVICE` step of a cycle (R171, `s = 0`): `PRIME`, `GATEHI` and the first word of segment 0, in one step. -/
def Obligations.ServiceOpensTheFrame : Prop :=
  ∀ s : State,
    let x := this s
    let d := (descAt x 2).body
    let y : Inst :=
      { x with dsec := some 0, gate := ONES, dbuf := dmaRead x.buf d.src.toNat, req := false, mid := false }
    serviceEnabled x = true → chainOk x = true → addressesOk x = true →
    x.cur = 0 → x.w = (descAt x 0).body → x.srcCur = x.par.zeroAddr → x.cntRem = 1 →
    ((fieldsOf d).count ≠ 1 →
      exec .service s
        = .next (setThis s
            { y with cur := 2, w := d, srcCur := d.src + 4, cntRem := (fieldsOf d).count - 1 })) ∧
    ((fieldsOf d).count = 1 →
      exec .service s
        = .next (setThis s
            { y with
              cur := (fieldsOf d).next, w := (descAt x (fieldsOf d).next).body
              srcCur := (descAt x (fieldsOf d).next).body.src
              cntRem := (fieldsOf (descAt x (fieldsOf d).next).body).count }))

/-- The `SERVICE` step that closes the frame (R171, `s = N`; R192): `CLOSE` and the first gap zero in one step, with the
interrupt raised if the loaded record is armed. -/
def Obligations.ServiceClosesTheFrame : Prop :=
  ∀ (s : State) (armed : Bool),
    let x := this s
    let y : Inst :=
      { x with
        gate := ZERO, dsec := none, dbuf := 0, req := false, mid := false
        irqPend := if armed = true then true else x.irqPend }
    serviceEnabled x = true → chainOk x = true → addressesOk x = true →
    x.cur = 6 → x.w = encodeRecord .close ⟨x.par.zeroAddr, 2, false, armed, false, 7, 0, 1⟩ →
    x.srcCur = x.par.zeroAddr → x.cntRem = 1 →
    (x.par.gapCount ≠ 1 →
      exec .service s
        = .next (setThis s
            { y with cur := 7, w := (descAt x 7).body, srcCur := x.par.zeroAddr, cntRem := x.par.gapCount - 1 })) ∧
    (x.par.gapCount = 1 → x.mode = .paced →
      exec .service s
        = .next (setThis s
            { y with cur := 7, w := (descAt x 7).body, srcCur := x.par.zeroAddr, cntRem := 0, run := false })) ∧
    (x.par.gapCount = 1 → x.mode ≠ .paced →
      exec .service s
        = .next (setThis s
            { y with cur := 0, w := (descAt x 0).body, srcCur := x.par.zeroAddr, cntRem := 1 }))

/-- The phase (R170). -/
def Obligations.PhaseTable : Prop :=
  ∀ x : Inst,
    (x.run = false → phase x = .stopped) ∧
    (x.run = true → (x.cur = 0 ∨ x.cur = 1) → phase x = .prime) ∧
    (x.run = true → (x.cur = 2 ∨ x.cur = 3 ∨ x.cur = 4 ∨ x.cur = 5) → phase x = .stream) ∧
    (x.run = true → (x.cur = 6 ∨ x.cur = 7) → phase x = .gap)

/-! The two views of memory (20_memory.md) -/

/-- Host accesses (R70): a write shows in the CPU view and makes the word dirty, and the DMA view does not change. -/
def Obligations.HostAccess : Prop :=
  ∀ (b : Buffer) (a k : Nat) (v : Word),
    hostRead (hostWrite b a v) k = (if k = a then v else hostRead b k) ∧
    dmaRead (hostWrite b a v) k = dmaRead b k ∧
    (k ∈ (hostWrite b a v).dirty ↔ k = a ∨ k ∈ b.dirty)

/-- `FLUSH addr, len` (R72): every dirty word-aligned word of the range is carried over and clean, every other word of both
views is unchanged, and so is everything else. That a range passing 2^32 is read over the natural numbers is DEDUCED
(notes/assumptions/28.md). -/
def Obligations.FlushResult : Prop :=
  ∀ (s : State) (addr len : Word), idle s →
    ∃ b, exec (.flush addr len) s = .next (setThis s { this s with buf := b })
      ∧ FlushedOver (this s).buf b addr.toNat len.toNat

/-- `WRITEBACK a` (R71): of a dirty word, the word is carried over and clean and every other word is unchanged; of a word
that is not dirty, no step. -/
def Obligations.WritebackResult : Prop :=
  ∀ (s : State) (a : Word),
    (a.toNat ∈ (this s).buf.dirty →
      ∃ b, exec (.writeback a) s = .next (setThis s { this s with buf := b }) ∧
        ∀ k, hostRead b k = hostRead (this s).buf k
          ∧ dmaRead b k = (if k = a.toNat then hostRead (this s).buf k else dmaRead (this s).buf k)
          ∧ (k ∈ b.dirty ↔ k ∈ (this s).buf.dirty ∧ k ≠ a.toNat)) ∧
    (a.toNat ∉ (this s).buf.dirty → exec (.writeback a) s = .next s)

/-- Who writes what (R60): no hardware step writes a frame-buffer word in either view, a constant word or a descriptor;
and no host operation but the engine's reset writes one of the three DMA-writable registers, which lose their content
where a `TEARDOWN` powers the generator down (R246 t4, R275). -/
def Obligations.HardwareNeverWritesMemory : Prop :=
  ∀ (i : Instr) (s t : State), exec i s = .next t → ∀ n,
    (isHardwareStep i = true →
      (getInst t n).buf = (getInst s n).buf ∧ (getInst t n).zeroWord = (getInst s n).zeroWord
        ∧ (getInst t n).onesWord = (getInst s n).onesWord ∧ (getInst t n).desc = (getInst s n).desc) ∧
    (isHostCall i = true → (∀ sd ld, i ≠ .pteEnable sd ld) → (∀ u p, i ≠ .initialise u p) →
      (i = .teardown → ¬PowersDown s) →
      (getInst t n).dbuf = (getInst s n).dbuf ∧ (getInst t n).dsec = (getInst s n).dsec
        ∧ (getInst t n).gate = (getInst s n).gate)

/-! The swap synchronizer (42_swap_synchronizer.md) -/

/-- `REQUEST_SWAP` (R191, R190): the pointers exchanged, the newly active half flushed, `DESC[6].INTEN` set, nothing else
changed; its first micro-step alone; and the refusal outside `MODE = DOUBLE`. -/
def Obligations.RequestSwapResult : Prop :=
  ∀ s : State, idle s →
    let x := this s
    (x.mode ≠ .double → exec .requestSwap s = .refused .notDoubleBuffered) ∧
    (x.mode = .double → s.grain = .whole →
      ∃ b,
        exec .requestSwap s
          = .next (setThis s
              { x with
                activePtr := x.inactivePtr, inactivePtr := x.activePtr, buf := b
                desc := x.desc.set 6
                  ⟨x.desc[6].known, ⟨x.desc[6].body.src, x.desc[6].body.ctrl ||| 0x00000040⟩⟩ }) ∧
        FlushedOver x.buf b x.inactivePtr.toNat (4 * frameWords x)) ∧
    (x.mode = .double → s.grain = .micro →
      exec .requestSwap s
        = .next { setThis s { x with activePtr := x.inactivePtr, inactivePtr := x.activePtr } with
            call := [(s.sel, .flushActive), (s.sel, .arm)] })

/-- A second request before the first is served (R196): the pointers are back, the bit is set once, nothing is raised. -/
def Obligations.SecondSwapUndoesTheFirst : Prop :=
  ∀ s t u : State, idleWhole s → exec .requestSwap s = .next t → exec .requestSwap t = .next u →
    (this u).activePtr = (this s).activePtr ∧ (this u).inactivePtr = (this s).inactivePtr ∧
    (this u).desc = (this t).desc ∧ (fieldsOf (descAt (this u) 6).body).inten = true ∧
    (this u).irqPend = (this s).irqPend

/-- `IRQ_HANDLER` (R195, R264, R267): not enabled, dropped because no instance owns the unit, or already running, no step;
else, on the instance that owns the unit, `DESC[6].INTEN` cleared, every data record retargeted to the active half, the
pending flag cleared, nothing else changed; and its first micro-step alone. That an instance with no unit enters its own
handler is the model's choice (notes/assumptions/20.md). -/
def Obligations.IrqHandlerResult : Prop :=
  ∀ s : State,
    ((s.irq ≠ [] ∨ irqEnabled (this s) = false ∨ ∃ u, (this s).unitNo = some u ∧ s.owner[u.val] = none) →
      exec .irqHandler s = .next s) ∧
    (∀ n, s.irq = [] → s.grain = .micro → (this s).irqPend = true → (this s).irqAttached = true → routed s s.sel n →
      let y := getInst s n
      exec .irqHandler s
        = .next
            { setInst s n
                { y with
                  desc :=
                    y.desc.set 6
                      ⟨y.desc[6].known, ⟨y.desc[6].body.src, y.desc[6].body.ctrl &&& 0xFFFFFFBF⟩⟩ } with
              irq := (List.range (nData y)).map (fun i => (n, .retarget i)) ++ [(n, .ack)] }) ∧
    ∀ n, s.irq = [] → s.grain = .whole → (this s).irqPend = true → (this s).irqAttached = true → routed s s.sel n →
      nData (getInst s n) ≤ 4 →
      let y := getInst s n
      ∃ d : Vector Entry 8,
        exec .irqHandler s = .next (setInst s n { y with desc := d, irqPend := false }) ∧
        d[0] = y.desc[0] ∧ d[1] = y.desc[1] ∧ d[7] = y.desc[7] ∧
        d[6] = ⟨y.desc[6].known, ⟨y.desc[6].body.src, y.desc[6].body.ctrl &&& 0xFFFFFFBF⟩⟩ ∧
        ∀ i : Fin 4,
          d[2 + i.val]
            = (if i.val < nData y then
                ⟨y.desc[2 + i.val].known,
                  ⟨y.activePtr + BitVec.ofNat 32 (4 * i.val * y.par.maxXfer.toNat), y.desc[2 + i.val].body.ctrl⟩⟩
              else y.desc[2 + i.val])

/-- One processor, one caller (R15 (b), (d)): during a handler run no operation of call context begins and the one in
progress takes no micro-step; a colour accessor does begin, in interrupt context (R225, R292), and comes before what the
run has left; during an operation of call context no other begins. -/
def Obligations.HandlerHoldsTheCaller : Prop :=
  ∀ (s : State) (i : Instr), isHostCall i = true →
    (s.irq ≠ [] → callNext s = .next s) ∧
    (s.irq ≠ [] → isAccessor i = false → exec i s = .refused .heldByHandler) ∧
    (s.irq ≠ [] → isAccessor i = true → ∃ t l, exec i s = .next t ∧ t.call = s.call ∧ t.irq = l ++ s.irq) ∧
    (s.irq = [] → s.call ≠ [] → exec i s = .refused .callerBusy)

/-- `BUFFER_READY` (R198): the answer, and no side effect. -/
def Obligations.BufferReadyResult : Prop :=
  ∀ s : State, idle s →
    ((this s).mode = .paced → exec .bufferReady s = .next { s with ret := .bool (!(this s).run) }) ∧
    ((this s).mode ≠ .paced → exec .bufferReady s = .next { s with ret := .bool true })

/-- `FLIP_BUFFERS` in the looping modes, and its alias in every mode (R199, R201): in `MODE = DOUBLE` exactly `REQUEST_SWAP`, in
`MODE = FREE` a flush of the whole buffer. -/
def Obligations.FlipInLoopingModes : Prop :=
  ∀ (s : State) (i : Instr), (i = .flipBuffers ∨ i = .flushBuffer) →
    exec .flushBuffer s = exec .flipBuffers s ∧
    ((this s).mode = .double → exec i s = exec .requestSwap s) ∧
    ((this s).mode = .free → idle s →
      ∃ b, exec i s = .next (setThis s { this s with buf := b })
        ∧ FlushedOver (this s).buf b (this s).par.base0.toNat (4 * frameWords (this s)))

/-- `FLIP_BUFFERS` and its alias in `MODE = PACED` (R200, R201): a flush, then the trigger if the chain is stopped, else a
spin that goes on while it runs. -/
def Obligations.FlipInPacedMode : Prop :=
  ∀ (s : State) (i : Instr), (i = .flipBuffers ∨ i = .flushBuffer) → idleWhole s → (this s).mode = .paced →
    ∃ b, FlushedOver (this s).buf b (this s).par.base0.toNat (4 * frameWords (this s)) ∧
      ((this s).run = false → loadable (descAt (this s) 0) →
        exec i s
          = .next (setThis s
              { this s with
                buf := b, cur := 0, w := (descAt (this s) 0).body, srcCur := (descAt (this s) 0).body.src
                cntRem := (fieldsOf (descAt (this s) 0).body).count, run := true, mid := false })) ∧
      ((this s).run = false → ¬loadable (descAt (this s) 0) →
        exec i s = .fault (.reservedDescriptor 0) ∨ exec i s = .fault (.misalignedSource 0)) ∧
      ((this s).run = true →
        ∃ t, exec i s = .next t
          ∧ t = { setThis s { this s with buf := b } with call := [(s.sel, .spinStopped), (s.sel, .tdcStart)] }
          ∧ callNext t = .next t)

/-! The codec (43_frame_buffer_codec.md) -/

/-- `SET_CHANNEL_TYPE ch, t` (R223): its three silent no-ops, and the assignment, which changes nothing else. -/
def Obligations.SetChannelTypeResult : Prop :=
  ∀ (s : State) (ch t : Byte), idle s →
    (31 < ch.toNat → exec (.setChannelType ch t) s = .next s) ∧
    (2 < t.toNat → exec (.setChannelType ch t) s = .next s) ∧
    (t = 2 → (this s).cap = .three → exec (.setChannelType ch t) s = .next s) ∧
    ∀ h : ch.toNat < 32,
      (t = 0 → exec (.setChannelType ch t) s
        = .next (setThis s { this s with chtype := (this s).chtype.set ch.toNat .a h })) ∧
      (t = 1 → exec (.setChannelType ch t) s
        = .next (setThis s { this s with chtype := (this s).chtype.set ch.toNat .b h })) ∧
      (t = 2 → (this s).cap = .four → exec (.setChannelType ch t) s
        = .next (setThis s { this s with chtype := (this s).chtype.set ch.toNat .four h }))

/-- `SET_ACTIVE_COLOR` and `SET_INACTIVE_COLOR` (R225, R227, R228): the words of the LED get the colour's bits on their
channel and become dirty, every other bit, word and register is unchanged; out of range nothing changes. From call
context, or from inside a handler run. -/
def Obligations.SetColorResult : Prop :=
  ∀ (s : State) (ch : Byte) (idx col : Word), canAccess s → s.grain = .whole →
    ((31 < ch.toNat ∨ (this s).leds ≤ idx.toNat) →
      exec (.setActiveColor ch idx col) s = .next s ∧ exec (.setInactiveColor ch idx col) s = .next s) ∧
    ∀ h : ch.toNat < 32, idx.toNat < (this s).leds →
      (∃ b, exec (.setActiveColor ch idx col) s = .next (setThis s { this s with buf := b })
        ∧ ColorStored (this s).buf b (this s).activePtr ch.toNat (widthOf (this s).chtype[ch.toNat]) idx.toNat col) ∧
      (∃ b, exec (.setInactiveColor ch idx col) s = .next (setThis s { this s with buf := b })
        ∧ ColorStored (this s).buf b (this s).inactivePtr ch.toNat (widthOf (this s).chtype[ch.toNat]) idx.toNat col)

/-- `GET_ACTIVE_COLOR` and `GET_INACTIVE_COLOR` (R226, R229, R230): each bit of the answer is the channel's bit of its word
in the CPU view, the rest is 0; out of range the answer is 0; nothing else changes. From call context, or from inside a
handler run. -/
def Obligations.GetColorResult : Prop :=
  ∀ (s : State) (ch : Byte) (idx : Word), canAccess s →
    ((31 < ch.toNat ∨ (this s).leds ≤ idx.toNat) →
      exec (.getActiveColor ch idx) s = .next { s with ret := .color 0 } ∧
      exec (.getInactiveColor ch idx) s = .next { s with ret := .color 0 }) ∧
    ∀ h : ch.toNat < 32, idx.toNat < (this s).leds →
      let w := widthOf (this s).chtype[ch.toNat]
      (∃ c : Word, exec (.getActiveColor ch idx) s = .next { s with ret := .color c } ∧
        ∀ j, c.getLsbD j
          = (decide (j < w)
              && (hostRead (this s).buf (colorAddr (this s).activePtr w idx.toNat (w - 1 - j)).toNat).getLsbD
                  ch.toNat)) ∧
      (∃ c : Word, exec (.getInactiveColor ch idx) s = .next { s with ret := .color c } ∧
        ∀ j, c.getLsbD j
          = (decide (j < w)
              && (hostRead (this s).buf (colorAddr (this s).inactivePtr w idx.toNat (w - 1 - j)).toNat).getLsbD
                  ch.toNat))

/-- Round trip (R231): reading back a colour just written gives it, without its top byte on a three-channel type. That both
calls succeed inside a handler run too is the model's choice (notes/assumptions/7.md). -/
def Obligations.ColorRoundTrip : Prop :=
  ∀ (s t : State) (ch : Byte) (idx col : Word) (h : ch.toNat < 32), canAccess s → s.grain = .whole →
    idx.toNat < (this s).leds →
    let c := if widthOf (this s).chtype[ch.toNat] = 24 then col &&& 0x00FFFFFF else col
    (exec (.setActiveColor ch idx col) s = .next t →
      exec (.getActiveColor ch idx) t = .next { t with ret := .color c }) ∧
    (exec (.setInactiveColor ch idx col) s = .next t →
      exec (.getInactiveColor ch idx) t = .next { t with ret := .color c })

/-! The lifecycle (44_lifecycle.md) -/

/-- `CONSTRUCT leds, cap, mode` (R240, the third column of R43): what is refused, and the instance otherwise. The position
of the sequencer is unspecified, and no word of the buffer has a known value. The refusal of channel types that the
capacity does not allow is the model's (notes/assumptions/16.md); so is that the trace and the recorded faults go on and
that no word of the new buffer is dirty (notes/assumptions/15.md). -/
def Obligations.ConstructResult : Prop :=
  ∀ (s : State) (leds : Word) (cap : Cap) (mode : Mode), idle s →
    let x := this s
    let words := leds.toNat * (if cap = .three then 24 else 32)
    (0 < leds.toNat → 4 < segments words x.par →
      exec (.construct leds cap mode) s = .refused .tooManyDescriptors) ∧
    (¬(0 < leds.toNat ∧ 4 < segments words x.par) → cap = .three → (∃ c : Fin 32, x.par.chtypeInit[c.val] = .four) →
      exec (.construct leds cap mode) s = .refused .badChannelTypes) ∧
    (¬(0 < leds.toNat ∧ 4 < segments words x.par) → ¬(cap = .three ∧ ∃ c : Fin 32, x.par.chtypeInit[c.val] = .four) →
      ∃ cur w src cnt a n,
        exec (.construct leds cap mode) s
          = .next
              { setThis s
                  { x with
                    leds := leds.toNat, cap := cap, mode := mode
                    desc := Vector.replicate 8 ⟨false, ⟨0, 0⟩⟩
                    cur := cur, w := w, srcCur := src, cntRem := cnt
                    run := false, irqPend := false, irqAttached := false, mid := false
                    activePtr := x.par.base0
                    inactivePtr := if mode = .double then x.par.base0 + BitVec.ofNat 32 (4 * words) else x.par.base0
                    chtype := x.par.chtypeInit
                    initialized := false, unitNo := none
                    buf := { cpuv := [], dmav := [], dirty := [], alloc := a } } with
                freeNo := n })

/-- `INITIALIZE` that fails one of its five checks (R241, R242): the result `false`, and every other piece of state as
before. -/
def Obligations.InitialiseFails : Prop :=
  ∀ (s : State) (unit : Byte) (p : Pins), idle s → initRejected s unit →
    exec (.initialise unit p) s = .next { s with ret := .bool false }

/-- `INITIALIZE` on its success path (R243, R76): the unit claimed, both halves zero and clean, the generator locked by the
first instance, the engine enabled, the table built, the chain started in the looping modes, the result `true`. -/
def Obligations.InitialiseSucceeds : Prop :=
  ∀ (s : State) (unit : Byte) (p : Pins) (u : Fin 2), idleWhole s → unit.toNat = u.val → ¬initRejected s unit →
    divisorsOk (this s).par.shiftDiv (this s).par.latchDiv = true →
    buildable (this s) → (this s).zeroWord = ZERO → (this s).onesWord = ONES →
    (activeCount s = 0 → s.lockLine = true) →
    let x := this s
    let looping := decide (x.mode ≠ .paced)
    ∃ b : Buffer, ∃ d : Vector Entry 8,
      exec (.initialise unit p) s
        = .next
            { setThis s
                { x with
                  unitNo := some u, initialized := true
                  en := true, req := true, dbuf := 0, gate := 0, dlatch := 0, glatch := 0, dsec := none
                  shiftDiv := x.par.shiftDiv, latchDiv := x.par.latchDiv, mid := false
                  desc := d, irqAttached := true, run := looping
                  cur := if looping then 0 else x.cur
                  w := if looping then d[0].body else x.w
                  srcCur := if looping then x.par.zeroAddr else x.srcCur
                  cntRem := if looping then 1 else x.cntRem
                  buf := b } with
              owner := s.owner.set u.val (some s.sel)
              clkgen := if activeCount s = 0 then .locked else s.clkgen
              ret := .bool true } ∧
      (∀ i : Fin 8, d[i.val] = ⟨true, builtRecord x x.activePtr (BitVec.ofNat 3 i.val)⟩) ∧
      (∀ k, isFrameWord x k = true → hostRead b k = 0 ∧ dmaRead b k = 0 ∧ k ∉ b.dirty) ∧
      (∀ k, isFrameWord x k = false →
        hostRead b k = hostRead x.buf k ∧ dmaRead b k = dmaRead x.buf k ∧ (k ∈ b.dirty ↔ k ∈ x.buf.dirty))

/-- The lock wait (R244): `INITIALIZE` of a first instance waits at the generator, the unit already claimed, and each turn
of `CALL` leaves it waiting until lock is reported. -/
def Obligations.InitialiseWaitsForLock : Prop :=
  (∀ (s : State) (unit : Byte) (p : Pins) (u : Fin 2), idleWhole s → unit.toNat = u.val → ¬initRejected s unit →
    activeCount s = 0 → s.lockLine = false →
    ∃ t l, exec (.initialise unit p) s = .next t ∧ t.call = (s.sel, .clkPowerUp) :: l ∧ t.clkgen = .idle
      ∧ t.owner[u.val] = some s.sel ∧ (this t).initialized = false ∧ (this t).en = (this s).en) ∧
  ∀ (t : State) (n : Nat) (l : List (Nat × Micro)), t.irq = [] → t.call = (n, .clkPowerUp) :: l →
    (t.lockLine = false → callNext t = .next t) ∧
    (t.lockLine = true → callNext t = .next { t with clkgen := .locked, call := l })

/-- `TEARDOWN` (R246): chain, interrupt and engine off, the instance without unit; the table entry cleared if it is the
instance's own, and the generator powered down if it was the last, when the engines it powers lose their state (R275, how
is notes/assumptions/36.md); the frame buffer kept (notes/assumptions/35.md); and its first micro-step alone. -/
def Obligations.TeardownResult : Prop :=
  ∀ s : State, idle s →
    let y : Inst :=
      { this s with run := false, irqAttached := false, en := false, unitNo := none, initialized := false }
    (s.grain = .micro →
      exec .teardown s
        = .next
            { setThis s { this s with run := false } with
              call :=
                [(s.sel, .detach), (s.sel, .pteDisable), (s.sel, .pinsRelease), (s.sel, .clkPowerDown),
                  (s.sel, .unclaim), (s.sel, .clearInit)] }) ∧
    (∀ u, s.grain = .whole → (this s).unitNo = some u → s.owner[u.val] = some s.sel → activeCount s ≠ 1 →
      exec .teardown s = .next { setThis s y with owner := s.owner.set u.val none }) ∧
    (∀ u, s.grain = .whole → (this s).unitNo = some u → s.owner[u.val] = some s.sel → activeCount s = 1 →
      ∃ t, exec .teardown s = .next t ∧
        t = { s with insts := t.insts, owner := s.owner.set u.val none, clkgen := .idle, freeNo := t.freeNo } ∧
        EngineLost y (this t) ∧ ∀ n, n ≠ s.sel → EngineLost (getInst s n) (getInst t n) ∨ getInst t n = getInst s n) ∧
    (s.grain = .whole → (∀ u, (this s).unitNo = some u → s.owner[u.val] ≠ some s.sel) →
      exec .teardown s = .next (setThis s y))

/-! What holds of every step -/

/-- Every step keeps the canonical form of every instance's frame buffer. -/
def Obligations.StepKeepsMemoryCanonical : Prop :=
  ∀ s t : State, memoryCanonical s = true → step s = .next t → memoryCanonical t = true

/-- Every step keeps the pointer pair on the two halves (R35). -/
def Obligations.StepKeepsPointers : Prop :=
  ∀ (s t : State) (n : Nat), pointersOk (getInst s n) → step s = .next t → pointersOk (getInst t n)

/-- Every step keeps four channels to the capacity that has them (R222) and the data descriptors to four (R151). -/
def Obligations.StepKeepsConfiguration : Prop :=
  ∀ (s t : State) (n : Nat), configOk (getInst s n) → step s = .next t → configOk (getInst t n)

/-- Every step keeps the interrupt bit to the record of index 6 and the stop bit to that of index 7 (R34). -/
def Obligations.StepKeepsFlagBits : Prop :=
  ∀ (s t : State) (n : Nat), flagBitsOk (getInst s n) → step s = .next t → flagBitsOk (getInst t n)

/-- The state after reset (R43, R290): what the spec gives, and that it meets the four invariants. -/
def Obligations.ResetMeetsTheInvariants : Prop :=
  memoryCanonical State.reset = true ∧ State.reset.owner = Vector.replicate 2 none ∧ idle State.reset ∧
  ∀ n,
    let x := getInst State.reset n
    pointersOk x ∧ configOk x ∧ flagBitsOk x ∧
    x.en = false ∧ x.shiftDiv = 0 ∧ x.latchDiv = 0 ∧ x.dsec = none ∧ x.req = false ∧
    x.run = false ∧ x.irqPend = false ∧ x.irqAttached = false ∧ (∀ i, (descAt x i).known = false) ∧
    x.zeroWord = ZERO ∧ x.onesWord = ONES

/-- No step changes the parameters of an instance (R6, R42), and no instruction and no step but `CONSTRUCT` its
configuration. -/
def Obligations.ParametersNeverChange : Prop :=
  (∀ (s t : State) (n : Nat), step s = .next t → (getInst t n).par = (getInst s n).par) ∧
  (∀ (s t : State) (n : Nat), step s = .next t → (∀ l c m, turnIs (nextTurn s).1 n (.construct l c m) = false) →
    (getInst t n).leds = (getInst s n).leds ∧ (getInst t n).cap = (getInst s n).cap
      ∧ (getInst t n).mode = (getInst s n).mode) ∧
  ∀ (i : Instr) (s t : State) (n : Nat), exec i s = .next t → (∀ l c m, i ≠ .construct l c m) →
    (getInst t n).leds = (getInst s n).leds ∧ (getInst t n).cap = (getInst s n).cap
      ∧ (getInst t n).mode = (getInst s n).mode

/-- Instances are separate (R44): an instruction changes only the instance it is given to, the handler only the one that
owns the unit (R264; an instance with no unit enters its own handler, the model's choice, notes/assumptions/20.md); and the
`TEARDOWN` that powers the shared generator down touches another's engine only (R246 t4, R275). -/
def Obligations.OtherInstancesUntouched : Prop :=
  ∀ (i : Instr) (s t : State) (n : Nat), exec i s = .next t →
    (i ≠ .irqHandler → i ≠ .teardown → n ≠ s.sel → getInst t n = getInst s n) ∧
    (i = .irqHandler → ¬routed s s.sel n → getInst t n = getInst s n) ∧
    (i = .teardown → n ≠ s.sel → ¬PowersDown s → getInst t n = getInst s n) ∧
    (i = .teardown → n ≠ s.sel → EngineLost (getInst s n) (getInst t n) ∨ getInst t n = getInst s n)

/-- The output trace (R18): no instruction but `LATCH` and no step whose turn is not the instance's `LATCH` changes it or
records a fault, and a step adds at most one slot, of 32 symbols. That both go on over `PTE_ENABLE` and `CONSTRUCT`, and that the other faults stop the machine and are not
recorded, is DEDUCED (notes/assumptions/11.md, 13.md, 15.md). -/
def Obligations.OnlyLatchAddsASlot : Prop :=
  (∀ (i : Instr) (s t : State) (n : Nat), exec i s = .next t → i ≠ .latch →
    (getInst t n).out = (getInst s n).out ∧ (getInst t n).faults = (getInst s n).faults) ∧
  (∀ (s t : State) (n : Nat), step s = .next t → turnIs (nextTurn s).1 n .latch = false →
    (getInst t n).out = (getInst s n).out ∧ (getInst t n).faults = (getInst s n).faults) ∧
  ∀ (s t : State) (n : Nat), step s = .next t →
    (getInst t n).out = (getInst s n).out
      ∨ ∃ slot, slot.length = 32 ∧ (getInst t n).out = (getInst s n).out ++ [slot]

/-- The pending flag is sticky (R32): once set it stays through every instruction but the handler, and but for the
construction of the instance anew. -/
def Obligations.InterruptIsSticky : Prop :=
  ∀ (i : Instr) (s t : State) (n : Nat), exec i s = .next t → i ≠ .irqHandler → (∀ l c m, i ≠ .construct l c m) →
    (getInst s n).irqPend = true → (getInst t n).irqPend = true

/-- An operation taken whole is its micro-steps taken turn by turn (R15 (a)), as far as they go without waiting; and so is a
handler run, whose turns are those of `IRQ` (R195). -/
def Obligations.MicroStepsMakeTheWhole : Prop :=
  (∀ (l : List (Nat × Micro)) (s : State), s.irq = [] → callTurns l.length { s with call := l } = runCall l s) ∧
  ∀ (l : List (Nat × Micro)) (s : State), irqTurns l.length { s with irq := l } = runIrq l s
end

