-- ==== Sys2Proof/Laws/Encoding.lean ====
section
/-! SUPPORT. The descriptor record: its fields read back from its encoding, and what writing `INTEN` changes. -/

namespace Sys2Proof

theorem kindOfBits_bitsOfKind (k : Kind) : kindOfBits (bitsOfKind k) = k := by
  cases k <;> rfl

theorem bitsOfKind_kindOfBits (k : BitVec 3) : bitsOfKind (kindOfBits k) = k := by
  revert k; decide

@[simp] theorem kindOf_encodeRecord (k : Kind) (f : Fields) : kindOf (encodeRecord k f) = k := by
  have : (encodeCtrl k f).extractLsb' 0 3 = bitsOfKind k := by
    ext i hi
    interval_cases i <;> simp [encodeCtrl, ← BitVec.getLsbD_eq_getElem]
  simp [kindOf, encodeRecord, this, kindOfBits_bitsOfKind]

@[simp] theorem fieldsOf_encodeRecord (k : Kind) (f : Fields) : fieldsOf (encodeRecord k f) = f := by
  obtain ⟨src, dst, sadv, inten, dstop, next, rsvd, count⟩ := f
  simp only [fieldsOf, encodeRecord, Fields.mk.injEq, true_and]
  refine ⟨?_, ?_, ?_, ?_, ?_, ?_, ?_⟩
  · ext i hi
    interval_cases i <;> simp [encodeCtrl, ← BitVec.getLsbD_eq_getElem]
  · simp [encodeCtrl, -BitVec.getLsbD_eq_getElem]
  · simp [encodeCtrl, -BitVec.getLsbD_eq_getElem]
  · simp [encodeCtrl, -BitVec.getLsbD_eq_getElem]
  · ext i hi
    interval_cases i <;> simp [encodeCtrl, ← BitVec.getLsbD_eq_getElem]
  · ext i hi
    interval_cases i <;> simp [encodeCtrl, ← BitVec.getLsbD_eq_getElem]
  · ext i hi
    interval_cases i <;> simp [encodeCtrl, ← BitVec.getLsbD_eq_getElem]

@[simp] theorem encodeRecord_src (k : Kind) (f : Fields) : (encodeRecord k f).src = f.src := rfl

/-- Every record is the encoding of its kind and fields. -/
theorem encodeRecord_kindOf_fieldsOf (d : Desc) : encodeRecord (kindOf d) (fieldsOf d) = d := by
  obtain ⟨src, ctrl⟩ := d
  simp only [encodeRecord, fieldsOf, Desc.mk.injEq, true_and, encodeCtrl, kindOf, bitsOfKind_kindOfBits]
  ext i hi
  interval_cases i <;> simp [← BitVec.getLsbD_eq_getElem]

/-- A record is determined by its kind and fields. -/
theorem desc_ext {d e : Desc} (h1 : kindOf d = kindOf e) (h2 : fieldsOf d = fieldsOf e) : d = e := by
  rw [← encodeRecord_kindOf_fieldsOf d, ← encodeRecord_kindOf_fieldsOf e, h1, h2]

@[simp] theorem setInten_src (b : Bool) (d : Desc) : (setInten b d).src = d.src := rfl

@[simp] theorem kindOf_setInten (b : Bool) (d : Desc) : kindOf (setInten b d) = kindOf d := by
  simp [setInten]

@[simp] theorem fieldsOf_setInten (b : Bool) (d : Desc) : fieldsOf (setInten b d) = { fieldsOf d with inten := b } := by
  simp [setInten]

@[simp] theorem setInten_setInten (b c : Bool) (d : Desc) : setInten b (setInten c d) = setInten b d := by
  apply desc_ext <;> simp

theorem kindOf_src (s : Word) (d : Desc) : kindOf { d with src := s } = kindOf d := rfl

theorem fieldsOf_src (s : Word) (d : Desc) : fieldsOf { d with src := s } = { fieldsOf d with src := s } := rfl

/-- Whether an instruction is a descriptor record's. -/
def isRecord : Instr → Bool
  | .prime _ | .gateHi _ | .data _ | .close _ | .gap _ => true
  | .reservedKind5 _ | .reservedKind6 _ | .reservedKind7 _ => true
  | _ => false

end Sys2Proof
end

