-- ==== Sys2Proof/Laws/State.lean ====
section
/-! SUPPORT. What writing one instance or one shared field leaves alone: the small lemmas of `getInst`, `setInst`,
`this`, `setThis`, `setOwner`, `writeRecord` and `editRecord`. -/

namespace Sys2Proof.Machine

open Sys2Proof

@[simp] theorem instAt_setInstAt_same (l : List Inst) (n : Nat) (x : Inst) :
    instAt (setInstAt l n x) n = x := by
  induction n generalizing l with
  | zero => cases l <;> rfl
  | succ n ih => cases l <;> simp [instAt, setInstAt, ih]

@[simp] theorem instAt_nil (n : Nat) : instAt [] n = Inst.atStart := rfl

theorem instAt_setInstAt_other (l : List Inst) {n m : Nat} (x : Inst) (h : m ≠ n) :
    instAt (setInstAt l n x) m = instAt l m := by
  induction n generalizing l m with
  | zero =>
    cases m with
    | zero => exact absurd rfl h
    | succ m => cases l <;> simp [instAt, setInstAt]
  | succ n ih =>
    cases m with
    | zero => cases l <;> simp [instAt, setInstAt]
    | succ m =>
      have hm : m ≠ n := fun e => h (congrArg Nat.succ e)
      cases l <;> simp [instAt, setInstAt, ih _ hm]

@[simp] theorem setInstAt_setInstAt (l : List Inst) (n : Nat) (x y : Inst) :
    setInstAt (setInstAt l n x) n y = setInstAt l n y := by
  induction n generalizing l with
  | zero => cases l <;> rfl
  | succ n ih => cases l <;> simp [setInstAt, ih]

@[simp] theorem getInst_setInst_same (s : State) (n : Nat) (x : Inst) : getInst (setInst s n x) n = x :=
  instAt_setInstAt_same _ _ _

theorem getInst_setInst_other (s : State) {n m : Nat} (x : Inst) (h : m ≠ n) :
    getInst (setInst s n x) m = getInst s m :=
  instAt_setInstAt_other _ _ h

@[simp] theorem setInst_setInst (s : State) (n : Nat) (x y : Inst) :
    setInst (setInst s n x) n y = setInst s n y := by
  simp [setInst]

@[simp] theorem setInst_owner (s : State) (n : Nat) (x : Inst) : (setInst s n x).owner = s.owner := rfl
@[simp] theorem setInst_clkgen (s : State) (n : Nat) (x : Inst) : (setInst s n x).clkgen = s.clkgen := rfl
@[simp] theorem setInst_lockLine (s : State) (n : Nat) (x : Inst) : (setInst s n x).lockLine = s.lockLine := rfl
@[simp] theorem setInst_call (s : State) (n : Nat) (x : Inst) : (setInst s n x).call = s.call := rfl
@[simp] theorem setInst_irq (s : State) (n : Nat) (x : Inst) : (setInst s n x).irq = s.irq := rfl
@[simp] theorem setInst_ret (s : State) (n : Nat) (x : Inst) : (setInst s n x).ret = s.ret := rfl
@[simp] theorem setInst_sched (s : State) (n : Nat) (x : Inst) : (setInst s n x).sched = s.sched := rfl
@[simp] theorem setInst_turnNo (s : State) (n : Nat) (x : Inst) : (setInst s n x).turnNo = s.turnNo := rfl
@[simp] theorem setInst_freeNo (s : State) (n : Nat) (x : Inst) : (setInst s n x).freeNo = s.freeNo := rfl
@[simp] theorem setInst_sel (s : State) (n : Nat) (x : Inst) : (setInst s n x).sel = s.sel := rfl
@[simp] theorem setInst_grain (s : State) (n : Nat) (x : Inst) : (setInst s n x).grain = s.grain := rfl

@[simp] theorem this_setInst (s : State) (x : Inst) : this (setInst s s.sel x) = x :=
  getInst_setInst_same _ _ _

@[simp] theorem this_setThis (s : State) (x : Inst) : this (setThis s x) = x :=
  getInst_setInst_same _ _ _

@[simp] theorem setOwner_insts (s : State) (u : Fin 2) (v : Option Nat) : (setOwner s u v).insts = s.insts := rfl
@[simp] theorem setOwner_clkgen (s : State) (u : Fin 2) (v : Option Nat) : (setOwner s u v).clkgen = s.clkgen := rfl
@[simp] theorem setOwner_call (s : State) (u : Fin 2) (v : Option Nat) : (setOwner s u v).call = s.call := rfl
@[simp] theorem setOwner_irq (s : State) (u : Fin 2) (v : Option Nat) : (setOwner s u v).irq = s.irq := rfl
@[simp] theorem getInst_setOwner (s : State) (u : Fin 2) (v : Option Nat) (n : Nat) :
    getInst (setOwner s u v) n = getInst s n := rfl

/-- A generator power-down changes the engines of the listed instances, each to its state without power. -/
theorem instAt_losePowerAll (k : Nat) (l : List Inst) (n : Nat) :
    (∃ j, instAt (losePowerAll k l) n = losePower j (instAt l n))
      ∨ (l.length ≤ n ∧ instAt (losePowerAll k l) n = instAt l n) := by
  induction l generalizing k n with
  | nil => exact .inr ⟨Nat.zero_le _, rfl⟩
  | cons x l ih =>
    cases n with
    | zero => exact .inl ⟨k, rfl⟩
    | succ n =>
      rcases ih (k + 7) n with ⟨j, h⟩ | ⟨h, h2⟩
      · exact .inl ⟨j, h⟩
      · exact .inr ⟨Nat.succ_le_succ h, h2⟩

@[simp] theorem powerDown_clkgen (s : State) : (powerDown s).clkgen = .idle := rfl
@[simp] theorem powerDown_owner (s : State) : (powerDown s).owner = s.owner := rfl
@[simp] theorem powerDown_lockLine (s : State) : (powerDown s).lockLine = s.lockLine := rfl
@[simp] theorem powerDown_call (s : State) : (powerDown s).call = s.call := rfl
@[simp] theorem powerDown_irq (s : State) : (powerDown s).irq = s.irq := rfl
@[simp] theorem powerDown_ret (s : State) : (powerDown s).ret = s.ret := rfl
@[simp] theorem powerDown_sched (s : State) : (powerDown s).sched = s.sched := rfl
@[simp] theorem powerDown_turnNo (s : State) : (powerDown s).turnNo = s.turnNo := rfl
@[simp] theorem powerDown_sel (s : State) : (powerDown s).sel = s.sel := rfl
@[simp] theorem powerDown_grain (s : State) : (powerDown s).grain = s.grain := rfl

/-- What a power-down leaves of any instance: its engine without power, or, where the instance is not listed and so as at
process start, all of it. -/
theorem getInst_powerDown (s : State) (n : Nat) :
    (∃ j, getInst (powerDown s) n = losePower j (getInst s n))
      ∨ (s.insts.length ≤ n ∧ getInst (powerDown s) n = getInst s n) :=
  instAt_losePowerAll _ _ _

/-- A record written reads back, known. -/
@[simp] theorem descAt_writeRecord_same (x : Inst) (i : BitVec 3) (d : Desc) :
    descAt (writeRecord x i d) i = ⟨true, d⟩ := by
  simp [descAt, writeRecord]

/-- Writing a record leaves the others. -/
theorem descAt_writeRecord_other (x : Inst) {i j : BitVec 3} (d : Desc) (h : j ≠ i) :
    descAt (writeRecord x i d) j = descAt x j := by
  have : i.toNat ≠ j.toNat := fun e => h (BitVec.eq_of_toNat_eq e.symm)
  simp [descAt, writeRecord, this]

@[simp] theorem descAt_editRecord_same (x : Inst) (i : BitVec 3) (g : Desc → Desc) :
    descAt (editRecord x i g) i = ⟨(descAt x i).known, g (descAt x i).body⟩ := by
  simp [descAt, editRecord]

theorem descAt_editRecord_other (x : Inst) {i j : BitVec 3} (g : Desc → Desc) (h : j ≠ i) :
    descAt (editRecord x i g) j = descAt x j := by
  have : i.toNat ≠ j.toNat := fun e => h (BitVec.eq_of_toNat_eq e.symm)
  simp [descAt, editRecord, this]

/-- Every instance meets a property if those listed do and one at process start does. -/
theorem getInst_of_all {P : Inst → Prop} (s : State) (h : ∀ x ∈ s.insts, P x) (h0 : P Inst.atStart) (n : Nat) :
    P (getInst s n) := by
  unfold getInst
  generalize s.insts = l at h
  induction l generalizing n with
  | nil => exact h0
  | cons x l ih =>
    cases n with
    | zero => exact h x (by simp)
    | succ n => exact ih n (fun y hy => h y (List.mem_cons_of_mem _ hy))

end Sys2Proof.Machine
end

