-- ==== Sys2Proof/Laws/Sequencer.lean ====
section
/-! SUPPORT. What `Load`, `Complete`, a unit transfer and a `SERVICE` step can do, said once. -/

namespace Sys2Proof.Machine

open Sys2Proof

/-- `Load` succeeds exactly on a loadable record, and leaves the position R160 says and nothing else. -/
theorem load_eq_ok (i : BitVec 3) (x y : Inst) :
    load i x = .ok y ↔ loadable (descAt x i) ∧
      y = { x with cur := i, w := (descAt x i).body, srcCur := (descAt x i).body.src,
                   cntRem := (fieldsOf (descAt x i).body).count } := by
  unfold load loadable
  generalize descAt x i = e
  rcases e with ⟨kn, b⟩
  simp only
  split
  · rename_i h
    simp only [Bool.or_eq_true, Bool.not_eq_true', beq_iff_eq] at h
    constructor
    · intro h2; cases h2
    · rintro ⟨⟨h1, h2, h3, h4, h5, -⟩, -⟩
      simp_all
  · rename_i h
    simp only [Bool.or_eq_true, Bool.not_eq_true', beq_iff_eq, not_or] at h
    split
    · rename_i h6
      constructor
      · intro h2; cases h2
      · rintro ⟨⟨-, -, -, -, -, h2⟩, -⟩
        exact absurd h2 h6
    · rename_i h6
      constructor
      · intro h2
        cases h2
        exact ⟨⟨by simpa using h.1.1.1.1, h.1.1.1.2, h.1.1.2, h.1.2, by simpa using h.2, by simpa using h6⟩, rfl⟩
      · rintro ⟨-, rfl⟩
        rfl

/-- `Load` of a loadable record. -/
theorem load_of_loadable {i : BitVec 3} {x : Inst} (h : loadable (descAt x i)) :
    load i x = .ok { x with cur := i, w := (descAt x i).body, srcCur := (descAt x i).body.src,
                            cntRem := (fieldsOf (descAt x i).body).count } :=
  (load_eq_ok _ _ _).2 ⟨h, rfl⟩

/-- A failing `Load` raises one of its two faults, with the index. -/
theorem load_error {i : BitVec 3} {x : Inst} {e : Fault} (h : load i x = .error e) :
    e = .reservedDescriptor i ∨ e = .misalignedSource i := by
  unfold load at h
  simp only at h
  split at h
  · cases h; exact .inl rfl
  · split at h
    · cases h; exact .inr rfl
    · cases h

theorem SequencerOnly.refl (x : Inst) : SequencerOnly x x := rfl

theorem SequencerOnly.trans {x y z : Inst} (h1 : SequencerOnly x y) (h2 : SequencerOnly y z) : SequencerOnly x z := by
  unfold SequencerOnly at *
  rw [h2]
  rw [h1]

theorem load_frame {i : BitVec 3} {x y : Inst} (h : load i x = .ok y) : SequencerOnly x y := by
  obtain ⟨-, rfl⟩ := (load_eq_ok _ _ _).1 h
  rfl

theorem complete_frame {f : Fields} {x y : Inst} (h : complete f x = .ok y) : SequencerOnly x y := by
  unfold complete at h
  have h0 : SequencerOnly x (if f.inten then raiseIrq x else x) := by split <;> rfl
  simp only at h
  split at h
  · cases h
    exact h0.trans rfl
  · exact h0.trans (load_frame h)

theorem writeReg_frame (r : BitVec 2) (v : Word) (x : Inst) : SequencerOnly x (writeReg r v x) := by
  unfold writeReg
  split <;> rfl

theorem advance_frame (f : Fields) (x : Inst) : SequencerOnly x (advance f x) := rfl

/-- A record is admitted exactly where the constant words hold their constants and the record stands at its place with
the fields of R95. -/
theorem admitted_iff {k : Kind} {f : Fields} {x : Inst} :
    admitted k f x = true ↔ x.zeroWord = ZERO ∧ x.onesWord = ONES ∧ CanonicalAt k f x := by
  rcases f with ⟨src, dst, sadv, inten, dstop, next, rsvd, count⟩
  cases k
  case data =>
    simp only [admitted, constantsOk, CanonicalAt, dataCanonical, segNext, Bool.and_eq_true, beq_iff_eq,
      decide_eq_true_eq, Bool.not_eq_true', Fields.mk.injEq, true_and, and_assoc]
    refine and_congr_right fun _ => and_congr_right fun _ => ⟨?_, ?_⟩
    · rintro ⟨h1, h2, h3, hw, h4, h5, h6, h7, h8, h9, h10, h11⟩
      refine ⟨x.cur.toNat - 2, by omega, by omega, by omega, hw, h9, h10, h4, h5, h6, h7, h11, h8, trivial⟩
    · rintro ⟨i, h1, h2, h3, hw, h9, h10, h4, h5, h6, h7, h11, h8, -⟩
      have hi : x.cur.toNat - 2 = i := by omega
      rw [hi]
      exact ⟨by omega, by omega, by omega, hw, h4, h5, h6, h7, h8, h9, h10, h11⟩
  case gap => simp [admitted, constantsOk, CanonicalAt, gapFields, beq_eq_decide, and_assoc]
  all_goals simp [admitted, constantsOk, CanonicalAt, primeFields, gateHiFields, closeFields, and_assoc]

/-- No fault keeps a unit transfer from being made exactly where the record has no reserved bits, its source is mapped
and the kind's check passes. -/
theorem transferFault_eq_none {check : Inst → Option Fault} {f : Fields} {x : Inst} :
    transferFault check f x = none ↔
      f.reservedBits = false ∧ (∃ v, memRead x x.srcCur = some v) ∧ check x = none := by
  unfold transferFault
  cases f.reservedBits <;> cases hm : memRead x x.srcCur <;> simp

/-- A unit transfer that nothing keeps from being made, of a record that is admitted, has its effect. -/
theorem transfer_eq_effect {k : Kind} {check : Inst → Option Fault} {effect : Inst → Inst} {f : Fields} {x : Inst}
    {v : Word} (hr : f.reservedBits = false) (hv : memRead x x.srcCur = some v) (hc : check x = none)
    (ha : admitted k f x = true) : transfer k check effect f x = transferEffect effect f v x := by
  have h0 : transferFault check f x = none := transferFault_eq_none.2 ⟨hr, ⟨v, hv⟩, hc⟩
  simp [transfer, h0, ha, hv]

/-- A unit transfer of a record that is not admitted is refused, where no fault comes first (R98). -/
theorem transfer_not_admitted {k : Kind} {check : Inst → Option Fault} {effect : Inst → Inst} {f : Fields} {x : Inst}
    (h0 : transferFault check f x = none) (ha : admitted k f x = false) :
    transfer k check effect f x = .error (.refuse (.notAdmitted x.cur)) := by
  simp [transfer, h0, ha]

theorem completeStep_ok {f : Fields} {x y : Inst} (h : completeStep f x = .ok y) : complete f x = .ok y := by
  unfold completeStep at h
  split at h
  · cases h; assumption
  · cases h

/-- A unit transfer that succeeds (R161): the record has no reserved bits, its source is mapped, the kind's check
passes, the record is admitted, and the result is the completion of the advanced state, or that state itself. -/
theorem transfer_ok {k : Kind} {check : Inst → Option Fault} {effect : Inst → Inst} {f : Fields} {x y : Inst}
    (h : transfer k check effect f x = .ok y) :
    f.reservedBits = false ∧ check x = none ∧ admitted k f x = true ∧ ∃ v, memRead x x.srcCur = some v ∧
      (let z := advance f (writeReg f.dst v (effect x))
       (z.cntRem = 0 ∧ complete f z = .ok y) ∨ (z.cntRem ≠ 0 ∧ y = z)) := by
  rcases h0 : transferFault check f x with _ | e
  · obtain ⟨hr, ⟨v, hv⟩, hc⟩ := transferFault_eq_none.1 h0
    rcases ha : admitted k f x with _ | _
    · rw [transfer_not_admitted h0 ha] at h; cases h
    · rw [transfer_eq_effect hr hv hc ha, transferEffect] at h
      refine ⟨hr, hc, rfl, v, hv, ?_⟩
      dsimp only
      split at h
      · exact .inl ⟨‹_›, completeStep_ok h⟩
      · cases h; exact .inr ⟨‹_›, rfl⟩
  · simp [transfer, h0] at h

theorem transfer_frame {k : Kind} {check : Inst → Option Fault} {effect : Inst → Inst} {f : Fields} {x y : Inst}
    (he : SequencerOnly x (effect x)) (h : transfer k check effect f x = .ok y) : SequencerOnly x y := by
  obtain ⟨-, -, -, v, -, h | h⟩ := transfer_ok h
  · exact (he.trans ((writeReg_frame _ _ _).trans (advance_frame _ _))).trans (complete_frame h.2)
  · rw [h.2]; exact he.trans ((writeReg_frame _ _ _).trans (advance_frame _ _))

/-- The record executed is a unit transfer of its own kind (R161). -/
theorem unitTransfer_frame {x y : Inst} (h : unitTransfer x = .ok y) : SequencerOnly x y := by
  unfold unitTransfer at h
  split at h
  · exact transfer_frame (.refl _) h
  · exact transfer_frame (.refl _) h
  · exact transfer_frame (.refl _) h
  · exact transfer_frame (effect := forgetDsec) rfl h
  · exact transfer_frame (.refl _) h
  · cases h
  · cases h
  · cases h

theorem serviceLoop_frame (n : Nat) {x y : Inst} (h : serviceLoop n x = .ok y) : SequencerOnly x y := by
  induction n generalizing x with
  | zero => cases h; rfl
  | succ n ih =>
    unfold serviceLoop at h
    split at h
    · cases h
    · rename_i z hz
      split at h
      · exact (unitTransfer_frame hz).trans (ih h)
      · cases h; exact unitTransfer_frame hz

/-- A `SERVICE` step writes nothing but what the sequencer may write (R20, R60, R270). -/
theorem serviceInst_frame {x y : Inst} (h : serviceInst x = .ok y) : SequencerOnly x y :=
  serviceLoop_frame _ h

/-- One pass of the loop. -/
theorem serviceLoop_succ (n : Nat) (x : Inst) :
    serviceLoop (n + 1) x = (match unitTransfer x with
      | .error e => .error e
      | .ok y => if y.mid && y.run then serviceLoop n y else .ok y) := rfl

/-- The loop of a `SERVICE` step has at least the three passes a well-formed chain needs (R161). -/
theorem serviceInst_eq (x : Inst) : serviceInst x = serviceLoop (524285 + 3) x := rfl

/-- `TDC_START` on an instance (R172). -/
theorem startChain_ok {x : Inst} (h : loadable (descAt x 0)) :
    startChain x = .ok { x with cur := 0, w := (descAt x 0).body, srcCur := (descAt x 0).body.src,
                                cntRem := (fieldsOf (descAt x 0).body).count, run := true, mid := false } := by
  unfold startChain
  rw [load_of_loadable h]

/-- A hardware step that answers a next state. -/
theorem hardware_next {s t : State} {g : Inst → Except Stop Inst} (h : hardware s g = .next t) :
    ∃ x, g (this s) = .ok x ∧ t = setThis s x := by
  unfold hardware at h
  split at h
  · cases h; exact ⟨_, ‹_›, rfl⟩
  · cases h
  · cases h

/-- A unit transfer's step that answers a next state (R14): not enabled, nothing happens. -/
theorem unitStep_next {s t : State} {g : Inst → Except Stop Inst} (h : unitStep s g = .next t) :
    (serviceEnabled (this s) = false ∧ t = s) ∨
      (serviceEnabled (this s) = true ∧ ∃ x, g (this s) = .ok x ∧ t = setThis s x) := by
  unfold unitStep at h
  split at h
  · exact .inr ⟨‹_›, hardware_next h⟩
  · cases h; exact .inl ⟨Bool.eq_false_iff.2 ‹_›, rfl⟩

end Sys2Proof.Machine
end

