-- ==== Sys2Proof/Laws/Calls.lean ====
section
/-! SUPPORT. How a host operation that is free to begin runs: its one micro-step, or all of them; and what a source word
reads as. -/

namespace Sys2Proof.Machine

open Sys2Proof

/-- Nothing in progress: the operation is taken up. -/
theorem asCall_idle {s : State} (h : idle s) (k : State → Step) : asCall s k = k s := by
  simp [asCall, inHandler, inCall, h.1, h.2]

/-- An operation of one micro-step, in either grain. -/
theorem callOp_one {s : State} (h : idle s) (m : Micro) :
    callOp [m] s = (match runMicro s.sel m s with
      | .done t => .next { t with call := [] }
      | .waits => .next { s with call := [(s.sel, m)] }
      | .faults f => .fault f
      | .refuses r => .refused r) := by
  rw [callOp, asCall_idle h]
  rcases hg : s.grain <;> simp only [micros, List.map, runCall, stepCall] <;>
    cases runMicro s.sel m s <;> simp [hg]

/-- An operation taken up whole. -/
theorem callOp_whole {s : State} (h : idleWhole s) (l : List Micro) : callOp l s = runCall (micros s.sel l) s := by
  rw [callOp, asCall_idle h.1, h.2]

/-- An accessor is taken up in either of its contexts. -/
theorem asAccessor_free {s : State} (h : canAccess s) (k : State → Step) : asAccessor s k = k s := by
  unfold asAccessor
  rcases hi : s.irq with _ | ⟨e, l⟩
  · have hc : s.call = [] := by rcases h with h | h; exacts [absurd hi h, h]
    rw [if_neg (by simp [inHandler, hi]), asCall_idle ⟨hc, hi⟩]
  · rw [if_pos (by simp [inHandler, hi])]

/-- An accessor that has nothing to write, its operands out of range (R225). -/
theorem accessorOp_none {s : State} (h : canAccess s) (hg : s.grain = .whole) : accessorOp [] s = .next s := by
  unfold accessorOp
  rcases hi : s.irq with _ | ⟨e, l⟩
  · have hc : s.call = [] := by rcases h with h | h; exacts [absurd hi h, h]
    rw [if_neg (by simp [inHandler, hi]), callOp_whole ⟨⟨hc, hi⟩, hg⟩]
    cases s; simp_all [micros, runCall]
  · simp [inHandler, hi, hg, micros, runNested]

/-- The writes of a colour accessor, one after another on the instance of the turn (R225). -/
def setBits (l : List (Word × Bool)) (ch : Nat) (b : Buffer) : Buffer :=
  l.foldl (fun b p => writeBit b p.1 ch p.2) b

theorem setBits_micro (s : State) (n : Nat) (a : Word) (ch : Nat) (v : Bool) :
    runMicro n (.setBit a ch v) s
      = .done (setInst s n { getInst s n with buf := writeBit (getInst s n).buf a ch v }) := rfl

theorem runNested_setBits (l : List (Word × Bool)) (ch n : Nat) (s : State) (x : Inst) :
    runNested (l.map fun p => (n, .setBit p.1 ch p.2)) (setInst s n x)
      = .next (setInst s n { x with buf := setBits l ch x.buf }) := by
  induction l generalizing x with
  | nil => rfl
  | cons p l ih =>
    simp only [List.map_cons, runNested, setBits_micro, getInst_setInst_same, setInst_setInst]
    exact ih _

theorem runCall_setBits (l : List (Word × Bool)) (ch n : Nat) (s : State) (x : Inst) (hc : s.call = []) :
    runCall (l.map fun p => (n, .setBit p.1 ch p.2)) (setInst s n x)
      = .next (setInst s n { x with buf := setBits l ch x.buf }) := by
  induction l generalizing x with
  | nil =>
    simp only [List.map_nil, runCall]
    cases s; simp_all [setInst, setBits]
  | cons p l ih =>
    simp only [List.map_cons, runCall, setBits_micro, getInst_setInst_same, setInst_setInst]
    exact ih _

/-- A colour accessor that writes, taken whole from call context or from inside a handler run (R225): its writes land on
the buffer of the instance of the turn, and nothing else changes. -/
theorem accessorOp_setBits {s : State} (h : canAccess s) (hg : s.grain = .whole) (p : Word × Bool)
    (l : List (Word × Bool)) (ch : Nat) :
    accessorOp ((p :: l).map fun p => .setBit p.1 ch p.2) s
      = .next (setThis s { this s with buf := setBits (p :: l) ch (this s).buf }) := by
  have hm : micros s.sel ((p :: l).map fun p => Micro.setBit p.1 ch p.2)
      = (s.sel, .setBit p.1 ch p.2) :: l.map fun p => (s.sel, .setBit p.1 ch p.2) := by simp [micros]
  unfold accessorOp
  rcases hi : s.irq with _ | ⟨e, k⟩
  · have hc : s.call = [] := by rcases h with h | h; exacts [absurd hi h, h]
    rw [if_neg (by simp [inHandler, hi]), callOp_whole ⟨⟨hc, hi⟩, hg⟩, hm]
    exact runCall_setBits l ch s.sel s _ hc
  · rw [if_pos (by simp [inHandler, hi]), hg, hm]
    exact runNested_setBits l ch s.sel s _

/-- Writing the instance of the turn leaves an empty operation in progress empty. -/
theorem setThis_call_nil {s : State} (h : s.call = []) (x : Inst) :
    ({ setThis s x with call := [] } : State) = setThis s x := by
  cases s; simp_all [setThis, setInst]

theorem memRead_zeroAddr {x : Inst} (h : isFrameWord x x.par.zeroAddr.toNat = false) :
    memRead x x.par.zeroAddr = some x.zeroWord := by
  simp [memRead, h]

theorem memRead_onesAddr {x : Inst} (h : isFrameWord x x.par.onesAddr.toNat = false)
    (h2 : x.par.onesAddr ≠ x.par.zeroAddr) : memRead x x.par.onesAddr = some x.onesWord := by
  simp [memRead, h, h2]

theorem memRead_frame {x : Inst} {a : Word} (h : isFrameWord x a.toNat = true) :
    memRead x a = some (dmaRead x.buf a.toNat) := by
  simp [memRead, h]

/-- `Load` of a record that is not loadable raises one of its two faults. -/
theorem load_of_not_loadable {i : BitVec 3} {x : Inst} (h : ¬loadable (descAt x i)) :
    load i x = .error (.reservedDescriptor i) ∨ load i x = .error (.misalignedSource i) := by
  rcases hl : load i x with e | y
  · rcases load_error hl with h | h <;> simp [h]
  · exact absurd ((load_eq_ok _ _ _).1 hl).1 h

end Sys2Proof.Machine
end

