-- ==== Sys2Proof/Laws/Memory.lean ====
section
/-! SUPPORT. The frame buffer: a read after a write, and that every memory operation keeps the canonical form. -/

namespace Sys2Proof.Machine

open Sys2Proof

@[simp] theorem find_write_same (m : Mem) (a : Nat) (v : Word) : Mem.find (Mem.write m a v) a = some v := by
  induction m with
  | nil => simp [Mem.find, Mem.write]
  | cons e m ih =>
    obtain ⟨k, w⟩ := e
    unfold Mem.write
    split
    · simp [Mem.find]
    · split
      · simp [Mem.find]
      · have : k ≠ a := fun e => by simp_all
        simp [Mem.find, this, ih]

theorem find_write_other (m : Mem) {a b : Nat} (v : Word) (h : b ≠ a) :
    Mem.find (Mem.write m a v) b = Mem.find m b := by
  induction m with
  | nil => simp [Mem.find, Mem.write, Ne.symm h]
  | cons e m ih =>
    obtain ⟨k, w⟩ := e
    unfold Mem.write
    split
    · simp [Mem.find, Ne.symm h]
    · split
      · rename_i h2; subst h2; simp [Mem.find, Ne.symm h]
      · simp only [Mem.find, ih]

theorem rising_cons {a : Nat} {l : List Nat} : rising (a :: l) = true ↔ (∀ b ∈ l.head?, a < b) ∧ rising l = true := by
  cases l <;> simp [rising]

theorem rising_tail {a : Nat} {l : List Nat} (h : rising (a :: l) = true) : rising l = true :=
  (rising_cons.1 h).2

theorem head_write (m : Mem) (a : Nat) (v : Word) :
    ((Mem.write m a v).map Prod.fst).head? = some (match (m.map Prod.fst).head? with
      | none => a | some k => min a k) := by
  cases m with
  | nil => rfl
  | cons e m =>
    obtain ⟨k, w⟩ := e
    unfold Mem.write
    split
    · simp; omega
    · split
      · simp; omega
      · simp; omega

/-- Writing a word keeps the canonical form. -/
theorem write_wf (m : Mem) (a : Nat) (v : Word) (h : Mem.wf m = true) : Mem.wf (Mem.write m a v) = true := by
  unfold Mem.wf at *
  induction m with
  | nil => rfl
  | cons e m ih =>
    obtain ⟨k, w⟩ := e
    have h1 := rising_cons.1 h
    unfold Mem.write
    split
    · exact rising_cons.2 ⟨by simpa using ‹a < k›, h⟩
    · split
      · rename_i h2; subst h2; exact h
      · rename_i h2 h3
        refine rising_cons.2 ⟨?_, ih h1.2⟩
        rw [head_write]
        intro b hb
        have hk := h1.1
        cases hm : (m.map Prod.fst).head? with
        | none => simp only [hm, Option.mem_def, Option.some.injEq] at hb; show k < b; omega
        | some c =>
          have : k < c := hk c hm
          simp only [hm, Option.mem_def, Option.some.injEq] at hb
          rw [← hb]
          exact lt_min (by omega : k < a) this

theorem head_addAddr (l : List Nat) (a : Nat) :
    (addAddr l a).head? = some (match l.head? with | none => a | some k => min a k) := by
  cases l with
  | nil => rfl
  | cons k l => unfold addAddr; split <;> [skip; split] <;> simp <;> omega

/-- Adding an address keeps the canonical form. -/
theorem addAddr_rising (l : List Nat) (a : Nat) (h : rising l = true) : rising (addAddr l a) = true := by
  induction l with
  | nil => rfl
  | cons k l ih =>
    have h1 := rising_cons.1 h
    unfold addAddr
    split
    · exact rising_cons.2 ⟨by simpa using ‹a < k›, h⟩
    · split
      · exact h
      · refine rising_cons.2 ⟨?_, ih h1.2⟩
        rw [head_addAddr]
        intro b hb
        have hk := h1.1
        cases hm : l.head? with
        | none => simp [hm] at hb; omega
        | some c => have := hk c (by simp [hm]); simp [hm] at hb; omega

@[simp] theorem mem_addAddr (l : List Nat) (a b : Nat) : b ∈ addAddr l a ↔ b = a ∨ b ∈ l := by
  induction l with
  | nil => simp [addAddr]
  | cons k l ih =>
    unfold addAddr
    split <;> [skip; split] <;> simp_all; tauto

theorem rising_iff_pairwise (l : List Nat) : rising l = true ↔ l.Pairwise (· < ·) := by
  induction l with
  | nil => simp [rising]
  | cons a l ih =>
    rw [rising_cons, ih, List.pairwise_cons]
    constructor
    · rintro ⟨h1, h2⟩
      refine ⟨?_, h2⟩
      cases l with
      | nil => simp
      | cons b l =>
        have hb := h1 b rfl
        intro c hc
        rcases List.mem_cons.1 hc with rfl | hc
        · exact hb
        · exact lt_trans hb ((List.pairwise_cons.1 h2).1 c hc)
    · rintro ⟨h1, h2⟩
      exact ⟨fun b hb => h1 b (List.mem_of_mem_head? hb), h2⟩

/-- Taking addresses away keeps the canonical form. -/
theorem filter_rising (l : List Nat) (p : Nat → Bool) (h : rising l = true) : rising (l.filter p) = true :=
  (rising_iff_pairwise _).2 (((rising_iff_pairwise _).1 h).filter p)

theorem carry_wf (b : Buffer) (l : List Nat) (m : Mem) (h : Mem.wf m = true) : Mem.wf (carry b l m) = true := by
  induction l generalizing m with
  | nil => exact h
  | cons a l ih => exact ih _ (write_wf _ _ _ h)

/-- What `carry` leaves in the DMA view: the CPU view's word at each address carried, the rest as before. -/
theorem find_carry (b : Buffer) (l : List Nat) (m : Mem) (a : Nat) :
    Mem.find (carry b l m) a = if a ∈ l then some (hostRead b a) else Mem.find m a := by
  induction l generalizing m with
  | nil => simp [carry]
  | cons k l ih =>
    rw [carry, ih]
    by_cases hl : a ∈ l
    · simp [hl]
    · by_cases hk : a = k
      · subst hk; simp
      · simp [hl, hk, find_write_other _ _ hk]

/-- The canonical form, said part by part. -/
theorem buffer_wf_iff (b : Buffer) :
    b.wf = true ↔ Mem.wf b.cpuv = true ∧ Mem.wf b.dmav = true ∧ rising b.dirty = true := by
  simp [Buffer.wf, and_assoc]

theorem hostWrite_wf (b : Buffer) (a : Nat) (v : Word) (h : b.wf = true) : (hostWrite b a v).wf = true := by
  rw [buffer_wf_iff] at *
  exact ⟨write_wf _ _ _ h.1, h.2.1, addAddr_rising _ _ h.2.2⟩

theorem flushBuf_wf (b : Buffer) (addr len : Nat) (h : b.wf = true) : (flushBuf b addr len).wf = true := by
  rw [buffer_wf_iff] at *
  exact ⟨h.1, carry_wf _ _ _ h.2.1, filter_rising _ _ h.2.2⟩

theorem writebackBuf_wf (b : Buffer) (a : Nat) (h : b.wf = true) : (writebackBuf b a).wf = true := by
  rw [buffer_wf_iff] at *
  exact ⟨h.1, write_wf _ _ _ h.2.1, filter_rising _ _ h.2.2⟩

theorem writeBit_wf (b : Buffer) (a : Word) (ch : Nat) (bit : Bool) (h : b.wf = true) :
    (writeBit b a ch bit).wf = true :=
  hostWrite_wf _ _ _ h

theorem zeroWords_wf (base n k : Nat) (b : Buffer) (h : b.wf = true) : (zeroWords base n k b).wf = true := by
  induction n generalizing k b with
  | zero => exact h
  | succ n ih => exact ih _ _ (hostWrite_wf _ _ _ h)

theorem zeroAndFlush_wf (x : Inst) (h : x.buf.wf = true) : (zeroAndFlush x).buf.wf = true :=
  flushBuf_wf _ _ _ (zeroWords_wf _ _ _ _ h)

/-- A host read after a host write (R70). -/
@[simp] theorem hostRead_hostWrite_same (b : Buffer) (a : Nat) (v : Word) : hostRead (hostWrite b a v) a = v := by
  simp [hostRead, hostWrite]

theorem hostRead_hostWrite_other (b : Buffer) {a c : Nat} (v : Word) (h : c ≠ a) :
    hostRead (hostWrite b a v) c = hostRead b c := by
  simp [hostRead, hostWrite, find_write_other _ _ h]

/-- A host write does not reach the DMA view (R70). -/
@[simp] theorem dmaRead_hostWrite (b : Buffer) (a c : Nat) (v : Word) :
    dmaRead (hostWrite b a v) c = dmaRead b c := rfl

/-- Everything a flush does (R72): the CPU view stays, a covered dirty word is carried over, every other word of the
DMA view stays, and the covered words are clean. -/
theorem flushBuf_spec (b : Buffer) (addr len a : Nat) :
    hostRead (flushBuf b addr len) a = hostRead b a
      ∧ (dmaRead (flushBuf b addr len) a
          = if a ∈ b.dirty ∧ covers addr len a = true then hostRead b a else dmaRead b a)
      ∧ (a ∈ (flushBuf b addr len).dirty ↔ a ∈ b.dirty ∧ covers addr len a = false) := by
  refine ⟨rfl, ?_, by simp [flushBuf]⟩
  simp only [dmaRead, flushBuf, find_carry, List.mem_filter]
  split <;> simp_all

/-- Everything a write-back does (R71). -/
theorem writebackBuf_spec (b : Buffer) (a c : Nat) :
    hostRead (writebackBuf b a) c = hostRead b c
      ∧ dmaRead (writebackBuf b a) c = (if c = a then hostRead b a else dmaRead b c)
      ∧ (c ∈ (writebackBuf b a).dirty ↔ c ∈ b.dirty ∧ c ≠ a) := by
  refine ⟨rfl, ?_, by simp [writebackBuf]⟩
  by_cases h : c = a
  · subst h; simp [dmaRead, writebackBuf]
  · simp [dmaRead, writebackBuf, find_write_other _ _ h, h]

end Sys2Proof.Machine
end

