-- ==== Sys2Proof/Laws/Moves.lean ====
section
/-! SUPPORT. What one step of the machine can do to one instance, said once (`InstMove`, `step_moves`), from which every
invariant of an instance is a case analysis (`step_keeps`). -/

namespace Sys2Proof.Machine

open Sys2Proof

/-- The changes a step makes to an instance, one constructor per primitive of the rules. -/
inductive InstMove : Inst → Inst → Prop where
  | pteEnable (x : Inst) (sd ld : BitVec 16) (h : divisorsOk sd ld = true) : InstMove x (enableEngine sd ld x)
  | pteDisable (x : Inst) : InstMove x { x with en := false }
  | buildRecord (x : Inst) (i : BitVec 3) (h : x.run = false) (ha : addressesOk x = true) :
      InstMove x (writeRecord x i (builtRecord x x.activePtr i))
  | attach (x : Inst) (h : chainOk x = true) : InstMove x { x with irqAttached := true }
  | start (x y : Inst) (h0 : x.run = false) (h : startChain x = .ok y) : InstMove x y
  | runOff (x : Inst) : InstMove x { x with run := false }
  | detach (x : Inst) : InstMove x { x with irqAttached := false }
  | flush (x : Inst) (addr len : Nat) : InstMove x { x with buf := flushBuf x.buf addr len }
  | swapPtrs (x : Inst) : InstMove x { x with activePtr := x.inactivePtr, inactivePtr := x.activePtr }
  | armed (x : Inst) (b : Bool) : InstMove x (setArmed x b)
  | setBit (x : Inst) (a : Word) (ch : Nat) (b : Bool) : InstMove x { x with buf := writeBit x.buf a ch b }
  | claim (x : Inst) (u : Fin 2) : InstMove x { x with unitNo := some u }
  | zeroFlush (x : Inst) : InstMove x (zeroAndFlush x)
  | initDone (x : Inst) : InstMove x { x with initialized := true }
  | clearInit (x : Inst) : InstMove x { x with unitNo := none, initialized := false }
  | retarget (x : Inst) (i : Nat) : InstMove x (retargetSegment x i)
  | ack (x : Inst) : InstMove x (ackIrq x)
  | setType (x : Inst) (c : Fin 32) (t : ChType) (h : t = .four → x.cap = .four) :
      InstMove x (writeChannelType c t x)
  | construct (x : Inst) (leds : Nat) (cap : Cap) (mode : Mode) (k : Nat)
      (h1 : leds = 0 ∨ segments (leds * depthOf cap) x.par ≤ 4) (h2 : chTypesOk cap x.par.chtypeInit = true) :
      InstMove x (constructInst leds cap mode k x)
  | latch (x : Inst) (c : ClkGen) (h : latchEnabled c x = true) : InstMove x (latchInst x)
  | losePower (x : Inst) (k : Nat) : InstMove x (Machine.losePower k x)
  | writeback (x : Inst) (a : Nat) (h : a ∈ x.buf.dirty) : InstMove x { x with buf := writebackBuf x.buf a }
  | unit (x y : Inst) (h : unitTransfer x = .ok y) : InstMove x y

/-- Any number of changes, one after another. -/
abbrev Moves : Inst → Inst → Prop := Relation.ReflTransGen InstMove

/-- A step's effect on all instances. -/
def AllMove (s t : State) : Prop := ∀ n, Moves (getInst s n) (getInst t n)

theorem AllMove.refl (s : State) : AllMove s s := fun _ => .refl

theorem AllMove.trans {s t u : State} (h1 : AllMove s t) (h2 : AllMove t u) : AllMove s u :=
  fun n => (h1 n).trans (h2 n)

/-- Writing one instance moves that one only. -/
theorem allMove_setInst {s : State} {n : Nat} {x : Inst} (h : Moves (getInst s n) x) : AllMove s (setInst s n x) := by
  intro m
  by_cases hm : m = n
  · subst hm; simpa using h
  · rw [getInst_setInst_other _ _ hm]

theorem allMove_onInst {s t : State} {n : Nat} {g : Inst → Inst} (h : onInst s n g = .done t)
    (hg : InstMove (getInst s n) (g (getInst s n))) : AllMove s t := by
  cases h
  exact allMove_setInst (.single hg)

/-- A micro-step that is done moves only its instance, by one primitive change or none. -/
theorem runMicro_moves {n : Nat} {m : Micro} {s t : State} (h : runMicro n m s = .done t) : AllMove s t := by
  cases m <;> simp only [runMicro] at h
  case pteEnable sd ld =>
    unfold microPteEnable at h
    split at h
    · exact allMove_onInst h (.pteEnable _ _ _ ‹_›)
    · cases h
  case pteDisable => exact allMove_onInst h (.pteDisable _)
  case buildRecord i =>
    unfold microBuildRecord at h
    split at h
    · cases h
    · split at h
      · cases h
      · exact allMove_onInst h (.buildRecord _ _ (by simpa using ‹¬(getInst s n).run = true›) (by simp_all))
  case buildEnd =>
    unfold microBuildEnd at h
    split at h
    · exact allMove_onInst h (.attach _ ‹_›)
    · cases h
  case tdcStart =>
    unfold microTdcStart onInstE at h
    split at h
    · cases h
    · split at h
      · cases h
        exact allMove_setInst (.single (.start _ _ (by simpa using ‹¬(getInst s n).run = true›) ‹_›))
      · cases h
  case runOff => exact allMove_onInst h (.runOff _)
  case detach => exact allMove_onInst h (.detach _)
  case flush a l => exact allMove_onInst h (.flush _ _ _)
  case swapPtrs => exact allMove_onInst h (.swapPtrs _)
  case flushActive => exact allMove_onInst h (.flush _ _ _)
  case arm => exact allMove_onInst h (.armed _ _)
  case spinStopped =>
    split at h
    · cases h
    · cases h; exact .refl _
  case setBit a c b => exact allMove_onInst h (.setBit _ _ _ _)
  case claim u => exact allMove_onInst (s := setOwner s u (some n)) h (.claim _ _)
  case zeroFlush => exact allMove_onInst h (.zeroFlush _)
  case pinsConfigure p => cases h; exact .refl _
  case clkPowerUp =>
    unfold microClkPowerUp at h
    split at h
    · cases h; exact .refl _
    · cases h
  case initDone => exact allMove_onInst (s := { s with ret := .bool true }) h (.initDone _)
  case pinsRelease => cases h; exact .refl _
  case clkPowerDown =>
    unfold microClkPowerDown at h
    split at h
    · cases h
      intro k
      rcases getInst_powerDown s k with ⟨j, hj⟩ | ⟨-, hj⟩
      · rw [hj]; exact .single (.losePower _ _)
      · rw [hj]
    · cases h; exact .refl _
  case unclaim =>
    unfold microUnclaim at h
    split at h
    · cases h; exact .refl _
    · split at h <;> (cases h; exact .refl _)
  case clearInit => exact allMove_onInst h (.clearInit _)
  case disarm => exact allMove_onInst h (.armed _ _)
  case retarget i => exact allMove_onInst h (.retarget _ _)
  case ack => exact allMove_onInst h (.ack _)

theorem runCall_moves {l : List (Nat × Micro)} {s t : State} (h : runCall l s = .next t) : AllMove s t := by
  induction l generalizing s with
  | nil => cases h; exact .refl _
  | cons p l ih =>
    obtain ⟨n, m⟩ := p
    unfold runCall at h
    split at h
    · exact (runMicro_moves ‹_›).trans (ih h)
    · cases h; exact .refl _
    · cases h
    · cases h

theorem stepCall_moves {l : List (Nat × Micro)} {s t : State} (h : stepCall l s = .next t) : AllMove s t := by
  cases l with
  | nil => cases h; exact .refl _
  | cons p l =>
    obtain ⟨n, m⟩ := p
    simp only [stepCall] at h
    split at h
    · rename_i u hu
      cases h
      exact fun k => runMicro_moves hu k
    · cases h; exact .refl _
    · cases h
    · cases h

theorem runIrq_moves {l : List (Nat × Micro)} {s t : State} (h : runIrq l s = .next t) : AllMove s t := by
  induction l generalizing s with
  | nil => cases h; exact .refl _
  | cons p l ih =>
    obtain ⟨n, m⟩ := p
    unfold runIrq at h
    split at h
    · exact (runMicro_moves ‹_›).trans (ih h)
    · cases h; exact .refl _
    · cases h
    · cases h

theorem stepIrq_moves {l : List (Nat × Micro)} {s t : State} (h : stepIrq l s = .next t) : AllMove s t := by
  cases l with
  | nil => cases h; exact .refl _
  | cons p l =>
    obtain ⟨n, m⟩ := p
    simp only [stepIrq] at h
    split at h
    · rename_i u hu
      cases h
      exact fun k => runMicro_moves hu k
    · cases h; exact .refl _
    · cases h
    · cases h

/-- A host operation that answers a next state was free to begin. -/
theorem asCall_next {s t : State} {k : State → Step} (h : asCall s k = .next t) :
    inHandler s = false ∧ inCall s = false ∧ k s = .next t := by
  unfold asCall at h
  split at h
  · cases h
  · split at h
    · cases h
    · exact ⟨Bool.eq_false_iff.2 ‹_›, Bool.eq_false_iff.2 ‹_›, h⟩

theorem callOp_moves {l : List Micro} {s t : State} (h : callOp l s = .next t) : AllMove s t := by
  obtain ⟨-, -, h⟩ := asCall_next h
  split at h
  · exact runCall_moves h
  · exact stepCall_moves h

theorem runNested_moves {l : List (Nat × Micro)} {s t : State} (h : runNested l s = .next t) : AllMove s t := by
  induction l generalizing s with
  | nil => cases h; exact .refl _
  | cons p l ih =>
    obtain ⟨n, m⟩ := p
    unfold runNested at h
    split at h
    · exact (runMicro_moves ‹_›).trans (ih h)
    · cases h; exact .refl _
    · cases h
    · cases h

theorem stepNested_moves {l : List (Nat × Micro)} {s t : State} (h : stepNested l s = .next t) : AllMove s t := by
  cases l with
  | nil => cases h; exact .refl _
  | cons p l =>
    obtain ⟨n, m⟩ := p
    simp only [stepNested] at h
    split at h
    · rename_i u hu
      cases h
      exact fun k => runMicro_moves hu k
    · cases h; exact .refl _
    · cases h
    · cases h

theorem accessorOp_moves {l : List Micro} {s t : State} (h : accessorOp l s = .next t) : AllMove s t := by
  unfold accessorOp at h
  split at h
  · split at h
    · exact runNested_moves h
    · exact stepNested_moves h
  · exact callOp_moves h

/-- An accessor that answers a next state answers what its continuation does. -/
theorem asAccessor_next {s t : State} {k : State → Step} (h : asAccessor s k = .next t) : k s = .next t := by
  unfold asAccessor at h
  split at h
  · exact h
  · exact (asCall_next h).2.2

theorem enterHandler_moves {s t : State} (h : enterHandler s = .next t) : AllMove s t := by
  unfold enterHandler at h
  split at h
  · cases h; exact .refl _
  · split at h
    · cases h; exact .refl _
    · split at h
      · cases h; exact .refl _
      · split at h
        · exact runIrq_moves h
        · exact stepIrq_moves h

theorem serviceLoop_moves (n : Nat) {x y : Inst} (h : serviceLoop n x = .ok y) : Moves x y := by
  induction n generalizing x with
  | zero => cases h; exact .refl
  | succ n ih =>
    unfold serviceLoop at h
    split at h
    · cases h
    · rename_i z hz
      split at h
      · exact (Relation.ReflTransGen.single (.unit _ _ hz)).trans (ih h)
      · cases h; exact .single (.unit _ _ hz)

theorem unitStep_moves {s t : State} {g : Inst → Except Stop Inst} (h : unitStep s g = .next t)
    (hg : ∀ y, g (this s) = .ok y → unitTransfer (this s) = .ok y) : AllMove s t := by
  rcases unitStep_next h with ⟨-, rfl⟩ | ⟨-, x, hx, rfl⟩
  · exact .refl _
  · exact allMove_setInst (.single (.unit _ _ (hg _ hx)))

/-- Executing any instruction that is not a record moves each instance by primitive changes. -/
theorem exec_moves {i : Instr} {s t : State} (h : exec i s = .next t)
    (hi : isRecord i = false) : AllMove s t := by
  cases i with
  | prime f => cases hi
  | gateHi f => cases hi
  | data f => cases hi
  | close f => cases hi
  | gap f => cases hi
  | reservedKind5 f => cases hi
  | reservedKind6 f => cases hi
  | reservedKind7 f => cases hi
  | pteEnable sd ld => exact callOp_moves h
  | pteDisable => exact callOp_moves h
  | tdcBuild => exact callOp_moves h
  | tdcStart => exact callOp_moves h
  | tdcDisable => exact callOp_moves h
  | flush a l => exact callOp_moves h
  | requestSwap =>
    simp only [exec, execRequestSwap] at h
    obtain ⟨-, -, h⟩ := asCall_next h
    split at h
    · exact callOp_moves h
    · cases h
    · cases h
  | irqHandler => exact enterHandler_moves h
  | bufferReady =>
    simp only [exec, execBufferReady] at h
    obtain ⟨-, -, h⟩ := asCall_next h
    cases h
    exact .refl _
  | flipBuffers => exact callOp_moves h
  | flushBuffer => exact callOp_moves h
  | setChannelType ch ty =>
    simp only [exec, execSetChannelType] at h
    obtain ⟨-, -, h⟩ := asCall_next h
    split at h
    · cases h; exact .refl _
    · rename_i c t' hc
      cases h
      refine allMove_setInst (.single (.setType _ _ _ ?_))
      intro h4
      unfold channelTypeTarget at hc
      split at hc
      · split at hc
        · cases hc
        · split at hc
          · cases hc
          · rename_i hn
            cases hc
            cases hcap : (this s).cap with
            | three => exact absurd ⟨h4, hcap⟩ hn
            | four => exact hcap
      · cases hc
  | setActiveColor ch idx col => exact accessorOp_moves h
  | setInactiveColor ch idx col => exact accessorOp_moves h
  | getActiveColor ch idx =>
    simp only [exec, execGetActiveColor] at h
    have h := asAccessor_next h
    cases h
    exact .refl _
  | getInactiveColor ch idx =>
    simp only [exec, execGetInactiveColor] at h
    have h := asAccessor_next h
    cases h
    exact .refl _
  | construct leds cap mode =>
    simp only [exec, execConstruct] at h
    obtain ⟨-, -, h⟩ := asCall_next h
    split at h
    · cases h
    · split at h
      · cases h
      · cases h
        refine allMove_setInst (.single (.construct _ _ _ _ _ (by
          change leds.toNat = 0 ∨ segments _ (this s).par ≤ 4
          omega) ?_))
        change chTypesOk cap (this s).par.chtypeInit = true
        simpa using ‹¬(!chTypesOk cap (this s).par.chtypeInit) = true›
  | initialise u p =>
    simp only [exec, execInitialise] at h
    obtain ⟨-, -, h⟩ := asCall_next h
    split at h
    · cases h; exact .refl _
    · exact callOp_moves h
  | teardown => exact callOp_moves h
  | latch =>
    simp only [exec, execLatch] at h
    split at h
    · obtain ⟨x, hx, rfl⟩ := hardware_next h
      cases hx
      exact allMove_setInst (.single (.latch _ _ ‹_›))
    · cases h; exact .refl _
  | service =>
    simp only [exec, execService] at h
    split at h
    · obtain ⟨x, hx, rfl⟩ := hardware_next h
      exact allMove_setInst (serviceLoop_moves _ hx)
    · cases h; exact .refl _
  | writeback a =>
    simp only [exec, execWriteback] at h
    split at h
    · obtain ⟨x, hx, rfl⟩ := hardware_next h
      cases hx
      exact allMove_setInst (.single (.writeback _ _ ‹_›))
    · cases h; exact .refl _

/-- The unit transfer of the loaded record (R161). -/
theorem exec_loaded_moves {s t : State} (h : exec (decodeRecord (this s).w) s = .next t) : AllMove s t := by
  unfold decodeRecord at h
  cases hk : kindOf (this s).w <;> rw [hk] at h <;> simp only [instrOfRecord, exec] at h
  case prime => exact unitStep_moves h (fun y hy => by simpa [unitTransfer, hk] using hy)
  case gateHi => exact unitStep_moves h (fun y hy => by simpa [unitTransfer, hk] using hy)
  case data => exact unitStep_moves h (fun y hy => by simpa [unitTransfer, hk] using hy)
  case close => exact unitStep_moves h (fun y hy => by simpa [unitTransfer, hk] using hy)
  case gap => exact unitStep_moves h (fun y hy => by simpa [unitTransfer, hk] using hy)
  all_goals cases h

/-- What the decoder's operand readers answer comes from their continuation. -/
theorem operands32_ok {P : Instr → Prop} {op : Byte} {r r' : List Byte} {k : Word → Instr} {i : Instr}
    (hk : ∀ x, P (k x)) (h : operands32 op r k = .ok (i, r')) : P i := by
  unfold operands32 at h
  split at h
  · cases h
  · cases h; exact hk _

theorem operands32x2_ok {P : Instr → Prop} {op : Byte} {r r' : List Byte} {k : Word → Word → Instr} {i : Instr}
    (hk : ∀ x y, P (k x y)) (h : operands32x2 op r k = .ok (i, r')) : P i := by
  unfold operands32x2 at h
  split at h
  · cases h
  · split at h
    · cases h
    · cases h; exact hk _ _

theorem operands16x2_ok {P : Instr → Prop} {op : Byte} {r r' : List Byte} {k : BitVec 16 → BitVec 16 → Instr}
    {i : Instr} (hk : ∀ x y, P (k x y)) (h : operands16x2 op r k = .ok (i, r')) : P i := by
  unfold operands16x2 at h
  split at h
  · cases h
  · split at h
    · cases h
    · cases h; exact hk _ _

theorem operands8x2_ok {P : Instr → Prop} {op : Byte} {r r' : List Byte} {k : Byte → Byte → Instr} {i : Instr}
    (hk : ∀ x y, P (k x y)) (h : operands8x2 op r k = .ok (i, r')) : P i := by
  unfold operands8x2 at h
  split at h
  · cases h
  · split at h
    · cases h
    · cases h; exact hk _ _

theorem operandsChIdx_ok {P : Instr → Prop} {op : Byte} {r r' : List Byte} {k : Byte → Word → Instr} {i : Instr}
    (hk : ∀ x y, P (k x y)) (h : operandsChIdx op r k = .ok (i, r')) : P i := by
  unfold operandsChIdx at h
  split at h
  · cases h
  · exact operands32_ok (hk _) h

theorem operandsChIdxCol_ok {P : Instr → Prop} {op : Byte} {r r' : List Byte} {k : Byte → Word → Word → Instr}
    {i : Instr} (hk : ∀ x y z, P (k x y z)) (h : operandsChIdxCol op r k = .ok (i, r')) : P i := by
  unfold operandsChIdxCol at h
  split at h
  · cases h
  · exact operands32x2_ok (hk _) h

/-- No operation decodes to a record's instruction. -/
theorem decode_not_record {c : List Byte} {i : Instr} {r : List Byte} (h : decode c = .ok (i, r)) :
    isRecord i = false := by
  unfold decode at h
  split at h
  · cases h
  · split at h <;> first
      | (cases h; rfl)
      | exact operands16x2_ok (P := (isRecord · = false)) (fun _ _ => rfl) h
      | exact operands32x2_ok (P := (isRecord · = false)) (fun _ _ => rfl) h
      | exact operands8x2_ok (P := (isRecord · = false)) (fun _ _ => rfl) h
      | exact operandsChIdxCol_ok (P := (isRecord · = false)) (fun _ _ _ => rfl) h
      | exact operandsChIdx_ok (P := (isRecord · = false)) (fun _ _ => rfl) h
      | exact operands32_ok (P := (isRecord · = false)) (fun _ => rfl) h
      | (unfold operandsConstruct at h; (repeat' split at h) <;> first | (cases h; rfl) | cases h)
      | (unfold operandsInitialise at h; split at h <;> first | (cases h; rfl) | cases h)
      | cases h

theorem decodeLine_not_record {c : List Byte} {i : Instr} (h : decodeLine c = .ok i) : isRecord i = false := by
  unfold decodeLine at h
  split at h
  · cases h; exact decode_not_record ‹_›
  · cases h

theorem passBound_iff {x : Inst} : passBound x = true ↔ InsideStep x := by
  simp [passBound, InsideStep, serviceEnabled, and_assoc]

theorem ownPass_iff {t : Turn} {s : State} : ownPass t s = true ↔ GoesOn t s := by
  cases t
  case op n g code =>
    rcases h : decodeLine code with e | i
    · simp [ownPass, GoesOn, h]
    · simp [ownPass, GoesOn, h, passBound_iff, and_comm]
  all_goals simp [ownPass, GoesOn, passBound_iff]

/-- Which turns are held, said of the registers (R302, R131 (c)). -/
theorem turnHeld_iff {t : Turn} {s : State} : turnHeld t s = true ↔ HeldTurn t s := by
  simp [turnHeld, HeldTurn, passBound_iff, ← ownPass_iff]

/-- Every step moves each instance by primitive changes only. -/
theorem step_moves {s t : State} (h : step s = .next t) : AllMove s t := by
  have hn : (nextTurn s).2.insts = s.insts := by unfold nextTurn; split <;> rfl
  have h0 : ∀ u : State, AllMove (nextTurn s).2 u → AllMove s u := by
    intro u hu n
    have := hu n
    unfold getInst at *
    rwa [hn] at this
  apply h0
  unfold step takeTurn at h
  split at h
  · cases h; exact .refl _
  · split at h
    · split at h
      · exact fun k => exec_moves h (decodeLine_not_record ‹_›) k
      · cases h
    · split at h
      · exact fun k => exec_loaded_moves (s := select _ .whole _) h k
      · cases h; exact .refl _
    · unfold callNext at h
      split at h
      · cases h; exact .refl _
      · exact stepCall_moves h
    · exact stepIrq_moves h
    · cases h; exact .refl _

theorem moves_keep {P : Inst → Prop} (hP : ∀ x y, InstMove x y → P x → P y) {x y : Inst} (h : Moves x y) (h0 : P x) :
    P y := by
  induction h with
  | refl => exact h0
  | tail _ hm ih => exact hP _ _ hm ih

/-- A property of an instance that every primitive change keeps is kept by every step. -/
theorem step_keeps {P : Inst → Prop} (hP : ∀ x y, InstMove x y → P x → P y) {s t : State} (h : step s = .next t)
    (n : Nat) (h0 : P (getInst s n)) : P (getInst t n) := by
  exact moves_keep hP (step_moves h n) h0

end Sys2Proof.Machine
end

