-- ==== Sys2Proof/Laws/PerInstr.lean ====
section
/-! SUPPORT. Statements made per instruction. `EncodedForm`: a format D row is encoded as a record whose `CTRL[2:0]` is
its number, any other row as bytes of which the first is its number, the numbers as 30_encoding.md R92 and R100 list
them. -/

namespace Sys2Proof.Laws

open Sys2Proof

/-- The number that selects a row: `KIND` for a record (R92), the operation number otherwise (R100). -/
def EncodedForm.number : Instr → Nat
  | .prime _ => 0x00
  | .gateHi _ => 0x01
  | .data _ => 0x02
  | .close _ => 0x03
  | .gap _ => 0x04
  | .reservedKind5 _ => 0x05
  | .reservedKind6 _ => 0x06
  | .reservedKind7 _ => 0x07
  | .pteEnable _ _ => 0x01
  | .pteDisable => 0x02
  | .tdcBuild => 0x03
  | .tdcStart => 0x04
  | .tdcDisable => 0x05
  | .flush _ _ => 0x06
  | .requestSwap => 0x07
  | .irqHandler => 0x08
  | .bufferReady => 0x09
  | .flipBuffers => 0x0A
  | .flushBuffer => 0x0B
  | .setChannelType _ _ => 0x0C
  | .setActiveColor _ _ _ => 0x0D
  | .setInactiveColor _ _ _ => 0x0E
  | .getActiveColor _ _ => 0x0F
  | .getInactiveColor _ _ => 0x10
  | .construct _ _ _ => 0x11
  | .initialise _ _ => 0x12
  | .teardown => 0x13
  | .latch => 0x20
  | .service => 0x21
  | .writeback _ => 0x22

/-- The encoded form of a row (R92, R99, R100). -/
def EncodedForm.Statement (i : Instr) : Prop :=
  match encode i with
  | .record d => isRecord i = true ∧ (d.ctrl.extractLsb' 0 3).toNat = EncodedForm.number i
  | .op bytes => isRecord i = false ∧ ∃ b r, bytes = b :: r ∧ b.toNat = EncodedForm.number i

theorem EncodedForm.record_number (k : Kind) (f : Fields) :
    (encodeCtrl k f).extractLsb' 0 3 = bitsOfKind k := by
  have h : kindOf (encodeRecord k f) = k := kindOf_encodeRecord k f
  rw [← bitsOfKind_kindOfBits ((encodeCtrl k f).extractLsb' 0 3)]
  exact congrArg bitsOfKind h

theorem EncodedForm.prime (f : Fields) : EncodedForm.Statement (.prime f) :=
  ⟨rfl, congrArg BitVec.toNat (EncodedForm.record_number .prime f)⟩

theorem EncodedForm.gateHi (f : Fields) : EncodedForm.Statement (.gateHi f) :=
  ⟨rfl, congrArg BitVec.toNat (EncodedForm.record_number .gateHi f)⟩

theorem EncodedForm.data (f : Fields) : EncodedForm.Statement (.data f) :=
  ⟨rfl, congrArg BitVec.toNat (EncodedForm.record_number .data f)⟩

theorem EncodedForm.close (f : Fields) : EncodedForm.Statement (.close f) :=
  ⟨rfl, congrArg BitVec.toNat (EncodedForm.record_number .close f)⟩

theorem EncodedForm.gap (f : Fields) : EncodedForm.Statement (.gap f) :=
  ⟨rfl, congrArg BitVec.toNat (EncodedForm.record_number .gap f)⟩

theorem EncodedForm.reservedKind5 (f : Fields) : EncodedForm.Statement (.reservedKind5 f) :=
  ⟨rfl, congrArg BitVec.toNat (EncodedForm.record_number .reserved5 f)⟩

theorem EncodedForm.reservedKind6 (f : Fields) : EncodedForm.Statement (.reservedKind6 f) :=
  ⟨rfl, congrArg BitVec.toNat (EncodedForm.record_number .reserved6 f)⟩

theorem EncodedForm.reservedKind7 (f : Fields) : EncodedForm.Statement (.reservedKind7 f) :=
  ⟨rfl, congrArg BitVec.toNat (EncodedForm.record_number .reserved7 f)⟩

theorem EncodedForm.pteEnable (sd ld : BitVec 16) : EncodedForm.Statement (.pteEnable sd ld) :=
  ⟨rfl, _, _, rfl, rfl⟩

theorem EncodedForm.pteDisable : EncodedForm.Statement .pteDisable :=
  ⟨rfl, _, _, rfl, rfl⟩

theorem EncodedForm.tdcBuild : EncodedForm.Statement .tdcBuild :=
  ⟨rfl, _, _, rfl, rfl⟩

theorem EncodedForm.tdcStart : EncodedForm.Statement .tdcStart :=
  ⟨rfl, _, _, rfl, rfl⟩

theorem EncodedForm.tdcDisable : EncodedForm.Statement .tdcDisable :=
  ⟨rfl, _, _, rfl, rfl⟩

theorem EncodedForm.flush (addr len : Word) : EncodedForm.Statement (.flush addr len) :=
  ⟨rfl, _, _, rfl, rfl⟩

theorem EncodedForm.requestSwap : EncodedForm.Statement .requestSwap :=
  ⟨rfl, _, _, rfl, rfl⟩

theorem EncodedForm.irqHandler : EncodedForm.Statement .irqHandler :=
  ⟨rfl, _, _, rfl, rfl⟩

theorem EncodedForm.bufferReady : EncodedForm.Statement .bufferReady :=
  ⟨rfl, _, _, rfl, rfl⟩

theorem EncodedForm.flipBuffers : EncodedForm.Statement .flipBuffers :=
  ⟨rfl, _, _, rfl, rfl⟩

theorem EncodedForm.flushBuffer : EncodedForm.Statement .flushBuffer :=
  ⟨rfl, _, _, rfl, rfl⟩

theorem EncodedForm.setChannelType (ch t : Byte) : EncodedForm.Statement (.setChannelType ch t) :=
  ⟨rfl, _, _, rfl, rfl⟩

theorem EncodedForm.setActiveColor (ch : Byte) (idx col : Word) : EncodedForm.Statement (.setActiveColor ch idx col) :=
  ⟨rfl, _, _, rfl, rfl⟩

theorem EncodedForm.setInactiveColor (ch : Byte) (idx col : Word) : EncodedForm.Statement (.setInactiveColor ch idx col) :=
  ⟨rfl, _, _, rfl, rfl⟩

theorem EncodedForm.getActiveColor (ch : Byte) (idx : Word) : EncodedForm.Statement (.getActiveColor ch idx) :=
  ⟨rfl, _, _, rfl, rfl⟩

theorem EncodedForm.getInactiveColor (ch : Byte) (idx : Word) : EncodedForm.Statement (.getInactiveColor ch idx) :=
  ⟨rfl, _, _, rfl, rfl⟩

theorem EncodedForm.construct (leds : Word) (cap : Cap) (mode : Mode) : EncodedForm.Statement (.construct leds cap mode) :=
  ⟨rfl, _, _, rfl, rfl⟩

theorem EncodedForm.initialise (unit : Byte) (pins : Pins) : EncodedForm.Statement (.initialise unit pins) :=
  ⟨rfl, _, _, rfl, rfl⟩

theorem EncodedForm.teardown : EncodedForm.Statement .teardown :=
  ⟨rfl, _, _, rfl, rfl⟩

theorem EncodedForm.latch : EncodedForm.Statement .latch :=
  ⟨rfl, _, _, rfl, rfl⟩

theorem EncodedForm.service : EncodedForm.Statement .service :=
  ⟨rfl, _, _, rfl, rfl⟩

theorem EncodedForm.writeback (a : Word) : EncodedForm.Statement (.writeback a) :=
  ⟨rfl, _, _, rfl, rfl⟩

end Sys2Proof.Laws
end

