-- ==== Sys2Proof/Tests/Slice0.lean ====
section
/-! SUPPORT. The model's own tests: the checks of WellFormed, words and bytes written out from the spec's encodings, the
vectors of 95_test_vectors.md, and for each statement with hypotheses a state and operands that meet them. -/

namespace Sys2Proof.Tests

set_option Elab.async false

open Sys2Proof Sys2Proof.Machine

/-! Helpers -/

/-- The next state of a step, if it answers one. -/
def nextOf : Step → Option State
  | .next t => some t
  | .fault _ => none
  | .refused _ => none

/-- The fault of a step, if it stops with one. -/
def faultOf : Step → Option Fault
  | .next _ => none
  | .fault e => some e
  | .refused _ => none

/-- The refusal of a step, if it ends in one. -/
def refusalOf : Step → Option Refusal
  | .next _ => none
  | .fault _ => none
  | .refused r => some r

/-- The vectors' parameters with a segment size and a gap. -/
def params (maxXfer gap : BitVec 16) : Params :=
  { Config.params with maxXfer := maxXfer, gapCount := gap }

/-- The words of T83's half 0. -/
def half0 : Mem :=
  (List.range 24).map fun k => (0x20200000 + 4 * k, if k = 0 ∨ k = 23 then 0x80000001 else 0x80000000)

/-- The table T50. -/
def table50 : Vector Entry 8 :=
  #v[⟨true, ⟨0x20001000, 0x00010108⟩⟩, ⟨true, ⟨0x20001004, 0x00010211⟩⟩, ⟨true, ⟨0x20200000, 0x00100322⟩⟩,
    ⟨true, ⟨0x20200040, 0x00080622⟩⟩, ⟨true, ⟨0x00000000, 0x00000007⟩⟩, ⟨true, ⟨0x00000000, 0x00000007⟩⟩,
    ⟨true, ⟨0x20001000, 0x00010713⟩⟩, ⟨true, ⟨0x20001000, 0x00040004⟩⟩]

/-- The configuration of T50 with its table built, the engine enabled, the chain stopped. -/
def built50 : Inst :=
  { Inst.atStart with
    par := params 16 4, leds := 1, cap := .three, mode := .double, en := true, req := true, shiftDiv := 2
    latchDiv := 64, desc := table50, irqAttached := true, activePtr := 0x20200000, inactivePtr := 0x20200060
    initialized := true, unitNo := some 0, buf := { cpuv := half0, dmav := half0, dirty := [], alloc := 1 } }

/-- The start of T83: the chain at the head of the ring. -/
def head50 : Inst :=
  { built50 with run := true, cur := 0, w := ⟨0x20001000, 0x00010108⟩, srcCur := 0x20001000, cntRem := 1 }

/-- `GATEHI` loaded, the channel primed. -/
def gateHi50 : Inst :=
  { head50 with dsec := some 0, cur := 1, w := ⟨0x20001004, 0x00010211⟩, srcCur := 0x20001004 }

/-- Word 14 of the first segment is next (T85), `n` words left. -/
def data50 (n : BitVec 16) : Inst :=
  { head50 with
    dsec := some 0, gate := ONES, cur := 2, w := ⟨0x20200000, 0x00100322⟩, srcCur := 0x2020003C, cntRem := n }

/-- `CLOSE` loaded, armed or not (T89). -/
def close50 (armed : Bool) : Inst :=
  { head50 with
    dsec := some 0, gate := ONES, dbuf := 0x80000001, cur := 6
    w := ⟨0x20001000, if armed then 0x00010753 else 0x00010713⟩, srcCur := 0x20001000, cntRem := 1 }

/-- The last zero of a stopping gap (T95): the paced chain of T50's shape. -/
def gapStop50 : Inst :=
  { head50 with
    mode := .paced, cur := 7, w := ⟨0x20001000, 0x00040084⟩, srcCur := 0x20001000, cntRem := 1
    desc := table50.set 7 ⟨true, ⟨0x20001000, 0x00040084⟩⟩ }

/-- The gap with `n` zeros left (T90 to T93). -/
def gap50 (n : BitVec 16) : Inst :=
  { head50 with cur := 7, w := ⟨0x20001000, 0x00040004⟩, srcCur := 0x20001000, cntRem := n }

/-- The gap just loaded by `CLOSE`, in one `SERVICE` step with its first zero (T89). -/
def closed50 : Inst :=
  { gap50 4 with dbuf := 0x80000001, mid := true }

/-- Process start with one instance. -/
def only (x : Inst) : State :=
  { State.reset with insts := [x], owner := #v[some 0, none], clkgen := .locked }

/-- A constructed instance that was never initialised, and a generator that reports lock. -/
def fresh (x : Inst) : State :=
  { State.reset with insts := [x], lockLine := true }

/-- The configuration of T50 after `CONSTRUCT`. -/
def constructed50 : Inst :=
  { Inst.atStart with
    par := params 16 4, leds := 1, cap := .three, mode := .double, inactivePtr := 0x20200060 }

/-- The engine's data path for the `LATCH` vectors. -/
def latching (dbuf gate : Word) (req : Bool) : State :=
  only { built50 with dbuf := dbuf, gate := gate, req := req, dsec := some 0 }

/-- Three LEDs, three channels, paced (T111), with a zero buffer. -/
def paced3 : Inst :=
  { Inst.atStart with
    par := params 100 240, leds := 3, cap := .three, mode := .paced, en := true, req := true, irqAttached := true
    initialized := true, unitNo := some 0
    desc :=
      #v[⟨true, ⟨0x20001000, 0x00010108⟩⟩, ⟨true, ⟨0x20001004, 0x00010211⟩⟩, ⟨true, ⟨0x20200000, 0x00480622⟩⟩,
        ⟨true, ⟨0x00000000, 0x00000007⟩⟩, ⟨true, ⟨0x00000000, 0x00000007⟩⟩, ⟨true, ⟨0x00000000, 0x00000007⟩⟩,
        ⟨true, ⟨0x20001000, 0x00010713⟩⟩, ⟨true, ⟨0x20001000, 0x00F00084⟩⟩]
    buf :=
      { cpuv := (List.range 72).map fun k => (0x20200000 + 4 * k, 0)
        dmav := (List.range 72).map fun k => (0x20200000 + 4 * k, 0)
        dirty := [], alloc := 1 } }

/-- Two LEDs, four channels, free-running (T33, T117), with a zero buffer. -/
def free2 : Inst :=
  { Inst.atStart with
    par := params 24 240, leds := 2, cap := .four, mode := .free, en := true, req := true
    chtype := (Vector.replicate 32 ChType.a).set 0 .four
    buf :=
      { cpuv := (List.range 64).map fun k => (0x20200000 + 4 * k, 0), dmav := [], dirty := [], alloc := 1 } }

/-! WellFormed: one ill-formed term for each check -/

/-- Canonical fields, as R95 and R96 give them. -/
def fPrime : Fields := ⟨0x20001000, 1, false, false, false, 1, 0, 1⟩
def fGateHi : Fields := ⟨0x20001004, 2, false, false, false, 2, 0, 1⟩
def fData : Fields := ⟨0x20200000, 0, true, false, false, 6, 0, 72⟩
def fClose : Fields := ⟨0x20001000, 2, false, true, false, 7, 0, 1⟩
def fGap : Fields := ⟨0x20001000, 0, false, false, true, 0, 0, 240⟩

theorem test_wellFormed_canonical :
    (Instr.prime fPrime).wellFormed = true ∧ (Instr.gateHi fGateHi).wellFormed = true
      ∧ (Instr.data fData).wellFormed = true ∧ (Instr.close fClose).wellFormed = true
      ∧ (Instr.gap fGap).wellFormed = true := by decide

theorem test_wellFormed_prime :
    (Instr.prime { fPrime with src := 0x20001002 }).wellFormed = false
      ∧ (Instr.prime { fPrime with dst := 2 }).wellFormed = false
      ∧ (Instr.prime { fPrime with sadv := true }).wellFormed = false
      ∧ (Instr.prime { fPrime with inten := true }).wellFormed = false
      ∧ (Instr.prime { fPrime with dstop := true }).wellFormed = false
      ∧ (Instr.prime { fPrime with next := 2 }).wellFormed = false
      ∧ (Instr.prime { fPrime with rsvd := 1 }).wellFormed = false
      ∧ (Instr.prime { fPrime with count := 0 }).wellFormed = false
      ∧ (Instr.prime { fPrime with count := 2 }).wellFormed = false := by decide

theorem test_wellFormed_gateHi :
    (Instr.gateHi { fGateHi with src := 0x20001003 }).wellFormed = false
      ∧ (Instr.gateHi { fGateHi with dst := 3 }).wellFormed = false
      ∧ (Instr.gateHi { fGateHi with sadv := true }).wellFormed = false
      ∧ (Instr.gateHi { fGateHi with inten := true }).wellFormed = false
      ∧ (Instr.gateHi { fGateHi with dstop := true }).wellFormed = false
      ∧ (Instr.gateHi { fGateHi with next := 3 }).wellFormed = false
      ∧ (Instr.gateHi { fGateHi with rsvd := 16 }).wellFormed = false
      ∧ (Instr.gateHi { fGateHi with count := 2 }).wellFormed = false := by decide

theorem test_wellFormed_data :
    (Instr.data { fData with src := 0x20200001 }).wellFormed = false
      ∧ (Instr.data { fData with dst := 1 }).wellFormed = false
      ∧ (Instr.data { fData with sadv := false }).wellFormed = false
      ∧ (Instr.data { fData with inten := true }).wellFormed = false
      ∧ (Instr.data { fData with dstop := true }).wellFormed = false
      ∧ (Instr.data { fData with next := 2 }).wellFormed = false
      ∧ (Instr.data { fData with next := 7 }).wellFormed = false
      ∧ (Instr.data { fData with rsvd := 1 }).wellFormed = false
      ∧ (Instr.data { fData with count := 0 }).wellFormed = false := by decide

theorem test_wellFormed_close :
    (Instr.close { fClose with src := 0x20001002 }).wellFormed = false
      ∧ (Instr.close { fClose with dst := 0 }).wellFormed = false
      ∧ (Instr.close { fClose with sadv := true }).wellFormed = false
      ∧ (Instr.close { fClose with dstop := true }).wellFormed = false
      ∧ (Instr.close { fClose with next := 0 }).wellFormed = false
      ∧ (Instr.close { fClose with rsvd := 1 }).wellFormed = false
      ∧ (Instr.close { fClose with count := 2 }).wellFormed = false := by decide

theorem test_wellFormed_gap :
    (Instr.gap { fGap with src := 0x20001002 }).wellFormed = false
      ∧ (Instr.gap { fGap with dst := 2 }).wellFormed = false
      ∧ (Instr.gap { fGap with sadv := true }).wellFormed = false
      ∧ (Instr.gap { fGap with inten := true }).wellFormed = false
      ∧ (Instr.gap { fGap with next := 7 }).wellFormed = false
      ∧ (Instr.gap { fGap with rsvd := 2 }).wellFormed = false
      ∧ (Instr.gap { fGap with count := 0 }).wellFormed = false := by decide

theorem test_wellFormed_others :
    (Instr.reservedKind5 fPrime).wellFormed = false ∧ (Instr.reservedKind6 fPrime).wellFormed = false
      ∧ (Instr.reservedKind7 fPrime).wellFormed = false ∧ (Instr.pteEnable 0 0).wellFormed = false
      ∧ (Instr.pteEnable 2 63).wellFormed = false ∧ (Instr.writeback 0x20200002).wellFormed = false := by decide

/-! Decoding: words and bytes written out from 30_encoding.md R91, R96, R100 (vectors T1 to T27) -/

theorem test_decode_prime : decodeRecord ⟨0x20001000, 0x00010108⟩ = .prime fPrime := by decide
theorem test_decode_gateHi : decodeRecord ⟨0x20001004, 0x00010211⟩ = .gateHi fGateHi := by decide
theorem test_decode_data : decodeRecord ⟨0x20200000, 0x00480622⟩ = .data fData := by decide
theorem test_decode_data_T9 :
    decodeRecord ⟨0x20200000, 0xFFFF0322⟩ = .data ⟨0x20200000, 0, true, false, false, 3, 0, 65535⟩ := by decide
theorem test_decode_close_armed : decodeRecord ⟨0x20001000, 0x00010753⟩ = .close fClose := by decide
theorem test_decode_close : decodeRecord ⟨0x20001000, 0x00010713⟩ = .close { fClose with inten := false } := by decide
theorem test_decode_gap_stop : decodeRecord ⟨0x20001000, 0x00F00084⟩ = .gap fGap := by decide
theorem test_decode_gap_T15 :
    decodeRecord ⟨0x20001000, 0x00040004⟩ = .gap ⟨0x20001000, 0, false, false, false, 0, 0, 4⟩ := by decide
theorem test_decode_reserved_T22 :
    decodeRecord ⟨0, 0x00010005⟩ = .reservedKind5 ⟨0, 0, false, false, false, 0, 0, 1⟩ := by decide
theorem test_decode_reserved6 :
    decodeRecord ⟨0, 0x00000006⟩ = .reservedKind6 ⟨0, 0, false, false, false, 0, 0, 0⟩ := by decide
theorem test_decode_reserved_T21 :
    decodeRecord ⟨0, 0x00000007⟩ = .reservedKind7 ⟨0, 0, false, false, false, 0, 0, 0⟩ := by decide
/-- T25: bit 11 is reserved. -/
theorem test_decode_reserved_bit_T25 :
    decodeRecord ⟨0, 0x00010908⟩ = .prime ⟨0, 1, false, false, false, 1, 1, 1⟩ := by decide
/-- T23: `DST = 3`. -/
theorem test_decode_dst_T23 :
    decodeRecord ⟨0, 0x00010018⟩ = .prime ⟨0, 3, false, false, false, 0, 0, 1⟩ := by decide

theorem test_decode_pteEnable : decodeLine [0x01, 0xFF, 0x07, 0xE0, 0xFF] = .ok (.pteEnable 2047 65504) := by decide
theorem test_decode_pteDisable : decodeLine [0x02] = .ok .pteDisable := by decide
theorem test_decode_tdcBuild : decodeLine [0x03] = .ok .tdcBuild := by decide
theorem test_decode_tdcStart : decodeLine [0x04] = .ok .tdcStart := by decide
theorem test_decode_tdcDisable : decodeLine [0x05] = .ok .tdcDisable := by decide
theorem test_decode_flush :
    decodeLine [0x06, 0x60, 0x00, 0x20, 0x20, 0x60, 0x00, 0x00, 0x00] = .ok (.flush 0x20200060 0x60) := by decide
theorem test_decode_requestSwap : decodeLine [0x07] = .ok .requestSwap := by decide
theorem test_decode_irqHandler : decodeLine [0x08] = .ok .irqHandler := by decide
theorem test_decode_bufferReady : decodeLine [0x09] = .ok .bufferReady := by decide
theorem test_decode_flipBuffers : decodeLine [0x0A] = .ok .flipBuffers := by decide
theorem test_decode_flushBuffer : decodeLine [0x0B] = .ok .flushBuffer := by decide
theorem test_decode_setChannelType : decodeLine [0x0C, 5, 1] = .ok (.setChannelType 5 1) := by decide
theorem test_decode_setActiveColor :
    decodeLine [0x0D, 0, 1, 0, 0, 0, 0xF0, 0xC3, 0xA5, 0xFF] = .ok (.setActiveColor 0 1 0xFFA5C3F0) := by decide
theorem test_decode_setInactiveColor :
    decodeLine [0x0E, 31, 2, 0, 0, 0, 0xFF, 0xFF, 0xFF, 0] = .ok (.setInactiveColor 31 2 0x00FFFFFF) := by decide
theorem test_decode_getActiveColor : decodeLine [0x0F, 32, 3, 0, 0, 0] = .ok (.getActiveColor 32 3) := by decide
theorem test_decode_getInactiveColor :
    decodeLine [0x10, 0, 0xFF, 0xFF, 0xFF, 0xFF] = .ok (.getInactiveColor 0 0xFFFFFFFF) := by decide
theorem test_decode_construct : decodeLine [0x11, 3, 0, 0, 0, 1, 1] = .ok (.construct 3 .four .free) := by decide
theorem test_decode_initialise : decodeLine [0x12, 5, 1, 2, 3] = .ok (.initialise 5 ⟨1, 2, 3⟩) := by decide
theorem test_decode_teardown : decodeLine [0x13] = .ok .teardown := by decide
theorem test_decode_latch : decodeLine [0x20] = .ok .latch := by decide
theorem test_decode_service : decodeLine [0x21] = .ok .service := by decide
theorem test_decode_writeback : decodeLine [0x22, 0x5C, 0x00, 0x20, 0x20] = .ok (.writeback 0x2020005C) := by decide

theorem test_decode_refuses :
    decodeLine [] = .error .empty ∧ decodeLine [0x00] = .error (.unknownOperation 0x00)
      ∧ decodeLine [0x14] = .error (.unknownOperation 0x14) ∧ decodeLine [0x1F] = .error (.unknownOperation 0x1F)
      ∧ decodeLine [0x23] = .error (.unknownOperation 0x23) ∧ decodeLine [0x01, 2] = .error (.truncated 0x01)
      ∧ decodeLine [0x11, 3, 0, 0, 0, 2, 0] = .error (.badOperand 0x11) := by decide

/-- A table row's word, as an operation and as a record. -/
theorem test_tableWord :
    decodeTableWord 8 0x20 = some .latch ∧ decodeTableWord 8 0x01 = some (.pteEnable 0 0)
      ∧ decodeTableWord 32 0x00000003 = some (.close ⟨0, 0, false, false, false, 0, 0, 0⟩) := by decide

/-- A placed operation is what the next step runs, a placed record the unit transfer it makes. -/
theorem test_withFetchWord :
    ((nextOf (step (State.reset.withFetchWord 8 0x09))).map fun t => t.ret) = some (.bool true)
      ∧ faultOf (step (State.reset.withFetchWord 64 0x07)) = some (.reservedDescriptor 0) := by decide +kernel

/-! The chain's arithmetic (X3, T30 to T45) -/

theorem test_sizes_X3 :
    (frameWords paced3, bufWords paced3, bufBytes paced3, base1 paced3) = (72, 72, 288, 0x20200000)
      ∧ (frameWords built50, bufWords built50, bufBytes built50, base1 built50) = (24, 48, 192, 0x20200060) := by
  decide

/-- T32, T33: counts, sources and links. -/
theorem test_segments_T33 :
    nData free2 = 3 ∧ (List.range 3).map (segCount free2) = [24, 24, 16]
      ∧ (List.range 3).map (segSrc free2 0) = [0, 0x60, 0xC0]
      ∧ (List.range 3).map (segNext free2) = [3, 4, 6] := by decide

theorem test_segments_T36_T38 :
    nData { built50 with par := params 6 4 } = 4 ∧ nData { built50 with par := params 5 4 } = 5
      ∧ segments 262112 (params 65535 4) = 4 ∧ segments 262144 (params 65535 4) = 5 := by decide

/-! The timing engine (T51 to T74) -/

/-- T51, T57: everything reset, then configured and started. -/
theorem test_pteEnable_T57 :
    ((nextOf (exec (.pteEnable 2 64) (only { built50 with dbuf := 0xFF, gate := ONES, dsec := some 0 }))).map
      fun t => ((this t).en, (this t).req, (this t).dbuf, (this t).gate, (this t).dsec, (this t).latchDiv))
      = some (true, true, 0, 0, none, 64) := rfl

/-- T55, T56. -/
theorem test_pteEnable_refuses :
    refusalOf (exec (.pteEnable 2 63) State.reset) = some .badDivisors
      ∧ refusalOf (exec (.pteEnable 0 0) State.reset) = some .badDivisors := by decide +kernel

/-- T58: `REQ` stays. -/
theorem test_pteDisable_T58 :
    ((nextOf (exec .pteDisable (only built50))).map fun t => ((this t).en, (this t).req, (this t).shiftDiv))
      = some (false, true, 2) := by decide +kernel

/-- T60, T65: the symbols of lines 0, 1, 2, 31, and the fault of a missing word. -/
theorem test_latch_T60_T65 :
    ((nextOf (exec .latch (latching 5 ONES false))).map fun t =>
      ((this t).out.map fun l => [l[0]?, l[1]?, l[2]?, l[31]?], (this t).req, (this t).faults))
      = some ([[some .pulse1, some .pulse0, some .pulse1, some .pulse0]], true, [])
    ∧ ((nextOf (exec .latch (latching 5 ONES true))).map fun t => (this t).faults) = some [.underrun 0] := by
  decide +kernel

/-- R275, R291: with the generator idle there is no slot, whatever `PTE.EN` is. -/
theorem test_latch_R275 :
    ((nextOf (exec .latch { latching 5 ONES false with clkgen := .idle })).map fun t => (this t).out) = some [] := by
  decide +kernel

/-- T66, T62. -/
theorem test_latch_T66_T62 :
    ((nextOf (exec .latch (latching 1 ZERO false))).map fun t => (this t).faults)
      = some [.unspecOutput 0 ZERO 1]
    ∧ ((nextOf (exec .latch (latching 0 ZERO true))).map fun t =>
        ((this t).faults, (this t).out.map fun l => l.all (· == .low))) = some ([], [true]) := by decide +kernel

/-- T70, T71: the last high tick and the first low one. -/
theorem test_wave :
    (wave Config.params .pulse0 7, wave Config.params .pulse0 8, wave Config.params .pulse1 15,
      wave Config.params .pulse1 16, wave Config.params .low 0, wave Config.params .unspec 0)
      = (some true, some false, some true, some false, some false, none) := by decide

/-! The sequencer (T75 to T100) -/

/-- T83: `PRIME`, `GATEHI` and word 0 in one step. -/
theorem test_service_T83 :
    ((nextOf (exec .service (only head50))).map fun t =>
      ((this t).cur, (this t).cntRem, (this t).srcCur, (this t).dbuf, (this t).gate, (this t).dsec, (this t).req))
      = some (2, 15, 0x20200004, 0x80000001, ONES, some 0, false) := rfl

/-- T90: `CLOSE` and the first gap zero, armed (T145). -/
theorem test_service_T90 :
    ((nextOf (exec .service (only (close50 true)))).map fun t =>
      ((this t).cur, (this t).cntRem, (this t).dbuf, (this t).gate, (this t).dsec, (this t).irqPend))
      = some (7, 3, 0, ZERO, none, true) := rfl

/-- T86: the last word of segment 0 loads segment 1. -/
theorem test_data_T86 :
    ((nextOf (exec (decodeRecord (data50 1).w) (only (data50 1)))).map fun t =>
      ((this t).cur, (this t).cntRem, (this t).srcCur, (this t).dbuf, (this t).req))
      = some (3, 8, 0x20200040, 0x80000000, false) := by decide +kernel

/-- R165's example. -/
theorem test_prime :
    ((nextOf (exec (.prime fPrime) (only head50))).map fun t => ((this t).dsec, (this t).cur, (this t).req))
      = some (some 0, 1, true) := by decide +kernel

/-- R166's example, and T100. -/
theorem test_gateHi :
    ((nextOf (exec (.gateHi fGateHi) (only gateHi50))).map fun t =>
      ((this t).gate, (this t).cur, (this t).srcCur, (this t).cntRem)) = some (0xFFFFFFFF, 2, 0x20200000, 16)
    ∧ faultOf (exec (.gateHi fGateHi) (only { gateHi50 with dsec := none })) = some .spuriousLeadBit := by
  decide +kernel

/-- R168's example. -/
theorem test_close :
    ((nextOf (exec (.close fClose) (only (close50 true)))).map fun t =>
      ((this t).gate, (this t).irqPend, (this t).dsec, (this t).cur, (this t).cntRem))
      = some (0, true, none, 7, 4) := by decide +kernel

/-- T93, T95: the last zero loops or stops. -/
theorem test_gap :
    ((nextOf (exec (.gap { fGap with count := 4, dstop := false }) (only (gap50 1)))).map fun t =>
      ((this t).cur, (this t).cntRem, (this t).run)) = some (0, 1, true)
    ∧ ((nextOf (exec (.gap { fGap with count := 4 }) (only gapStop50))).map fun t =>
      ((this t).cur, (this t).cntRem, (this t).run)) = some (7, 0, false) := by decide +kernel

/-- R17: the stop at the end of the gap ends a run; process start and a chain disabled in its stream do not. -/
theorem test_finished_R17 :
    (∃ t, exec (.gap { fGap with count := 4 }) (only gapStop50) = .next t ∧ finished t 0)
      ∧ ¬finished State.reset 0 ∧ ¬finished (only { data50 11 with mode := .paced, run := false }) 0 :=
  ⟨⟨_, rfl, by unfold finished gapCompleted clean; decide +kernel⟩, by unfold finished gapCompleted clean; decide +kernel,
    by unfold finished gapCompleted clean; decide +kernel⟩

/-- R98: T26's `DATA` with `SADV = 0` and T27's `PRIME` with `INTEN = 1` are not admitted, nor is a record at another
kind's index; a constant word with another value admits none (R63). -/
theorem test_notAdmitted_R98 :
    refusalOf (exec (.data ⟨0x20200000, 0, false, false, false, 3, 0, 16⟩) (only (data50 3))) = some (.notAdmitted 2)
      ∧ refusalOf (exec (.prime { fPrime with inten := true }) (only head50)) = some (.notAdmitted 0)
      ∧ refusalOf (exec (.prime fPrime) (only { head50 with cur := 1 })) = some (.notAdmitted 1)
      ∧ refusalOf (exec (.prime fPrime) (only { head50 with onesWord := 1 })) = some (.notAdmitted 0) := by
  decide +kernel

/-- R302: between `PRIME` and `GATEHI` a turn of the host takes no step, and the sequencer's own does. -/
theorem test_held_R302 :
    ((nextOf (step { only { gateHi50 with mid := true } with sched := [.op 0 .whole [0x01, 2, 0, 64, 0]] })).map fun t =>
      ((this t).dsec, t.sched)) = some (some 0, [])
    ∧ ((nextOf (step { only { gateHi50 with mid := true } with sched := [.unit 0] })).map fun t => (this t).gate)
      = some ONES := by decide +kernel

/-- R131 (c), R174: between `CLOSE` and the first gap zero a `TDC_DISABLE` takes no step, and the sequencer's own turn writes
the zero. -/
theorem test_held_R131 :
    ((nextOf (step { only closed50 with sched := [.op 0 .micro [0x05]] })).map fun t => ((this t).run, t.call, t.sched))
      = some (true, [], [])
    ∧ ((nextOf (step { only closed50 with sched := [.unit 0] })).map fun t => ((this t).gate, (this t).dbuf, (this t).mid))
      = some (ZERO, 0, false) := by decide +kernel

/-- R14: a unit turn where `SERVICE` is not enabled takes no step, whatever is loaded. -/
theorem test_unit_not_enabled_R14 :
    ((nextOf (step { only { built50 with w := ⟨0, 0x00000007⟩ } with sched := [.unit 0] })).map fun t => t.sched)
      = some [] := by decide +kernel

/-- T99. -/
theorem test_unmapped_T99 :
    faultOf (exec (.data fData) (only { data50 3 with srcCur := 0x30000000 }))
      = some (.unmappedSource 0x30000000) := by decide +kernel

theorem test_reservedKinds :
    faultOf (exec (.reservedKind5 fPrime) (only head50)) = some (.reservedDescriptor 0)
      ∧ faultOf (exec (.reservedKind6 fPrime) (only head50)) = some (.reservedDescriptor 0)
      ∧ faultOf (exec (.reservedKind7 fPrime) (only head50)) = some (.reservedDescriptor 0) := by decide +kernel

/-- T77 to T80: which fault of `Load`, and which first. -/
theorem test_load_faults :
    (match load 4 built50 with | .error e => some e | .ok _ => none) = some (.reservedDescriptor 4)
      ∧ (match load 2 (writeRecord built50 2 ⟨0x20200002, 0x00100322⟩) with | .error e => some e | .ok _ => none)
        = some (.misalignedSource 2)
      ∧ (match load 2 (writeRecord built50 2 ⟨0x20200002, 0x00000007⟩) with | .error e => some e | .ok _ => none)
        = some (.reservedDescriptor 2)
      ∧ (match load 0 Inst.atStart with | .error e => some e | .ok _ => none) = some (.reservedDescriptor 0) := by
  decide +kernel

/-- T81, T82. -/
theorem test_tdcStart :
    ((nextOf (exec .tdcStart (only { built50 with cur := 7, cntRem := 0 }))).map fun t =>
      ((this t).run, (this t).cur, (this t).cntRem, (this t).srcCur)) = some (true, 0, 1, 0x20001000)
    ∧ refusalOf (exec .tdcStart (only head50)) = some .chainRunning := by decide +kernel

/-- T97: the gate is left open and the next `LATCH` underruns. -/
theorem test_tdcDisable_T97 :
    ((nextOf (exec .tdcDisable (only (data50 11)))).map fun t =>
      ((this t).run, (this t).irqAttached, (this t).gate,
        (nextOf (exec .latch t)).map fun u => (this u).faults))
      = some (false, false, ONES, some [.underrun 0]) := by decide +kernel

/-- T50, the table built. -/
theorem test_tdcBuild_T50 :
    ((nextOf (exec .tdcBuild (only { constructed50 with irqAttached := false }))).map fun t =>
      ((this t).desc, (this t).irqAttached)) = some (table50, true) := by decide +kernel

/-- T48, T49. -/
theorem test_tdcBuild_T48_T49 :
    ((nextOf (exec .tdcBuild (only paced3))).map fun t => (this t).desc) = some paced3.desc
    ∧ ((nextOf (exec .tdcBuild (only free2))).map fun t => (this t).desc.map fun e => (e.body.src, e.body.ctrl))
      = some #v[(0x20001000, 0x00010108), (0x20001004, 0x00010211), (0x20200000, 0x00180322),
          (0x20200060, 0x00180422), (0x202000C0, 0x00100622), (0x00000000, 0x00000007),
          (0x20001000, 0x00010713), (0x20001000, 0x00F00004)] := by decide +kernel

/-! The swap synchronizer (T101 to T109) -/

/-- T101. -/
theorem test_requestSwap_T101 :
    ((nextOf (exec .requestSwap
        (only { built50 with buf := { built50.buf with dirty := [0x2020005C, 0x20200060, 0x202000BC] } }))).map
      fun t =>
        ((this t).activePtr, (this t).inactivePtr, (descAt (this t) 6).body.ctrl, (this t).buf.dirty,
          (descAt (this t) 2).body.src))
      = some (0x20200060, 0x20200000, 0x00010753, [0x2020005C], 0x20200000) := by decide +kernel

/-- T102. -/
theorem test_irqHandler_T102 :
    ((nextOf (exec .irqHandler
        (only (setArmed { built50 with irqPend := true, activePtr := 0x20200060, inactivePtr := 0x20200000 } true)))).map
      fun t =>
        ((descAt (this t) 6).body.ctrl, (descAt (this t) 2).body.src, (descAt (this t) 3).body.src, (this t).irqPend,
          (this t).activePtr))
      = some (0x00010713, 0x20200060, 0x202000A0, false, 0x20200060) := by decide +kernel

/-- T146: detached, no handler. -/
theorem test_irqHandler_T146 :
    ((nextOf (exec .irqHandler (only { built50 with irqPend := true, irqAttached := false }))).map fun t =>
      (this t).irqPend) = some true := by decide +kernel

/-- T104. -/
theorem test_requestSwap_T104 : refusalOf (exec .requestSwap (only free2)) = some .notDoubleBuffered := by
  decide +kernel

/-- T105, T106. -/
theorem test_bufferReady :
    ((nextOf (exec .bufferReady (only head50))).map State.ret) = some (.bool true)
    ∧ ((nextOf (exec .bufferReady (only { paced3 with run := true }))).map State.ret) = some (.bool false)
    ∧ ((nextOf (exec .bufferReady (only paced3))).map State.ret) = some (.bool true) := by decide +kernel

/-- T108: all clean, nothing else. -/
theorem test_flipBuffers_T108 :
    ((nextOf (exec .flipBuffers (only { free2 with buf := hostWrite free2.buf 0x202000FC 9 }))).map fun t =>
      ((this t).buf.dirty, dmaRead (this t).buf 0x202000FC, (this t).run)) = some ([], 9, false) := by decide +kernel

/-- R200's example, and the spin while a transfer runs; T109 by the alias. -/
theorem test_flushBuffer_paced :
    ((nextOf (exec .flushBuffer (only paced3))).map fun t => ((this t).run, (this t).cur, t.call))
      = some (true, 0, [])
    ∧ ((nextOf (exec .flushBuffer (only { paced3 with run := true }))).map State.call)
      = some [(0, .spinStopped), (0, .tdcStart)] := by decide +kernel

/-! The codec (T111 to T122) -/

/-- T111: bit 0 of words 24 to 47, and 24 dirty words. -/
theorem test_setActiveColor_T111 :
    ((nextOf (exec (.setActiveColor 0 1 0x00A5C3F0) (only paced3))).map fun t =>
      ((List.range 24).map fun k => (hostRead (this t).buf (0x20200060 + 4 * k)).toNat, (this t).buf.dirty.length))
      = some ([1, 0, 1, 0, 0, 1, 0, 1, 1, 1, 0, 0, 0, 0, 1, 1, 1, 1, 1, 1, 0, 0, 0, 0], 24) := by decide +kernel

/-- T115: out of range, nothing. -/
theorem test_setActiveColor_T115 :
    nextOf (exec (.setActiveColor 32 0 7) (only paced3)) = some (only paced3)
      ∧ nextOf (exec (.setActiveColor 0 3 7) (only paced3)) = some (only paced3) := by decide +kernel

/-- T117: the stride of a three-channel line in a buffer of capacity four. -/
theorem test_setInactiveColor_T117 :
    ((nextOf (exec (.setInactiveColor 1 1 0x00FFFFFF) (only free2))).map fun t =>
      (hostRead (this t).buf 0x2020005C, hostRead (this t).buf 0x20200060, hostRead (this t).buf 0x202000BC,
        hostRead (this t).buf 0x202000C0)) = some (0, 2, 2, 0) := by decide +kernel

/-- R225, R292: an accessor called inside a handler run, with an operation of call context interrupted. -/
theorem test_accessor_in_handler_R225 :
    ((nextOf (exec (.setActiveColor 0 1 0x00A5C3F0)
        { only paced3 with irq := [(0, .ack)], call := [(0, .detach)], grain := .micro })).map fun t =>
      (hostRead (this t).buf 0x20200060, t.irq.length, t.call)) = some (1, 24, [(0, .detach)])
    ∧ ((nextOf (exec (.getActiveColor 0 0) { only built50 with irq := [(0, .ack)] })).map fun t => (t.ret, t.irq))
      = some (.color 0x00800001, [(0, .ack)]) := by decide +kernel

/-- T112, T116: what a written buffer reads back. -/
theorem test_getActiveColor :
    ((nextOf (exec (.getActiveColor 31 0) (only built50))).map State.ret) = some (.color 0x00FFFFFF)
      ∧ ((nextOf (exec (.getActiveColor 0 0) (only built50))).map State.ret) = some (.color 0x00800001)
      ∧ ((nextOf (exec (.getActiveColor 32 0) (only built50))).map State.ret) = some (.color 0)
      ∧ ((nextOf (exec (.getActiveColor 0 1) (only built50))).map State.ret) = some (.color 0) := by decide +kernel

/-- The inactive half is the other one (T121). -/
theorem test_getInactiveColor :
    ((nextOf (exec (.getInactiveColor 0 0)
        (only { built50 with activePtr := 0x20200060, inactivePtr := 0x20200000 }))).map State.ret)
      = some (.color 0x00800001) := by decide +kernel

/-- T119, T120. -/
theorem test_setChannelType :
    ((nextOf (exec (.setChannelType 5 2) (only paced3))).map fun t => (this t).chtype[5]) = some .a
      ∧ ((nextOf (exec (.setChannelType 5 1) (only paced3))).map fun t => (this t).chtype[5]) = some .b
      ∧ ((nextOf (exec (.setChannelType 5 2) (only free2))).map fun t => (this t).chtype[5]) = some .four := by
  decide +kernel

/-! Memory (T125 to T129) -/

/-- T126, T127: the flush that covers the word and one that does not. -/
theorem test_flush :
    ((nextOf (exec (.flush 0x20200004 4) (only { built50 with buf := hostWrite built50.buf 0x20200004 1 }))).map
      fun t => dmaRead (this t).buf 0x20200004) = some 1
    ∧ ((nextOf (exec (.flush 0x20200008 4) (only { built50 with buf := hostWrite built50.buf 0x20200004 1 }))).map
      fun t => dmaRead (this t).buf 0x20200004) = some 0x80000000 := by decide +kernel

/-- T125, T128. -/
theorem test_writeback :
    ((nextOf (exec (.writeback 0x20200004)
        (only { built50 with buf := hostWrite (hostWrite built50.buf 0x20200004 1) 0x20200008 1 }))).map fun t =>
      (dmaRead (this t).buf 0x20200004, dmaRead (this t).buf 0x20200008, (this t).buf.dirty))
      = some (1, 0x80000000, [0x20200008]) := by decide +kernel

/-! The lifecycle (T131 to T143) -/

/-- R240's example, and T143. -/
theorem test_construct :
    ((nextOf (exec (.construct 1 .three .double) (fresh { Inst.atStart with par := params 16 4 }))).map fun t =>
      ((this t).activePtr, (this t).inactivePtr, nData (this t))) = some (0x20200000, 0x20200060, 2)
    ∧ refusalOf (exec (.construct 5 .three .free) (fresh { Inst.atStart with par := params 29 4 }))
      = some .tooManyDescriptors := by decide +kernel

/-- T131, T150. -/
theorem test_initialise_T150 :
    ((nextOf (exec (.initialise 0 ⟨1, 2, 3⟩) (fresh constructed50))).map fun t =>
      (t.ret, t.owner, t.clkgen, (this t).en, (this t).run, (this t).desc))
      = some (.bool true, #v[some 0, none], .locked, true, true, table50) := rfl

/-- T132, T136, T138, T139: the checks that fail, and nothing else changes. -/
theorem test_initialise_fails :
    nextOf (exec (.initialise 0 ⟨1, 2, 3⟩) (only built50)) = some { only built50 with ret := .bool false }
      ∧ nextOf (exec (.initialise 2 ⟨1, 2, 3⟩) (fresh constructed50))
        = some { fresh constructed50 with ret := .bool false } := by decide +kernel

/-- T141, T140: the last instance powers the generator down, another does not. -/
theorem test_teardown :
    ((nextOf (exec .teardown (only head50))).map fun t =>
      ((this t).run, (this t).irqAttached, (this t).en, t.clkgen, t.owner))
      = some (false, false, false, .idle, #v[none, none])
    ∧ ((nextOf (exec .teardown { only head50 with owner := #v[some 0, some 1] })).map fun t =>
        (t.clkgen, t.owner, (this t).latchDiv)) = some (.locked, #v[none, some 1], 64) := ⟨rfl, rfl⟩

/-- R275: with the power of the generator the content of `PTE.DSEC` is gone. -/
theorem test_teardown_R275 :
    ((nextOf (exec .teardown (only gateHi50))).map fun t => ((this t).dsec, (this t).w)) = some (none, gateHi50.w) := rfl

/-! Witnesses: for each statement with hypotheses, a state and operands that meet them, clause by clause -/

/-- T50 with a gap of one slot. -/
def gapOne (mode : Mode) : Inst :=
  { close50 true with
    par := params 16 1, mode := mode
    desc := table50.set 7 ⟨true, ⟨0x20001000, if mode = .paced then 0x00010084 else 0x00010004⟩⟩ }

/-- A first segment of one word: admitted by R97, never built (T96). -/
def shortFirst : Inst :=
  { head50 with
    par := params 23 4
    desc := (table50.set 2 ⟨true, ⟨0x20200000, 0x00010322⟩⟩).set 3 ⟨true, ⟨0x2020005C, 0x00170622⟩⟩ }

/-- A state with a schedule of one line. -/
def scheduled (t : Turn) : State :=
  { State.reset with sched := [t] }

/-- The handler of instance 0 enabled. -/
def pending50 : Inst :=
  { built50 with irqPend := true }

theorem test_witness_OperationNumbersDecode :
    ((0x00 : Byte) = 0 ∨ (0x13 < (0x00 : Byte).toNat ∧ (0x00 : Byte).toNat < 0x20) ∨ 0x22 < (0x00 : Byte).toNat)
      ∧ ((0x14 : Byte) = 0 ∨ (0x13 < (0x14 : Byte).toNat ∧ (0x14 : Byte).toNat < 0x20) ∨ 0x22 < (0x14 : Byte).toNat)
      ∧ ((0x1F : Byte) = 0 ∨ (0x13 < (0x1F : Byte).toNat ∧ (0x1F : Byte).toNat < 0x20) ∨ 0x22 < (0x1F : Byte).toNat)
      ∧ ((0x23 : Byte) = 0 ∨ (0x13 < (0x23 : Byte).toNat ∧ (0x23 : Byte).toNat < 0x20) ∨ 0x22 < (0x23 : Byte).toNat) := by
  decide

theorem test_witness_StepRunsTheDecodedInstruction :
    (scheduled (.op 1 .micro [0x13])).sched = .op 1 .micro [0x13] :: [] ∧ decodeLine [0x13] = .ok .teardown
      ∧ (scheduled (.op 0 .whole [0x14])).sched = .op 0 .whole [0x14] :: []
      ∧ decodeLine [0x14] = .error (.unknownOperation 0x14)
      ∧ (scheduled (.unit 0)).sched = .unit 0 :: [] ∧ (scheduled .callNext).sched = .callNext :: []
      ∧ (scheduled .irqNext).sched = .irqNext :: [] ∧ (scheduled (.lockLine true)).sched = .lockLine true :: []
      ∧ State.reset.sched = []
      ∧ serviceEnabled (getInst (scheduled (.unit 0)) 0) = false ∧ serviceEnabled (getInst (only head50) 0) = true := by
  decide +kernel

theorem test_witness_StepRunsTheDecodedInstruction_held :
    HeldTurn (.op 0 .whole [0x01, 2, 0, 64, 0]) (only { gateHi50 with mid := true })
      ∧ HeldTurn .callNext (only closed50) ∧ HeldTurn .irqNext (only closed50) ∧ HeldTurn (.unit 1) (only closed50)
      ∧ ¬HeldTurn (.op 1 .micro [0x13]) State.reset ∧ ¬HeldTurn (.op 0 .whole [0x14]) State.reset
      ∧ ¬HeldTurn .callNext State.reset ∧ ¬HeldTurn .irqNext State.reset ∧ ¬HeldTurn (.unit 0) (only head50)
      ∧ ¬HeldTurn (.unit 0) (only { gateHi50 with mid := true })
      ∧ ¬HeldTurn (.op 0 .whole [0x21]) (only closed50) ∧ ¬HeldTurn (.lockLine true) (only closed50) := by
  simp only [← turnHeld_iff]; decide +kernel

theorem test_witness_PteEnableResult :
    idle (only built50)
      ∧ ((0 : BitVec 16) = 0 ∨ (0 : BitVec 16) = 0 ∨ (0 : BitVec 16).toNat ≠ 32 * (0 : BitVec 16).toNat)
      ∧ ¬((1 : BitVec 16) = 0 ∨ (32 : BitVec 16) = 0 ∨ (32 : BitVec 16).toNat ≠ 32 * (1 : BitVec 16).toNat)
      ∧ ¬((2047 : BitVec 16) = 0 ∨ (65504 : BitVec 16) = 0 ∨ (65504 : BitVec 16).toNat ≠ 32 * (2047 : BitVec 16).toNat)
      ∧ ((2048 : BitVec 16) = 0 ∨ (0 : BitVec 16) = 0 ∨ (0 : BitVec 16).toNat ≠ 32 * (2048 : BitVec 16).toNat) :=
  ⟨⟨rfl, rfl⟩, by decide, by decide, by decide, by decide⟩

theorem test_witness_EnablingTwiceIsOnce :
    idle (only built50) ∧ (∃ t, exec (.pteEnable 2 64) (only built50) = .next t)
      ∧ ∃ t, exec .pteDisable (only built50) = .next t :=
  ⟨⟨rfl, rfl⟩, ⟨_, rfl⟩, ⟨_, rfl⟩⟩

theorem test_witness_PteDisableResult : idle (only head50) := ⟨rfl, rfl⟩

theorem test_witness_LatchResult :
    (this (only { built50 with en := false })).en = false ∧ (fresh built50).clkgen = .idle
      ∧ (latching 5 ONES true).clkgen = .locked ∧ (this (latching 5 ONES true)).en = true
      ∧ ¬((this (latching 5 ONES true)).mid = true ∧ (this (latching 5 ONES true)).run = true)
      ∧ ¬((this (only { built50 with mid := true })).mid = true ∧ (this (only { built50 with mid := true })).run = true) := by
  decide +kernel

theorem test_witness_SymbolTable :
    31 < 32 ∧ (0x80000000 : Word).getLsbD 31 = true ∧ (0x80000000 : Word).getLsbD 0 = false
      ∧ (0x0000FFFF : Word) ≠ ZERO ∧ (0x0000FFFF : Word) ≠ ONES := by decide

theorem test_witness_LanesAreIndependent :
    latchEnabled (latching 0x80 ONES false).clkgen (this (latching 0x80 ONES false)) = true
      ∧ latchEnabled (latching 0 ONES false).clkgen (this (latching 0 ONES false)) = true
      ∧ (this (latching 0x80 ONES false)).gate = (this (latching 0 ONES false)).gate
      ∧ (this (latching 0x80 ONES false)).dbuf.getLsbD 6 = (this (latching 0 ONES false)).dbuf.getLsbD 6
      ∧ (∃ t, exec .latch (latching 0x80 ONES false) = .next t) ∧ ∃ t, exec .latch (latching 0 ONES false) = .next t :=
  ⟨by decide +kernel, by decide +kernel, by decide +kernel, by decide +kernel, ⟨_, rfl⟩, ⟨_, rfl⟩⟩

theorem test_witness_WaveLevels :
    31 < 32 ∧ 1 ≤ Config.params.envTicks ∧ Config.params.envTicks < Config.params.oneTicks
      ∧ Config.params.oneTicks ≤ 32 := by decide

theorem test_witness_DutyIsTheHighTime :
    31 < ({ Config.params with envTicks := 31, oneTicks := 32 } : Params).oneTicks
      ∧ ({ Config.params with envTicks := 31, oneTicks := 32 } : Params).oneTicks ≤ 32 ∧ Sym.pulse1 ≠ .unspec
      ∧ Sym.low ≠ .unspec := by decide

theorem test_witness_ClockRates :
    0 < Config.params.fInt ∧ (2 : BitVec 16) ≠ 0 ∧ (64 : BitVec 16) ≠ 0 := by decide

/-- R22: the reserved divisor 0 has no rate. -/
theorem test_clockRate_zero :
    shiftRate Config.params 0 = none ∧ latchRate Config.params 0 = none := by decide

theorem test_witness_LoadRule :
    (descAt Inst.atStart 0).known = false
      ∧ 5 ≤ ((descAt built50 4).body.ctrl.extractLsb' 0 3).toNat
      ∧ (descAt (writeRecord built50 2 ⟨0, 0x00010018⟩) 2).body.ctrl.extractLsb' 3 2 = 3
      ∧ (descAt (writeRecord built50 2 ⟨0, 0x00000108⟩) 2).body.ctrl.extractLsb' 16 16 = 0
      ∧ (descAt (writeRecord built50 2 ⟨0, 0x00010908⟩) 2).body.ctrl.extractLsb' 11 5 ≠ 0
      ∧ ¬((descAt (writeRecord built50 2 ⟨2, 0x00100322⟩) 2).known = false
          ∨ 5 ≤ ((descAt (writeRecord built50 2 ⟨2, 0x00100322⟩) 2).body.ctrl.extractLsb' 0 3).toNat
          ∨ (descAt (writeRecord built50 2 ⟨2, 0x00100322⟩) 2).body.ctrl.extractLsb' 3 2 = 3
          ∨ (descAt (writeRecord built50 2 ⟨2, 0x00100322⟩) 2).body.ctrl.extractLsb' 16 16 = 0
          ∨ (descAt (writeRecord built50 2 ⟨2, 0x00100322⟩) 2).body.ctrl.extractLsb' 11 5 ≠ 0)
      ∧ (descAt (writeRecord built50 2 ⟨2, 0x00100322⟩) 2).body.src.toNat % 4 ≠ 0
      ∧ ¬((descAt built50 7).known = false ∨ 5 ≤ ((descAt built50 7).body.ctrl.extractLsb' 0 3).toNat
          ∨ (descAt built50 7).body.ctrl.extractLsb' 3 2 = 3 ∨ (descAt built50 7).body.ctrl.extractLsb' 16 16 = 0
          ∨ (descAt built50 7).body.ctrl.extractLsb' 11 5 ≠ 0)
      ∧ (descAt built50 7).body.src.toNat % 4 = 0 := by decide +kernel

theorem test_witness_UnitTransferRule :
    serviceEnabled (this (only built50)) = false
      ∧ serviceEnabled (this (only (data50 1))) = true ∧ ({ fData with dst := 3 } : Fields).reservedBits = true
      ∧ fData.reservedBits = false
      ∧ memRead (this (only { data50 1 with srcCur := 0x20001008 })) 0x20001008 = none
      ∧ serviceEnabled (this (only { data50 1 with srcCur := 0x20001008 })) = true
      ∧ memRead (this (only (data50 1))) (this (only (data50 1))).srcCur = some 0x80000000
      ∧ memRead (this (only gateHi50)) (this (only gateHi50)).srcCur = some ONES
      ∧ (this (only { gateHi50 with dsec := none })).dsec ≠ some ZERO ∧ (this (only gateHi50)).dsec = some ZERO
      ∧ (this (only (data50 2))).cntRem ≠ 1 ∧ (this (only (data50 1))).cntRem = 1
      ∧ (this (only (data50 0))).cntRem = 0 ∧ (this (only (data50 0))).cntRem ≠ 1
      ∧ fGap.dstop = true ∧ fData.dstop = false := by decide +kernel

theorem test_witness_UnitTransferRule_next :
    loadable (descAt (this (only (data50 1))) 3) ∧ ¬loadable (descAt (this (only (data50 1))) 4)
      ∧ (fieldsOf gapStop50.w).dstop = true ∧ (this (only gapStop50)).cntRem = 1
      ∧ ¬loadable (descAt (this (only { head50 with desc := table50.set 1 ⟨true, ⟨0, 7⟩⟩ })) 1) := by
  unfold loadable; decide +kernel

/-- The record `k` with fields `f` is admitted at the position of `x`, as UnitTransferRule writes it out. -/
def Admissible (k : Kind) (f : Fields) (x : Inst) : Prop :=
  x.zeroWord = ZERO ∧ x.onesWord = ONES ∧ CanonicalAt k f x

theorem test_witness_UnitTransferRule_admitted :
    Admissible .data (fieldsOf (data50 1).w) (this (only (data50 1)))
      ∧ Admissible .data (fieldsOf (data50 0).w) (this (only (data50 0)))
      ∧ Admissible .gap (fieldsOf gapStop50.w) (this (only gapStop50))
      ∧ Admissible .prime (fieldsOf head50.w) (this (only { head50 with desc := table50.set 1 ⟨true, ⟨0, 7⟩⟩ }))
      ∧ ¬Admissible .data fData (this (only (data50 1))) ∧ ¬Admissible .prime { fPrime with inten := true } (this (only head50))
      ∧ ¬Admissible .prime (fieldsOf head50.w) (this (only { head50 with onesWord := 1 })) := by
  simp only [Admissible, ← admitted_iff]; decide +kernel

theorem test_witness_PrimeResult :
    serviceEnabled (this (only head50)) = true ∧ (this (only head50)).cur = 0
      ∧ (this (only head50)).srcCur = (this (only head50)).par.zeroAddr
      ∧ (this (only head50)).cntRem = 1 ∧ (this (only head50)).onesWord = ONES
      ∧ isFrameWord (this (only head50)) (this (only head50)).par.zeroAddr.toNat = false
      ∧ (this (only head50)).zeroWord = ZERO ∧ loadable (descAt (this (only head50)) 1) := by
  unfold loadable; decide +kernel

theorem test_witness_GateHiResult :
    serviceEnabled (this (only gateHi50)) = true ∧ (this (only gateHi50)).cur = 1
      ∧ (this (only gateHi50)).zeroWord = ZERO
      ∧ (this (only gateHi50)).srcCur = (this (only gateHi50)).par.onesAddr ∧ (this (only gateHi50)).cntRem = 1
      ∧ isFrameWord (this (only gateHi50)) (this (only gateHi50)).par.onesAddr.toNat = false
      ∧ (this (only gateHi50)).par.onesAddr ≠ (this (only gateHi50)).par.zeroAddr
      ∧ (this (only gateHi50)).onesWord = ONES ∧ loadable (descAt (this (only gateHi50)) 2)
      ∧ (this (only gateHi50)).dsec = some 0 ∧ (this (only { gateHi50 with dsec := some 1 })).dsec ≠ some 0 := by
  unfold loadable; decide +kernel

theorem test_witness_DataResult :
    serviceEnabled (this (only (data50 2))) = true ∧ (16 : BitVec 16) ≠ 0
      ∧ 0 < 4 ∧ 0 < nData (this (only (data50 2))) ∧ (this (only (data50 2))).cur.toNat = 2 + 0
      ∧ 3 < 4 ∧ 3 < nData { data50 2 with par := params 6 4, cur := 5 } ∧ (this (only (data50 0))).cntRem ≠ 1
      ∧ (3 : BitVec 3) = (if 0 + 1 < nData (this (only (data50 2))) then BitVec.ofNat 3 (3 + 0) else 6)
      ∧ (16 : BitVec 16).toNat ≤ (this (only (data50 2))).par.maxXfer.toNat
      ∧ isFrameWord (this (only (data50 2))) (0x20200000 : Word).toNat = true
      ∧ (this (only (data50 2))).zeroWord = ZERO ∧ (this (only (data50 2))).onesWord = ONES
      ∧ isFrameWord (this (only (data50 2))) (this (only (data50 2))).srcCur.toNat = true
      ∧ (this (only (data50 2))).cntRem ≠ 1 ∧ (this (only (data50 1))).cntRem = 1
      ∧ loadable (descAt (this (only (data50 1))) 3)
      ∧ isFrameWord (this (only { data50 1 with srcCur := 0x202000BC })) 0x202000BC = true := by
  unfold loadable; decide +kernel

theorem test_witness_CloseResult (armed : Bool) :
    serviceEnabled (this (only (close50 armed))) = true ∧ (this (only (close50 armed))).cur = 6
      ∧ (this (only (close50 armed))).onesWord = ONES
      ∧ (this (only (close50 armed))).srcCur = (this (only (close50 armed))).par.zeroAddr
      ∧ (this (only (close50 armed))).cntRem = 1
      ∧ isFrameWord (this (only (close50 armed))) (this (only (close50 armed))).par.zeroAddr.toNat = false
      ∧ (this (only (close50 armed))).zeroWord = ZERO ∧ loadable (descAt (this (only (close50 armed))) 7) := by
  unfold loadable; cases armed <;> decide +kernel

theorem test_witness_GapResult :
    serviceEnabled (this (only (gap50 2))) = true ∧ (this (only (gap50 2))).cur = 7
      ∧ false = decide ((this (only (gap50 2))).mode = .paced) ∧ true = decide ((this (only gapStop50)).mode = .paced)
      ∧ serviceEnabled (this (only gapStop50)) = true ∧ (this (only gapStop50)).cur = 7
      ∧ (this (only gapStop50)).srcCur = (this (only gapStop50)).par.zeroAddr ∧ (this (only gapStop50)).cntRem = 1
      ∧ (this (only (gap50 2))).onesWord = ONES
      ∧ (this (only (gap50 2))).srcCur = (this (only (gap50 2))).par.zeroAddr
      ∧ isFrameWord (this (only (gap50 2))) (this (only (gap50 2))).par.zeroAddr.toNat = false
      ∧ (this (only (gap50 2))).zeroWord = ZERO ∧ (this (only (gap50 2))).par.gapCount ≠ 0
      ∧ (this (only (gap50 0))).cntRem = 0 ∧ (this (only (gap50 0))).cntRem ≠ 1
      ∧ (this (only (gap50 2))).cntRem ≠ 1 ∧ (this (only (gap50 1))).cntRem = 1
      ∧ loadable (descAt (this (only (gap50 1))) 0) := by
  unfold loadable; decide +kernel

theorem test_witness_IllegalRecordsStop :
    kindOf (descAt built50 4).body = .reserved7
      ∧ kindOf (descAt (writeRecord built50 2 ⟨0, 0x00010005⟩) 2).body = .reserved5
      ∧ kindOf (descAt (writeRecord built50 2 ⟨0, 0x00010006⟩) 2).body = .reserved6
      ∧ (fieldsOf (descAt (writeRecord built50 2 ⟨0, 0x00010018⟩) 2).body).dst = 3
      ∧ (fieldsOf (descAt (writeRecord built50 2 ⟨0, 0x00000108⟩) 2).body).count = 0
      ∧ (fieldsOf (descAt (writeRecord built50 2 ⟨0, 0x00010908⟩) 2).body).rsvd ≠ 0
      ∧ chainOk built50 = true ∧ addressesOk built50 = true
      ∧ (3 : BitVec 3).toNat < 2 + nData built50 ∧ 6 ≤ (6 : BitVec 3).toNat := by decide +kernel

theorem test_witness_TdcStartResult :
    idle (only head50) ∧ (this (only head50)).run = true ∧ (this (only built50)).run = false
      ∧ loadable (descAt (this (only built50)) 0) ∧ ¬loadable (descAt (this (fresh constructed50)) 0)
      ∧ (this (fresh constructed50)).run = false ∧ idle (fresh constructed50) := by
  unfold loadable idle; decide +kernel

theorem test_witness_TdcDisableResult :
    idle (only head50) ∧ (only head50).grain = .whole ∧ ({ only head50 with grain := .micro } : State).grain = .micro := by
  unfold idle; decide +kernel

theorem test_witness_TdcBuildResult :
    idleWhole (fresh constructed50) ∧ (this (only head50)).run = true
      ∧ addressesOk (this (fresh { constructed50 with par := { params 16 4 with zeroAddr := 0x20200004 } })) = false
      ∧ addressesOk (this (fresh { constructed50 with par := { params 16 4 with base0 := 0xFFFFFFC0 } })) = false
      ∧ buildable (this (fresh constructed50))
      ∧ ¬((this (fresh { constructed50 with onesWord := 1 })).zeroWord = ZERO
          ∧ (this (fresh { constructed50 with onesWord := 1 })).onesWord = ONES)
      ∧ (this (fresh constructed50)).zeroWord = ZERO ∧ (this (fresh constructed50)).onesWord = ONES := by
  unfold idleWhole idle buildable; decide +kernel

theorem test_witness_SegmentCountsAddUp :
    0 < frameWords built50 ∧ 0 < built50.par.maxXfer.toNat
      ∧ frameWords built50 % built50.par.maxXfer.toNat ≠ 0
      ∧ frameWords { built50 with par := params 6 4 } % (params 6 4).maxXfer.toNat = 0
      ∧ 0 + 1 < nData built50 := by decide

theorem test_witness_ServiceIsItsPasses :
    serviceEnabled (this (only built50)) = false ∧ serviceEnabled (this (only (data50 2))) = true
      ∧ ((nextOf (exec (decodeRecord (this (only (data50 2))).w) (only (data50 2)))).map fun t => (this t).mid)
        = some false
      ∧ serviceEnabled (this (only { data50 2 with srcCur := 0x30000000 })) = true
      ∧ faultOf (exec (decodeRecord (data50 2).w) (only { data50 2 with srcCur := 0x30000000 }))
        = some (.unmappedSource 0x30000000)
      ∧ (this (only { gateHi50 with mid := true })).en = true ∧ (this (only { gateHi50 with mid := true })).run = true := by
  decide +kernel

theorem test_witness_ServiceOpensTheFrame :
    serviceEnabled (this (only head50)) = true ∧ chainOk (this (only head50)) = true
      ∧ addressesOk (this (only head50)) = true ∧ (this (only head50)).cur = 0 ∧ (this (only head50)).w = (descAt (this (only head50)) 0).body
      ∧ (this (only head50)).srcCur = (this (only head50)).par.zeroAddr ∧ (this (only head50)).cntRem = 1
      ∧ (fieldsOf (descAt (this (only head50)) 2).body).count ≠ 1 := by decide +kernel

theorem test_witness_ServiceOpensTheFrame_short :
    serviceEnabled (this (only shortFirst)) = true ∧ chainOk (this (only shortFirst)) = true
      ∧ addressesOk (this (only shortFirst)) = true ∧ (this (only shortFirst)).cur = 0
      ∧ (this (only shortFirst)).w = (descAt (this (only shortFirst)) 0).body
      ∧ (this (only shortFirst)).srcCur = (this (only shortFirst)).par.zeroAddr ∧ (this (only shortFirst)).cntRem = 1
      ∧ (fieldsOf (descAt (this (only shortFirst)) 2).body).count = 1 := by decide +kernel

theorem test_witness_ServiceClosesTheFrame (armed : Bool) :
    serviceEnabled (this (only (close50 armed))) = true ∧ chainOk (this (only (close50 armed))) = true
      ∧ addressesOk (this (only (close50 armed))) = true ∧ (this (only (close50 armed))).cur = 6
      ∧ (this (only (close50 armed))).w = encodeRecord .close ⟨0x20001000, 2, false, armed, false, 7, 0, 1⟩
      ∧ (this (only (close50 armed))).srcCur = (this (only (close50 armed))).par.zeroAddr
      ∧ (this (only (close50 armed))).cntRem = 1 ∧ (this (only (close50 armed))).par.gapCount ≠ 1 := by
  cases armed <;> decide +kernel

theorem test_witness_ServiceClosesTheFrame_short (m : Mode) :
    serviceEnabled (this (only (gapOne m))) = true ∧ chainOk (this (only (gapOne m))) = true
      ∧ addressesOk (this (only (gapOne m))) = true ∧ (this (only (gapOne m))).cur = 6
      ∧ (this (only (gapOne m))).w = encodeRecord .close ⟨0x20001000, 2, false, true, false, 7, 0, 1⟩
      ∧ (this (only (gapOne m))).srcCur = (this (only (gapOne m))).par.zeroAddr
      ∧ (this (only (gapOne m))).cntRem = 1 ∧ (this (only (gapOne m))).par.gapCount = 1 := by
  cases m <;> decide +kernel

theorem test_witness_PhaseTable :
    built50.run = false ∧ head50.run = true ∧ head50.cur = 0 ∧ gateHi50.run = true ∧ gateHi50.cur = 1
      ∧ (data50 1).run = true ∧ (data50 1).cur = 2 ∧ ({ data50 1 with cur := 5 } : Inst).cur = 5
      ∧ (close50 true).run = true ∧ (close50 true).cur = 6 ∧ (gap50 1).run = true ∧ (gap50 1).cur = 7 := by
  decide +kernel

theorem test_witness_FlushResult : idle (only built50) := ⟨rfl, rfl⟩

theorem test_witness_WritebackResult :
    (0x20200004 : Word).toNat ∈ (this (only { built50 with buf := hostWrite built50.buf 0x20200004 1 })).buf.dirty
      ∧ (0x20200004 : Word).toNat ∉ (this (only built50)).buf.dirty := by decide +kernel

theorem test_witness_HardwareNeverWritesMemory :
    (∃ t, exec .service (only head50) = .next t) ∧ isHardwareStep .service = true
      ∧ (∃ t, exec .tdcDisable (only head50) = .next t) ∧ isHostCall .tdcDisable = true
      ∧ (∀ sd ld, Instr.tdcDisable ≠ .pteEnable sd ld) ∧ (∀ u p, Instr.tdcDisable ≠ .initialise u p)
      ∧ (Instr.tdcDisable = .teardown → ¬PowersDown (only head50)) :=
  ⟨⟨_, rfl⟩, rfl, ⟨_, rfl⟩, rfl, fun _ _ => nofun, fun _ _ => nofun, nofun⟩

/-- A `TEARDOWN` of an instance that does not own the one active unit. -/
theorem test_witness_HardwareNeverWritesMemory_teardown :
    (∃ t, exec .teardown (only { head50 with unitNo := none }) = .next t)
      ∧ activeCount (only { head50 with unitNo := none }) = 1 ∧ ¬PowersDown (only { head50 with unitNo := none }) :=
  ⟨⟨_, rfl⟩, by decide +kernel, by unfold PowersDown; decide +kernel⟩

theorem test_witness_RequestSwapResult :
    idle (only built50) ∧ (this (only built50)).mode = .double ∧ (only built50).grain = .whole
      ∧ idle (only free2) ∧ (this (only free2)).mode ≠ .double
      ∧ idle { only built50 with grain := .micro } ∧ ({ only built50 with grain := .micro } : State).grain = .micro := by
  unfold idle; decide +kernel

theorem test_witness_SecondSwapUndoesTheFirst :
    idleWhole (only built50) ∧ ∃ t u, exec .requestSwap (only built50) = .next t ∧ exec .requestSwap t = .next u :=
  ⟨⟨⟨rfl, rfl⟩, rfl⟩, ⟨_, _, rfl, rfl⟩⟩

theorem test_witness_IrqHandlerResult :
    (only pending50).irq = [] ∧ (only pending50).grain = .whole ∧ (this (only pending50)).irqPend = true
      ∧ (this (only pending50)).irqAttached = true ∧ routed (only pending50) (only pending50).sel 0
      ∧ routed (only { pending50 with unitNo := none }) 0 0 ∧ nData (getInst (only pending50) 0) ≤ 4
      ∧ nData { pending50 with par := params 6 4 } = 4
      ∧ ({ only pending50 with irq := [(0, Micro.ack)] } : State).irq ≠ [] ∧ irqEnabled (this (only built50)) = false
      ∧ (∃ u, (this { only pending50 with owner := #v[none, none] }).unitNo = some u
          ∧ ({ only pending50 with owner := #v[none, none] } : State).owner[u.val] = none)
      ∧ ({ only pending50 with grain := .micro } : State).grain = .micro
      ∧ routed { only pending50 with grain := .micro } 0 0 := by unfold routed; decide +kernel

theorem test_witness_HandlerHoldsTheCaller :
    isHostCall .tdcStart = true ∧ isAccessor .tdcStart = false ∧ isHostCall (.getActiveColor 0 0) = true
      ∧ isAccessor (.getActiveColor 0 0) = true ∧ ({ only head50 with irq := [(0, Micro.ack)] } : State).irq ≠ []
      ∧ (only head50).irq = [] ∧ ({ only head50 with call := [(0, Micro.detach)] } : State).call ≠ [] := by
  decide +kernel

theorem test_witness_BufferReadyResult :
    idle (only paced3) ∧ (this (only paced3)).mode = .paced ∧ idle (only free2) ∧ (this (only free2)).mode ≠ .paced := by
  unfold idle; decide +kernel

theorem test_witness_FlipInLoopingModes :
    (this (only built50)).mode = .double ∧ (this (only free2)).mode = .free ∧ idle (only free2) := by
  unfold idle; decide +kernel

theorem test_witness_FlipInPacedMode :
    idleWhole (only paced3) ∧ (this (only paced3)).mode = .paced ∧ (this (only paced3)).run = false
      ∧ loadable (descAt (this (only paced3)) 0)
      ∧ ¬loadable (descAt (this (only { paced3 with desc := Vector.replicate 8 ⟨false, ⟨0, 0⟩⟩ })) 0)
      ∧ idleWhole (only { paced3 with run := true }) ∧ (this (only { paced3 with run := true })).run = true := by
  unfold idleWhole idle loadable; decide +kernel

theorem test_witness_SetChannelTypeResult :
    idle (only paced3) ∧ 31 < (32 : Byte).toNat ∧ 2 < (3 : Byte).toNat ∧ (this (only paced3)).cap = .three
      ∧ (31 : Byte).toNat < 32 ∧ (this (only free2)).cap = .four ∧ idle (only free2) := by
  unfold idle; decide +kernel

theorem test_witness_SetColorResult :
    canAccess (only paced3) ∧ (only paced3).grain = .whole
      ∧ canAccess { only paced3 with irq := [(0, .ack)], call := [(0, .detach)] } ∧ 31 < (32 : Byte).toNat ∧ (this (only paced3)).leds ≤ (3 : Word).toNat
      ∧ (31 : Byte).toNat < 32 ∧ (2 : Word).toNat < (this (only paced3)).leds := by
  unfold canAccess; decide +kernel

theorem test_witness_GetColorResult :
    canAccess (only paced3) ∧ canAccess { only paced3 with irq := [(0, .ack)], call := [(0, .detach)] } ∧ 31 < (32 : Byte).toNat ∧ (this (only paced3)).leds ≤ (3 : Word).toNat
      ∧ (0 : Byte).toNat < 32 ∧ (2 : Word).toNat < (this (only paced3)).leds := by
  unfold canAccess; decide +kernel

theorem test_witness_ColorRoundTrip :
    canAccess (only paced3) ∧ (only paced3).grain = .whole ∧ (31 : Byte).toNat < 32
      ∧ (2 : Word).toNat < (this (only paced3)).leds ∧ (∃ t, exec (.setActiveColor 31 2 7) (only paced3) = .next t)
      ∧ ∃ t, exec (.setInactiveColor 31 2 7) (only paced3) = .next t :=
  ⟨.inr rfl, rfl, by decide, by decide +kernel, ⟨_, rfl⟩, ⟨_, rfl⟩⟩

theorem test_witness_ConstructResult :
    idle State.reset ∧ 0 < (5 : Word).toNat ∧ 4 < segments ((5 : Word).toNat * 24) (params 29 4)
      ∧ ¬(0 < (5 : Word).toNat ∧ 4 < segments ((5 : Word).toNat * 24) (params 30 4))
      ∧ (∃ c : Fin 32, ({ params 30 4 with chtypeInit := Vector.replicate 32 .four } : Params).chtypeInit[c.val] = .four)
      ∧ ¬(Cap.three = .three ∧ ∃ c : Fin 32, (params 30 4).chtypeInit[c.val] = .four)
      ∧ ¬(0 < (0 : Word).toNat ∧ 4 < segments ((0 : Word).toNat * 24) (params 30 4)) := by
  unfold idle; decide +kernel

theorem test_witness_InitialiseFails :
    idle (fresh constructed50) ∧ initRejected (fresh Inst.atStart) 0 ∧ initRejected (fresh constructed50) 2
      ∧ initRejected (only built50) 1 ∧ initRejected { fresh constructed50 with owner := #v[some 1, none] } 0
      ∧ initRejected { fresh constructed50 with clkgen := .locked } 0 := by
  unfold idle initRejected; decide +kernel

theorem test_witness_InitialiseSucceeds :
    idleWhole (fresh constructed50) ∧ (1 : Byte).toNat = (1 : Fin 2).val ∧ ¬initRejected (fresh constructed50) 1
      ∧ divisorsOk (this (fresh constructed50)).par.shiftDiv (this (fresh constructed50)).par.latchDiv = true
      ∧ buildable (this (fresh constructed50)) ∧ (this (fresh constructed50)).zeroWord = ZERO
      ∧ (this (fresh constructed50)).onesWord = ONES ∧ (activeCount (fresh constructed50) = 0)
      ∧ (fresh constructed50).lockLine = true := by
  unfold idleWhole idle initRejected buildable; decide +kernel

theorem test_witness_InitialiseWaitsForLock :
    idleWhole { fresh constructed50 with lockLine := false } ∧ (0 : Byte).toNat = (0 : Fin 2).val
      ∧ ¬initRejected { fresh constructed50 with lockLine := false } 0
      ∧ activeCount { fresh constructed50 with lockLine := false } = 0
      ∧ ({ State.reset with call := [(0, Micro.clkPowerUp)] } : State).irq = []
      ∧ ({ State.reset with call := [(0, Micro.clkPowerUp)] } : State).lockLine = false
      ∧ ({ State.reset with call := [(0, Micro.clkPowerUp)], lockLine := true } : State).lockLine = true := by
  unfold idleWhole idle initRejected; decide +kernel

theorem test_witness_TeardownResult :
    idleWhole (only head50) ∧ (this (only head50)).unitNo = some 0 ∧ (only head50).owner[0] = some (only head50).sel
      ∧ activeCount (only head50) = 1 ∧ activeCount { only head50 with owner := #v[some 0, some 1] } ≠ 1
      ∧ ({ only head50 with owner := #v[some 0, some 1] } : State).owner[0] = some (only head50).sel
      ∧ idleWhole (fresh constructed50) ∧ (this (fresh constructed50)).unitNo = none
      ∧ idle { only head50 with grain := .micro } ∧ ({ only head50 with grain := .micro } : State).grain = .micro := by
  unfold idleWhole idle; decide +kernel

theorem test_witness_StepKeepsMemoryCanonical :
    memoryCanonical { only built50 with sched := [.op 0 .whole [0x20]] } = true
      ∧ ∃ t, step { only built50 with sched := [.op 0 .whole [0x20]] } = .next t :=
  ⟨by decide +kernel, ⟨_, rfl⟩⟩

theorem test_witness_StepKeepsPointers :
    pointersOk (getInst { only built50 with sched := [.op 0 .whole [0x07]] } 0)
      ∧ ∃ t, step { only built50 with sched := [.op 0 .whole [0x07]] } = .next t :=
  ⟨by unfold pointersOk; decide +kernel, ⟨_, rfl⟩⟩

theorem test_witness_StepKeepsConfiguration :
    configOk (getInst { only free2 with sched := [.op 0 .whole [0x0C, 31, 2]] } 0)
      ∧ ∃ t, step { only free2 with sched := [.op 0 .whole [0x0C, 31, 2]] } = .next t :=
  ⟨by unfold configOk; decide +kernel, ⟨_, rfl⟩⟩

theorem test_witness_StepKeepsFlagBits :
    flagBitsOk (getInst { only built50 with sched := [.op 0 .whole [0x07]] } 0)
      ∧ ∃ t, step { only built50 with sched := [.op 0 .whole [0x07]] } = .next t :=
  ⟨by unfold flagBitsOk; decide +kernel, ⟨_, rfl⟩⟩

theorem test_witness_ParametersNeverChange :
    (∃ t, step { only built50 with sched := [.op 0 .whole [0x20]] } = .next t)
      ∧ (∀ l c m, turnIs (nextTurn { only built50 with sched := [.op 0 .whole [0x20]] }).1 0 (.construct l c m) = false)
      ∧ (∃ t, exec .latch (only built50) = .next t) ∧ ∀ l c m, Instr.latch ≠ .construct l c m :=
  ⟨⟨_, rfl⟩, fun _ _ _ => rfl, ⟨_, rfl⟩, fun _ _ _ => nofun⟩

theorem test_witness_OtherInstancesUntouched :
    (∃ t, exec .latch (only built50) = .next t) ∧ Instr.latch ≠ .irqHandler ∧ Instr.latch ≠ .teardown
      ∧ 1 ≠ (only built50).sel ∧ (∃ t, exec .irqHandler (only pending50) = .next t)
      ∧ ¬routed (only pending50) (only pending50).sel 1 ∧ (∃ t, exec .teardown (fresh built50) = .next t)
      ∧ ¬PowersDown (fresh built50) :=
  ⟨⟨_, rfl⟩, by decide, by decide, by decide +kernel, ⟨_, rfl⟩, by unfold routed; decide +kernel, ⟨_, rfl⟩,
    by unfold PowersDown; decide +kernel⟩

theorem test_witness_OnlyLatchAddsASlot :
    (∃ t, exec .service (only head50) = .next t) ∧ Instr.service ≠ .latch
      ∧ (∃ t, step { only built50 with sched := [.op 0 .whole [0x20]] } = .next t)
      ∧ (∃ t, step { only head50 with sched := [.unit 0] } = .next t)
      ∧ turnIs (nextTurn { only head50 with sched := [.unit 0] }).1 0 .latch = false :=
  ⟨⟨_, rfl⟩, by decide, ⟨_, rfl⟩, ⟨_, rfl⟩, rfl⟩

theorem test_witness_InterruptIsSticky :
    (∃ t, exec .tdcDisable (only pending50) = .next t) ∧ Instr.tdcDisable ≠ .irqHandler
      ∧ (∀ l c m, Instr.tdcDisable ≠ .construct l c m) ∧ (getInst (only pending50) 0).irqPend = true :=
  ⟨⟨_, rfl⟩, by decide, fun _ _ _ => nofun, by decide +kernel⟩

theorem test_witness_MicroStepsMakeTheWhole : (only head50).irq = [] := rfl

end Sys2Proof.Tests
end

section
/-! SUPPORT. The micro-steps and what the two software agents have left (00_scope.md R15): a micro-step neither reads
nor writes it, so taking a list whole and taking it turn by turn agree. -/

namespace Sys2Proof.Machine

open Sys2Proof

/-- The state with what the two software agents have left replaced. -/
def setAgents (c q : List (Nat × Micro)) (s : State) : State :=
  { s with call := c, irq := q }

@[simp] theorem getInst_setAgents (c q : List (Nat × Micro)) (s : State) (n : Nat) :
    getInst (setAgents c q s) n = getInst s n := rfl

/-- What a micro-step gives, with `g` applied to its next state. -/
def MicroOut.map (g : State → State) : MicroOut → MicroOut
  | .done s => .done (g s)
  | .waits => .waits
  | .faults f => .faults f
  | .refuses r => .refuses r

theorem onInstE_setAgents (c q : List (Nat × Micro)) (s : State) (n : Nat) (g : Inst → Except Fault Inst) :
    onInstE (setAgents c q s) n g = (onInstE s n g).map (setAgents c q) := by
  unfold onInstE
  rw [getInst_setAgents]
  cases g (getInst s n) <;> rfl

/-- A micro-step neither reads nor writes what the agents have left. -/
theorem runMicro_setAgents (n : Nat) (m : Micro) (c q : List (Nat × Micro)) (s : State) :
    runMicro n m (setAgents c q s) = (runMicro n m s).map (setAgents c q) := by
  cases m with
  | pteEnable sd ld => simp only [runMicro, microPteEnable, apply_ite (MicroOut.map _)]; rfl
  | buildRecord i => simp only [runMicro, microBuildRecord, apply_ite (MicroOut.map _)]; rfl
  | buildEnd => simp only [runMicro, microBuildEnd, apply_ite (MicroOut.map _)]; rfl
  | tdcStart => simp only [runMicro, microTdcStart, apply_ite (MicroOut.map _), onInstE_setAgents]; rfl
  | spinStopped => simp only [runMicro, apply_ite (MicroOut.map _)]; rfl
  | clkPowerUp => simp only [runMicro, microClkPowerUp, apply_ite (MicroOut.map _)]; rfl
  | clkPowerDown => simp only [runMicro, microClkPowerDown, apply_ite (MicroOut.map _)]; rfl
  | unclaim =>
    simp only [runMicro, microUnclaim, getInst_setAgents]
    rcases (getInst s n).unitNo with _ | u
    · rfl
    · simp only [apply_ite (MicroOut.map _)]; rfl
  | _ => rfl

/-- A micro-step that is done leaves both agents what they had left. -/
theorem runMicro_agents {n : Nat} {m : Micro} {s t : State} (h : runMicro n m s = .done t) :
    t.call = s.call ∧ t.irq = s.irq := by
  have hs : t = setAgents s.call s.irq t := by
    have hm := runMicro_setAgents n m s.call s.irq s
    rw [h] at hm
    exact MicroOut.done.inj (h.symm.trans hm)
  rw [hs]
  exact ⟨rfl, rfl⟩

/-- Turns of `CALL` that change nothing, as while the operation in progress waits. -/
theorem callTurns_of_stuck {s : State} (h : callNext s = .next s) (k : Nat) : callTurns k s = .next s := by
  induction k with
  | zero => rfl
  | succ k ih => simp only [callTurns, h, ih]

/-- Turns of `IRQ` that change nothing, as while the handler run waits. -/
theorem irqTurns_of_stuck {s : State} (h : irqNext s = .next s) (k : Nat) : irqTurns k s = .next s := by
  induction k with
  | zero => rfl
  | succ k ih => simp only [irqTurns, h, ih]

/-- As many turns of `CALL` as the operation in progress has micro-steps left take it as far as taking it whole does. -/
theorem callTurns_eq_runCall (l : List (Nat × Micro)) (s : State) (hi : s.irq = []) :
    callTurns l.length (setAgents l s.irq s) = runCall l s := by
  induction l generalizing s with
  | nil => rfl
  | cons e l ih =>
    obtain ⟨n, m⟩ := e
    have hm := runMicro_setAgents n m ((n, m) :: l) s.irq s
    have hn : callNext (setAgents ((n, m) :: l) s.irq s) = stepCall ((n, m) :: l) (setAgents ((n, m) :: l) s.irq s) := by
      rw [hi]; rfl
    rcases hr : runMicro n m s with t | _ | f | r <;> simp only [hr, MicroOut.map] at hm <;>
      simp only [stepCall, hm] at hn <;> simp only [runCall, hr]
    case done =>
      have ht : t.irq = s.irq := (runMicro_agents hr).2
      simp only [List.length_cons, callTurns, hn]
      rw [← ih t (ht.trans hi), ht]
      rfl
    case waits => exact callTurns_of_stuck hn _
    case faults => simp only [List.length_cons, callTurns, hn]
    case refuses => simp only [List.length_cons, callTurns, hn]

/-- As many turns of `IRQ` as the handler run has micro-steps left take it as far as taking it whole does. -/
theorem irqTurns_eq_runIrq (l : List (Nat × Micro)) (s : State) :
    irqTurns l.length (setAgents s.call l s) = runIrq l s := by
  induction l generalizing s with
  | nil => rfl
  | cons e l ih =>
    obtain ⟨n, m⟩ := e
    have hm := runMicro_setAgents n m s.call ((n, m) :: l) s
    have hn : irqNext (setAgents s.call ((n, m) :: l) s) = stepIrq ((n, m) :: l) (setAgents s.call ((n, m) :: l) s) := rfl
    rcases hr : runMicro n m s with t | _ | f | r <;> simp only [hr, MicroOut.map] at hm <;>
      simp only [stepIrq, hm] at hn <;> simp only [runIrq, hr]
    case done =>
      have ht : t.call = s.call := (runMicro_agents hr).1
      simp only [List.length_cons, irqTurns, hn]
      rw [← ih t, ht]
      rfl
    case waits => exact irqTurns_of_stuck hn _
    case faults => simp only [List.length_cons, irqTurns, hn]
    case refuses => simp only [List.length_cons, irqTurns, hn]

/-- Settles O60, by induction on the list of micro-steps, for each of the two agents. -/
theorem microStepsMakeTheWhole : Obligations.MicroStepsMakeTheWhole :=
  ⟨callTurns_eq_runCall, irqTurns_eq_runIrq⟩

end Sys2Proof.Machine
end

section
/-! SUPPORT. One processor, one caller (R15 (b), (d)): which operations are taken up as calls, and what a colour accessor
does inside a handler run (R225). -/

namespace Sys2Proof.Machine

open Sys2Proof

theorem inHandler_iff {s : State} : inHandler s = true ↔ s.irq ≠ [] := by
  simp [inHandler]

theorem inCall_iff {s : State} : inCall s = true ↔ s.call ≠ [] := by
  simp [inCall]

/-- The operation in progress takes no micro-step during a handler run (R15 (b)). -/
theorem callNext_inHandler {s : State} (h : s.irq ≠ []) : callNext s = .next s :=
  if_pos (inHandler_iff.2 h)

/-- Every host operation but the colour accessors is taken up in call context only. -/
theorem exec_heldByHandler {i : Instr} (h : isHostCall i = true) (ha : isAccessor i = false) {s : State}
    (hi : s.irq ≠ []) : exec i s = .refused .heldByHandler := by
  have hin : inHandler s = true := inHandler_iff.2 hi
  cases i with
  | setActiveColor | setInactiveColor | getActiveColor | getInactiveColor => cases ha
  | irqHandler | latch | service | writeback => cases h
  | prime | gateHi | data | close | gap | reservedKind5 | reservedKind6 | reservedKind7 => cases h
  | _ => exact if_pos hin

/-- Outside a handler run every host operation, accessors among them, waits for the one in progress (R15 (d)). -/
theorem exec_callerBusy {i : Instr} (h : isHostCall i = true) {s : State} (hi : s.irq = []) (hc : s.call ≠ []) :
    exec i s = .refused .callerBusy := by
  have hout : ¬inHandler s = true := fun hn => inHandler_iff.1 hn hi
  have hin : inCall s = true := inCall_iff.2 hc
  cases i with
  | setActiveColor | setInactiveColor | getActiveColor | getInactiveColor =>
    exact (if_neg hout).trans ((if_neg hout).trans (if_pos hin))
  | irqHandler | latch | service | writeback => cases h
  | prime | gateHi | data | close | gap | reservedKind5 | reservedKind6 | reservedKind7 => cases h
  | _ => exact (if_neg hout).trans (if_pos hin)

/-- An operation begins inside the handler run in progress: the operation in progress stays, and what the new one has left
comes before what the run has left. -/
def BeginsInRun (s : State) (o : Step) : Prop :=
  ∃ t l, o = .next t ∧ t.call = s.call ∧ t.irq = l ++ s.irq

/-- The micro-steps of a colour write are writes of single bits for one channel (R225). -/
theorem setColorMicros_eq_map (x : Inst) (buf : Word) (ch : Byte) (idx col : Word) :
    ∃ (l : List (Word × Bool)) (c : Nat), setColorMicros x buf ch idx col = l.map fun p => .setBit p.1 c p.2 := by
  unfold setColorMicros
  rcases colorTarget x ch idx with _ | ⟨c, w⟩
  · exact ⟨[], 0, rfl⟩
  · exact ⟨(List.range w).map fun b => (colorAddr buf w idx.toNat b, col.getLsbD (w - 1 - b)), c,
      by simp [colorMicros]⟩

/-- Bit writes begun inside a handler run (R225), in either grain, possibly none. -/
theorem accessorOp_beginsInRun {s : State} (h : s.irq ≠ []) (l : List (Word × Bool)) (ch : Nat) :
    BeginsInRun s (accessorOp (l.map fun p => .setBit p.1 ch p.2) s) := by
  cases hg : s.grain with
  | whole =>
    cases l with
    | nil => exact ⟨s, [], accessorOp_none (.inl h) hg, rfl, rfl⟩
    | cons p l => exact ⟨_, [], accessorOp_setBits (.inl h) hg p l ch, rfl, rfl⟩
  | micro =>
    have hs : accessorOp (l.map fun p => .setBit p.1 ch p.2) s
        = stepNested (micros s.sel (l.map fun p => .setBit p.1 ch p.2)) s := by
      rw [accessorOp, if_pos (inHandler_iff.2 h), hg]
    rw [hs]
    cases l with
    | nil => exact ⟨s, [], rfl, rfl, rfl⟩
    | cons p l => exact ⟨_, _, rfl, rfl, rfl⟩

/-- A colour accessor called inside a handler run begins there (R225, R292). -/
theorem exec_accessor_beginsInRun {i : Instr} (ha : isAccessor i = true) {s : State} (h : s.irq ≠ []) :
    BeginsInRun s (exec i s) := by
  have hset : ∀ buf ch idx col, BeginsInRun s (accessorOp (setColorMicros (this s) buf ch idx col) s) := by
    intro buf ch idx col
    obtain ⟨l, c, hl⟩ := setColorMicros_eq_map (this s) buf ch idx col
    rw [hl]
    exact accessorOp_beginsInRun h l c
  cases i with
  | setActiveColor ch idx col => exact hset _ ch idx col
  | setInactiveColor ch idx col => exact hset _ ch idx col
  | getActiveColor ch idx => exact ⟨_, [], asAccessor_free (.inl h) _, rfl, rfl⟩
  | getInactiveColor ch idx => exact ⟨_, [], asAccessor_free (.inl h) _, rfl, rfl⟩
  | _ => cases ha

/-- Settles O38, by how each operation is taken up: as a call, or as an accessor. -/
theorem handlerHoldsTheCaller : Obligations.HandlerHoldsTheCaller := by
  intro s i hcall
  exact ⟨callNext_inHandler, fun hi ha => exec_heldByHandler hcall ha hi,
    fun hi ha => exec_accessor_beginsInRun ha hi, exec_callerBusy hcall⟩

end Sys2Proof.Machine
end

section
/-! SUPPORT. What a run of micro-steps does to the instances, said once for both agents and both grains (`MicroRun`); and the
output traces (00_scope.md R18): every instruction but `LATCH` keeps them. -/

namespace Sys2Proof.Machine

open Sys2Proof

/-- The instances of the second state are those of the first after some micro-steps from the front of a list. -/
inductive MicroRun : List (Nat × Micro) → State → State → Prop where
  | rest {l : List (Nat × Micro)} {s t : State} (h : t.insts = s.insts) : MicroRun l s t
  | micro {n : Nat} {m : Micro} {l : List (Nat × Micro)} {s t u : State} (h : runMicro n m s = .done t)
      (hl : MicroRun l t u) : MicroRun ((n, m) :: l) s u

theorem runCall_microRun {l : List (Nat × Micro)} {s t : State} (h : runCall l s = .next t) : MicroRun l s t := by
  induction l generalizing s with
  | nil => cases h; exact .rest rfl
  | cons e l ih =>
    unfold runCall at h
    split at h
    · exact .micro ‹_› (ih h)
    all_goals cases h
    exact .rest rfl

theorem runIrq_microRun {l : List (Nat × Micro)} {s t : State} (h : runIrq l s = .next t) : MicroRun l s t := by
  induction l generalizing s with
  | nil => cases h; exact .rest rfl
  | cons e l ih =>
    unfold runIrq at h
    split at h
    · exact .micro ‹_› (ih h)
    all_goals cases h
    exact .rest rfl

theorem runNested_microRun {l : List (Nat × Micro)} {s t : State} (h : runNested l s = .next t) : MicroRun l s t := by
  induction l generalizing s with
  | nil => cases h; exact .rest rfl
  | cons e l ih =>
    unfold runNested at h
    split at h
    · exact .micro ‹_› (ih h)
    all_goals cases h
    exact .rest rfl

theorem stepCall_microRun {l : List (Nat × Micro)} {s t : State} (h : stepCall l s = .next t) : MicroRun l s t := by
  unfold stepCall at h
  split at h
  · cases h; exact .rest rfl
  · split at h
    · rename_i hm
      cases h
      exact .micro hm (.rest rfl)
    all_goals cases h
    exact .rest rfl

theorem stepIrq_microRun {l : List (Nat × Micro)} {s t : State} (h : stepIrq l s = .next t) : MicroRun l s t := by
  unfold stepIrq at h
  split at h
  · cases h; exact .rest rfl
  · split at h
    · rename_i hm
      cases h
      exact .micro hm (.rest rfl)
    all_goals cases h
    exact .rest rfl

theorem stepNested_microRun {l : List (Nat × Micro)} {s t : State} (h : stepNested l s = .next t) : MicroRun l s t := by
  unfold stepNested at h
  split at h
  · cases h; exact .rest rfl
  · split at h
    · rename_i hm
      cases h
      exact .micro hm (.rest rfl)
    all_goals cases h
    exact .rest rfl

theorem callOp_microRun {l : List Micro} {s t : State} (h : callOp l s = .next t) : MicroRun (micros s.sel l) s t := by
  obtain ⟨-, -, h⟩ := asCall_next h
  split at h
  · exact runCall_microRun h
  · exact stepCall_microRun h

theorem accessorOp_microRun {l : List Micro} {s t : State} (h : accessorOp l s = .next t) :
    MicroRun (micros s.sel l) s t := by
  unfold accessorOp at h
  split at h
  · split at h
    · exact runNested_microRun h
    · exact stepNested_microRun h
  · exact callOp_microRun h

/-- Entering the handler runs micro-steps of the handler of some instance, or none. -/
theorem enterHandler_microRun {s t : State} (h : enterHandler s = .next t) :
    ∃ n, MicroRun (micros n (handlerMicros (getInst s n))) s t := by
  unfold enterHandler at h
  split at h
  · cases h; exact ⟨0, .rest rfl⟩
  · split at h
    · cases h; exact ⟨0, .rest rfl⟩
    · split at h
      · cases h; exact ⟨0, .rest rfl⟩
      · split at h
        · exact ⟨_, runIrq_microRun h⟩
        · exact ⟨_, stepIrq_microRun h⟩

/-! The output traces -/

/-- `y` has the output trace and the recorded faults of `x` (R18). -/
def SameTrace (x y : Inst) : Prop :=
  y.out = x.out ∧ y.faults = x.faults

/-- Every instance keeps its output trace and its recorded faults. -/
def KeepsTraces (s t : State) : Prop :=
  ∀ n, SameTrace (getInst s n) (getInst t n)

theorem SameTrace.refl (x : Inst) : SameTrace x x := ⟨rfl, rfl⟩

theorem SequencerOnly.sameTrace {x y : Inst} (h : SequencerOnly x y) : SameTrace x y := by
  rw [h]
  exact ⟨rfl, rfl⟩

theorem KeepsTraces.trans {s t u : State} (h1 : KeepsTraces s t) (h2 : KeepsTraces t u) : KeepsTraces s u :=
  fun n => ⟨(h2 n).1.trans (h1 n).1, (h2 n).2.trans (h1 n).2⟩

theorem keepsTraces_of_insts {s t : State} (h : t.insts = s.insts) : KeepsTraces s t := by
  intro n
  simp only [getInst, h]
  exact .refl _

theorem keepsTraces_setInst {s : State} {n : Nat} {x : Inst} (h : SameTrace (getInst s n) x) :
    KeepsTraces s (setInst s n x) := by
  intro k
  by_cases hk : k = n
  · subst hk; simpa using h
  · rw [getInst_setInst_other _ _ hk]; exact .refl _

theorem keepsTraces_powerDown (s : State) : KeepsTraces s (powerDown s) := by
  intro n
  rcases getInst_powerDown s n with ⟨j, hj⟩ | ⟨-, hj⟩ <;> rw [hj] <;> exact ⟨rfl, rfl⟩

theorem startChain_sameTrace {x y : Inst} (h : startChain x = .ok y) : SameTrace x y := by
  unfold startChain at h
  split at h
  · cases h
  · rename_i hl
    cases h
    exact (load_frame hl).sameTrace

theorem runMicro_keepsTraces {n : Nat} {m : Micro} {s t : State} (h : runMicro n m s = .done t) : KeepsTraces s t := by
  cases m with
  | pteEnable sd ld =>
    simp only [runMicro, microPteEnable] at h
    split at h <;> cases h
    exact keepsTraces_setInst ⟨rfl, rfl⟩
  | buildRecord i =>
    simp only [runMicro, microBuildRecord] at h
    split at h
    · cases h
    · split at h <;> cases h
      exact keepsTraces_setInst ⟨rfl, rfl⟩
  | buildEnd =>
    simp only [runMicro, microBuildEnd] at h
    split at h <;> cases h
    exact keepsTraces_setInst ⟨rfl, rfl⟩
  | tdcStart =>
    simp only [runMicro, microTdcStart, onInstE] at h
    split at h
    · cases h
    · split at h <;> cases h
      exact keepsTraces_setInst (startChain_sameTrace ‹_›)
  | spinStopped =>
    simp only [runMicro] at h
    split at h <;> cases h
    exact keepsTraces_of_insts rfl
  | clkPowerUp =>
    simp only [runMicro, microClkPowerUp] at h
    split at h <;> cases h
    exact keepsTraces_of_insts rfl
  | clkPowerDown =>
    simp only [runMicro, microClkPowerDown] at h
    split at h <;> cases h
    · exact keepsTraces_powerDown s
    · exact keepsTraces_of_insts rfl
  | unclaim =>
    simp only [runMicro, microUnclaim] at h
    split at h
    · cases h; exact keepsTraces_of_insts rfl
    · split at h <;> cases h <;> exact keepsTraces_of_insts rfl
  | pinsConfigure p => cases h; exact keepsTraces_of_insts rfl
  | pinsRelease => cases h; exact keepsTraces_of_insts rfl
  | _ => cases h; exact keepsTraces_setInst ⟨rfl, rfl⟩

theorem MicroRun.keepsTraces {l : List (Nat × Micro)} {s t : State} (h : MicroRun l s t) : KeepsTraces s t := by
  induction h with
  | rest h => exact keepsTraces_of_insts h
  | micro h _ ih => exact (runMicro_keepsTraces h).trans ih

theorem hardware_keepsTraces {s t : State} {g : Inst → Except Stop Inst} (h : hardware s g = .next t)
    (hg : ∀ x y, g x = .ok y → SameTrace x y) : KeepsTraces s t := by
  obtain ⟨x, hx, rfl⟩ := hardware_next h
  exact keepsTraces_setInst (hg _ _ hx)

/-- A unit transfer whose kind's own effect is one the sequencer may have (R161). -/
theorem unitStep_keepsTraces {s t : State} {k : Kind} {check : Inst → Option Fault} {effect : Inst → Inst} {f : Fields}
    (h : unitStep s (transfer k check effect f) = .next t) (he : ∀ x, SequencerOnly x (effect x)) : KeepsTraces s t := by
  rcases unitStep_next h with ⟨-, rfl⟩ | ⟨-, x, hx, rfl⟩
  · exact keepsTraces_of_insts rfl
  · exact keepsTraces_setInst (transfer_frame (he _) hx).sameTrace

/-- No instruction but `LATCH` changes an output trace or records a fault (R18). -/
theorem exec_keepsTraces {i : Instr} {s t : State} (h : exec i s = .next t) (hi : i ≠ .latch) : KeepsTraces s t := by
  cases i with
  | prime f => exact unitStep_keepsTraces h .refl
  | gateHi f => exact unitStep_keepsTraces h .refl
  | data f => exact unitStep_keepsTraces h .refl
  | close f => exact unitStep_keepsTraces h fun _ => rfl
  | gap f => exact unitStep_keepsTraces h .refl
  | reservedKind5 f => cases h
  | reservedKind6 f => cases h
  | reservedKind7 f => cases h
  | requestSwap =>
    simp only [exec, execRequestSwap] at h
    obtain ⟨-, -, h⟩ := asCall_next h
    split at h
    · exact (callOp_microRun h).keepsTraces
    all_goals cases h
  | irqHandler =>
    obtain ⟨n, hr⟩ := enterHandler_microRun h
    exact hr.keepsTraces
  | bufferReady =>
    simp only [exec, execBufferReady] at h
    obtain ⟨-, -, h⟩ := asCall_next h
    cases h
    exact keepsTraces_of_insts rfl
  | setChannelType ch ty =>
    simp only [exec, execSetChannelType] at h
    obtain ⟨-, -, h⟩ := asCall_next h
    split at h <;> cases h
    · exact keepsTraces_of_insts rfl
    · exact keepsTraces_setInst ⟨rfl, rfl⟩
  | setActiveColor ch idx col => exact (accessorOp_microRun h).keepsTraces
  | setInactiveColor ch idx col => exact (accessorOp_microRun h).keepsTraces
  | getActiveColor ch idx => cases asAccessor_next h; exact keepsTraces_of_insts rfl
  | getInactiveColor ch idx => cases asAccessor_next h; exact keepsTraces_of_insts rfl
  | construct leds cap mode =>
    simp only [exec, execConstruct] at h
    obtain ⟨-, -, h⟩ := asCall_next h
    split at h
    · cases h
    · split at h <;> cases h
      exact keepsTraces_setInst (s := s) ⟨rfl, rfl⟩
  | initialise u p =>
    simp only [exec, execInitialise] at h
    obtain ⟨-, -, h⟩ := asCall_next h
    split at h
    · cases h; exact keepsTraces_of_insts rfl
    · exact (callOp_microRun h).keepsTraces
  | latch => exact absurd rfl hi
  | service =>
    simp only [exec, execService] at h
    split at h
    · exact hardware_keepsTraces h fun _ _ hx => (serviceInst_frame hx).sameTrace
    · cases h; exact keepsTraces_of_insts rfl
  | writeback a =>
    simp only [exec, execWriteback] at h
    split at h
    · exact hardware_keepsTraces h fun _ _ hx => by cases hx; exact ⟨rfl, rfl⟩
    · cases h; exact keepsTraces_of_insts rfl
  | _ => exact (callOp_microRun h).keepsTraces

/-- What a `LATCH` does to any instance (R126): the instance of the turn is latched, or nothing happens to it. -/
theorem exec_latch_inst {s t : State} (h : exec .latch s = .next t) (n : Nat) :
    (n = s.sel ∧ getInst t n = latchInst (getInst s n)) ∨ getInst t n = getInst s n := by
  simp only [exec, execLatch] at h
  split at h
  · obtain ⟨x, hx, rfl⟩ := hardware_next h
    cases hx
    by_cases hn : n = s.sel
    · subst hn; exact .inl ⟨rfl, getInst_setInst_same _ _ _⟩
    · exact .inr (getInst_setInst_other _ _ hn)
  · cases h; exact .inr rfl

/-- A loaded record is no `LATCH`. -/
theorem decodeRecord_ne_latch (d : Desc) : decodeRecord d ≠ .latch := by
  unfold decodeRecord
  cases kindOf d <;> nofun

/-- What one turn does to an output trace (R18): it is the instance's `LATCH`, which latches it, or it keeps it. -/
theorem takeTurn_trace {u : Turn} {s t : State} (h : takeTurn u s = .next t) (n : Nat) :
    (turnIs u n .latch = true ∧ getInst t n = latchInst (getInst s n)) ∨ SameTrace (getInst s n) (getInst t n) := by
  unfold takeTurn at h
  split at h
  · cases h; exact .inr (.refl _)
  · cases u with
    | op m g code =>
      rcases hd : decodeLine code with e | i <;> simp only [hd] at h
      · cases h
      · by_cases hi : i = .latch
        · subst hi
          rcases exec_latch_inst h n with ⟨rfl, hn⟩ | hn
          · exact .inl ⟨by simp [turnIs, hd], hn⟩
          · exact .inr (hn ▸ .refl _)
        · exact .inr (exec_keepsTraces h hi n)
    | unit m =>
      dsimp only at h
      split at h
      · exact .inr (exec_keepsTraces h (decodeRecord_ne_latch _) n)
      · cases h; exact .inr (.refl _)
    | callNext =>
      simp only [callNext] at h
      split at h
      · cases h; exact .inr (.refl _)
      · exact .inr ((stepCall_microRun h).keepsTraces n)
    | irqNext => exact .inr ((stepIrq_microRun h).keepsTraces n)
    | lockLine b => cases h; exact .inr (.refl _)

theorem nextTurn_insts (s : State) : (nextTurn s).2.insts = s.insts := by
  unfold nextTurn
  split <;> rfl

/-- What one step does to an output trace (R18): its turn is the instance's `LATCH`, which latches it, or it keeps it. -/
theorem step_trace {s t : State} (h : step s = .next t) (n : Nat) :
    (turnIs (nextTurn s).1 n .latch = true ∧ getInst t n = latchInst (getInst s n))
      ∨ SameTrace (getInst s n) (getInst t n) := by
  have hn : getInst (nextTurn s).2 n = getInst s n := congrArg (instAt · n) (nextTurn_insts s)
  rw [← hn]
  exact takeTurn_trace h n

/-- A slot has one symbol a line (R18). -/
theorem slotSyms_length (g d : Word) : (slotSyms g d).length = 32 := by
  simp [slotSyms]

/-- Settles O58: every instruction but `LATCH` keeps the traces, and a `LATCH` appends one slot to its instance's. -/
theorem onlyLatchAddsASlot : Obligations.OnlyLatchAddsASlot := by
  refine ⟨fun i s t n h hi => exec_keepsTraces h hi n, fun s t n h hturn => ?_, fun s t n h => ?_⟩
  · rcases step_trace h n with ⟨hl, -⟩ | hk
    · rw [hturn] at hl; cases hl
    · exact hk
  · rcases step_trace h n with ⟨-, hl⟩ | hk
    · exact .inr ⟨_, slotSyms_length _ _, by rw [hl]; rfl⟩
    · exact .inl hk.1

end Sys2Proof.Machine
end

section
/-! SUPPORT. The two views of memory (20_memory.md): a host write, a flush and a write-back, said of every address, and the
host operations of one micro-step that cannot fail. -/

namespace Sys2Proof.Machine

open Sys2Proof

/-- A host read at any address after a host write (R70). -/
theorem hostRead_hostWrite (b : Buffer) (a k : Nat) (v : Word) :
    hostRead (hostWrite b a v) k = if k = a then v else hostRead b k := by
  split
  · subst k; exact hostRead_hostWrite_same b a v
  · exact hostRead_hostWrite_other b v ‹_›

/-- The dirty addresses after a host write (R70). -/
theorem mem_dirty_hostWrite (b : Buffer) (a k : Nat) (v : Word) :
    k ∈ (hostWrite b a v).dirty ↔ k = a ∨ k ∈ b.dirty :=
  mem_addAddr b.dirty a k

theorem covers_iff {addr len a : Nat} : covers addr len a = true ↔ addr ≤ a ∧ a < addr + len ∧ a % 4 = 0 := by
  simp [covers, and_assoc]

/-- `Flush(addr, len)` is the flush of R72 at every address. -/
theorem flushBuf_flushedOver (b : Buffer) (addr len : Nat) : FlushedOver b (flushBuf b addr len) addr len := by
  intro k
  obtain ⟨hhost, hdma, hdirty⟩ := flushBuf_spec b addr len k
  rw [← Bool.not_eq_true] at hdirty
  simp only [covers_iff] at hdma hdirty
  exact ⟨hhost, hdma, hdirty⟩

/-- A host operation whose one micro-step changes the instance of the turn and cannot fail, in either grain (R15 (a)). -/
theorem callOp_onInst {s : State} (h : idle s) {m : Micro} {g : Inst → Inst}
    (hm : runMicro s.sel m s = onInst s s.sel g) : callOp [m] s = .next (setThis s (g (this s))) := by
  rw [callOp_one h, hm]
  exact congrArg Host.Outcome.next (setThis_call_nil h.1 _)

/-- `FLUSH addr, len` flushes the buffer of the instance of the turn (R72). -/
theorem exec_flush {s : State} (h : idle s) (addr len : Word) :
    exec (.flush addr len) s
      = .next (setThis s { this s with buf := flushBuf (this s).buf addr.toNat len.toNat }) :=
  callOp_onInst h (m := .flush addr.toNat len.toNat)
    (g := fun x => { x with buf := flushBuf x.buf addr.toNat len.toNat }) rfl

/-- `WRITEBACK a` of a dirty word writes it back (R71). -/
theorem exec_writeback_dirty {s : State} {a : Word} (h : a.toNat ∈ (this s).buf.dirty) :
    exec (.writeback a) s = .next (setThis s { this s with buf := writebackBuf (this s).buf a.toNat }) :=
  if_pos h

/-- `WRITEBACK a` of a clean word is not enabled (R71). -/
theorem exec_writeback_clean {s : State} {a : Word} (h : a.toNat ∉ (this s).buf.dirty) :
    exec (.writeback a) s = .next s :=
  if_neg h

/-- Settles O31, by what a host write does to each view and to the dirty set. -/
theorem hostAccess : Obligations.HostAccess :=
  fun b a k v => ⟨hostRead_hostWrite b a k v, dmaRead_hostWrite b a k v, mem_dirty_hostWrite b a k v⟩

/-- Settles O32: the buffer after is the flushed one. -/
theorem flushResult : Obligations.FlushResult :=
  fun _ addr len h => ⟨_, exec_flush h addr len, flushBuf_flushedOver _ _ _⟩

/-- Settles O33: the buffer after is the one with the dirty word written back. -/
theorem writebackResult : Obligations.WritebackResult := by
  intro s a
  refine ⟨fun hdirty => ⟨_, exec_writeback_dirty hdirty, fun k => ?_⟩, exec_writeback_clean⟩
  obtain ⟨hhost, hdma, hd⟩ := writebackBuf_spec (this s).buf a.toNat k
  refine ⟨hhost, ?_, hd⟩
  rw [hdma]
  split
  · subst k; rfl
  · rfl

end Sys2Proof.Machine
end

section
/-! SUPPORT. Decoding descriptor records (30_encoding.md section 1): an encoded record gives its fields back (R91), so the
example words of R96 decode to the fields they were made of. -/

namespace Sys2Proof

/-- An encoded record decodes to the instruction of its kind, with its fields. -/
@[simp] theorem decodeRecord_encodeRecord (k : Kind) (f : Fields) :
    decodeRecord (encodeRecord k f) = instrOfRecord k f := by
  simp [decodeRecord]

/-- A record whose second word is the `CTRL` of an encoding decodes to what was encoded. -/
theorem decodeRecord_of_ctrl {ctrl : Word} (k : Kind) (f : Fields) (h : encodeCtrl k f = ctrl) :
    decodeRecord ⟨f.src, ctrl⟩ = instrOfRecord k f :=
  h ▸ decodeRecord_encodeRecord k f

/-- A record that is `f` but for `INTEN` is `f` with the record's own `INTEN`. -/
theorem eq_encodeRecord_of_setInten {b : Bool} {d : Desc} {k : Kind} {f : Fields}
    (h : setInten b d = encodeRecord k f) : d = encodeRecord k { f with inten := (fieldsOf d).inten } := by
  have hkind : kindOf d = k := by simpa using congrArg kindOf h
  have hfields : { fieldsOf d with inten := b } = f := by simpa using congrArg fieldsOf h
  subst hkind hfields
  exact (encodeRecord_kindOf_fieldsOf d).symm

/-- Settles O3: each word is the `CTRL` of the fields it decodes to (R91). -/
theorem specWordsDecode : Obligations.SpecWordsDecode := by
  intro src
  refine ⟨decodeRecord_of_ctrl .prime ⟨src, 1, false, false, false, 1, 0, 1⟩ ?_,
    decodeRecord_of_ctrl .gateHi ⟨src, 2, false, false, false, 2, 0, 1⟩ ?_,
    decodeRecord_of_ctrl .close ⟨src, 2, false, false, false, 7, 0, 1⟩ ?_,
    decodeRecord_of_ctrl .close ⟨src, 2, false, true, false, 7, 0, 1⟩ ?_,
    decodeRecord_of_ctrl .gap ⟨src, 0, false, false, false, 0, 0, 240⟩ ?_,
    decodeRecord_of_ctrl .gap ⟨src, 0, false, false, true, 0, 0, 240⟩ ?_,
    decodeRecord_of_ctrl .data ⟨src, 0, true, false, false, 6, 0, 72⟩ ?_⟩
  all_goals simp [encodeCtrl, bitsOfKind]

end Sys2Proof
end

section
/-! SUPPORT. The chain that passes the check of R97 (30_encoding.md sections 1 and 2): its records written out, why each on
the ring is well formed (R95, R67), and what `Load` does with an illegal one (R98). -/

namespace Sys2Proof.Machine

open Sys2Proof

/-- The records that pass R97 (a) and (b), each written out. -/
structure CanonicalRecords (x : Inst) : Prop where
  prime : descAt x 0 = ⟨true, encodeRecord .prime (primeFields x)⟩
  gateHi : descAt x 1 = ⟨true, encodeRecord .gateHi (gateHiFields x)⟩
  data : ∀ i < nData x, ∃ f, segAt x i = ⟨true, encodeRecord .data f⟩ ∧ dataCanonical x i f = true
  unused : ∀ i < 4, nData x ≤ i → segAt x i = ⟨true, unusedRecord⟩
  close : ∃ armed, descAt x 6 = ⟨true, encodeRecord .close (closeFields x armed)⟩
  gap : descAt x 7 = ⟨true, encodeRecord .gap (gapFields x)⟩
  one_le_nData : 1 ≤ nData x
  nData_le_four : nData x ≤ 4

theorem entry_eq_iff {e : Entry} {d : Desc} : e = ⟨true, d⟩ ↔ e.known = true ∧ e.body = d := by
  rw [Entry.mk.injEq]

/-- The check of R97 (a) and (b) leaves these records: `CLOSE` is fixed but for its `INTEN`, a segment but for its
source and count. -/
theorem canonicalRecords_of_recordsCanonical {x : Inst} (h : recordsCanonical x = true) : CanonicalRecords x := by
  simp only [recordsCanonical, Bool.and_eq_true, beq_iff_eq, decide_eq_true_eq, List.all_eq_true, List.mem_range,
    and_assoc] at h
  obtain ⟨k0, b0, k1, b1, k6, b6, k7, b7, hone, hfour, hseg⟩ := h
  exact {
    prime := entry_eq_iff.2 ⟨k0, b0⟩
    gateHi := entry_eq_iff.2 ⟨k1, b1⟩
    data := by
      intro i hi
      obtain ⟨hk, hb⟩ := hseg i (by omega)
      rw [if_pos hi, Bool.and_eq_true, beq_iff_eq] at hb
      exact ⟨fieldsOf (segAt x i).body,
        entry_eq_iff.2 ⟨hk, by rw [← hb.1, encodeRecord_kindOf_fieldsOf]⟩, hb.2⟩
    unused := by
      intro i h4 hi
      obtain ⟨hk, hb⟩ := hseg i h4
      rw [if_neg (by omega), beq_iff_eq] at hb
      exact entry_eq_iff.2 ⟨hk, hb⟩
    close := ⟨_, entry_eq_iff.2 ⟨k6, eq_encodeRecord_of_setInten b6⟩⟩
    gap := entry_eq_iff.2 ⟨k7, b7⟩
    one_le_nData := hone
    nData_le_four := hfour }

/-- What R97 asks of a chain. -/
theorem chainOk_iff {x : Inst} : chainOk x = true ↔
    recordsCanonical x = true ∧ countSum x = frameWords x
      ∧ (sourcesOf x x.par.base0 = true ∨ sourcesOf x (base1 x) = true) ∧ ringOk x = true ∧ constantsOk x = true
      ∧ 1 ≤ x.par.gapCount.toNat := by
  simp [chainOk, and_assoc]

/-- What R67 asks of the addresses. -/
theorem addressesOk_iff {x : Inst} : addressesOk x = true ↔
    x.par.base0.toNat + bufBytes x ≤ 2 ^ 32 ∧ x.par.base0.toNat % 4 = 0 ∧ x.par.zeroAddr.toNat % 4 = 0
      ∧ x.par.onesAddr.toNat % 4 = 0 ∧ isFrameWord x x.par.zeroAddr.toNat = false
      ∧ isFrameWord x x.par.onesAddr.toNat = false ∧ x.par.zeroAddr ≠ x.par.onesAddr := by
  simp [addressesOk, and_assoc]

/-- A frame-buffer word is aligned where the buffer is (R61, R67). -/
theorem isFrameWord_aligned {x : Inst} {a : Nat} (hbase : x.par.base0.toNat % 4 = 0) (h : isFrameWord x a = true) :
    a % 4 = 0 := by
  simp only [isFrameWord, Bool.and_eq_true, decide_eq_true_eq, beq_iff_eq] at h
  omega

/-- The sources of the segments are those of the half `sourcesOf` names (R154). -/
theorem sourcesOf_iff {x : Inst} {base : Word} :
    sourcesOf x base = true ↔ ∀ i < nData x, (segAt x i).body.src = segSrc x base i := by
  simp [sourcesOf]

/-- The canonical fields of a segment, written out (R95). -/
theorem dataCanonical_iff {x : Inst} {i : Nat} {f : Fields} : dataCanonical x i f = true ↔
    isFrameWord x f.src.toNat = true ∧ 1 ≤ f.count.toNat ∧ f.count.toNat ≤ x.par.maxXfer.toNat
      ∧ f = ⟨f.src, 0, true, false, false, segNext x i, 0, f.count⟩ := by
  obtain ⟨src, dst, sadv, inten, dstop, next, rsvd, count⟩ := f
  simp only [dataCanonical, Bool.and_eq_true, beq_iff_eq, decide_eq_true_eq, Bool.not_eq_true', Fields.mk.injEq]
  tauto

/-- A segment leads on to the next segment or to `CLOSE` (R155). -/
theorem segNext_bounds {x : Inst} (i : Nat) (h : nData x ≤ 4) :
    3 ≤ (segNext x i).toNat ∧ (segNext x i).toNat ≤ 6 := by
  unfold segNext
  split
  · rw [BitVec.toNat_ofNat]; omega
  · decide

/-- A record without reserved bits, with a count and with a source on a word boundary, is legal (R65, R98). -/
theorem legal_iff {f : Fields} : f.legal = true ↔
    f.dst ≠ 3 ∧ 1 ≤ f.count.toNat ∧ f.rsvd = 0 ∧ f.src.toNat % 4 = 0 := by
  have hcount : f.count ≠ 0 ↔ 1 ≤ f.count.toNat := by bv_omega
  rw [← hcount]
  simp [Fields.legal, Fields.reservedBits, and_assoc]

/-! The canonical records are well formed (R95, R98). -/

theorem primeFields_wellFormed {x : Inst} (h : x.par.zeroAddr.toNat % 4 = 0) :
    (Instr.prime (primeFields x)).wellFormed = true := by
  simp [Instr.wellFormed, Fields.oneShot, legal_iff, primeFields, h]

theorem gateHiFields_wellFormed {x : Inst} (h : x.par.onesAddr.toNat % 4 = 0) :
    (Instr.gateHi (gateHiFields x)).wellFormed = true := by
  simp [Instr.wellFormed, Fields.oneShot, legal_iff, gateHiFields, h]

theorem closeFields_wellFormed {x : Inst} (h : x.par.zeroAddr.toNat % 4 = 0) (armed : Bool) :
    (Instr.close (closeFields x armed)).wellFormed = true := by
  simp [Instr.wellFormed, Fields.oneShot, legal_iff, closeFields, h]

theorem gapFields_wellFormed {x : Inst} (h : x.par.zeroAddr.toNat % 4 = 0) (hcount : 1 ≤ x.par.gapCount.toNat) :
    (Instr.gap (gapFields x)).wellFormed = true := by
  simp [Instr.wellFormed, legal_iff, gapFields, h, hcount]

theorem dataCanonical_wellFormed {x : Inst} {i : Nat} {f : Fields} (hbase : x.par.base0.toNat % 4 = 0)
    (hfour : nData x ≤ 4) (h : dataCanonical x i f = true) : (Instr.data f).wellFormed = true := by
  obtain ⟨hword, hone, -, hf⟩ := dataCanonical_iff.1 h
  obtain ⟨hlow, hhigh⟩ := segNext_bounds i hfour
  have hsrc := isFrameWord_aligned hbase hword
  rw [hf]
  simp [Instr.wellFormed, legal_iff, hsrc, hone, hlow, hhigh]

/-- An index of the ring is one of the five places of R94. -/
theorem ringIndex_cases {n : Nat} {i : BitVec 3} (h : i.toNat < 2 + n ∨ 6 ≤ i.toNat) :
    i = 0 ∨ i = 1 ∨ (∃ j < n, i = BitVec.ofNat 3 (2 + j)) ∨ i = 6 ∨ i = 7 := by
  by_cases hseg : 2 ≤ i.toNat ∧ i.toNat < 2 + n
  · exact .inr (.inr (.inl ⟨i.toNat - 2, by omega, by bv_omega⟩))
  · bv_omega

/-- On an admitted chain with good addresses every record on the ring is well formed (R95, R97, R98). -/
theorem ring_wellFormed {x : Inst} (hchain : chainOk x = true) (haddr : addressesOk x = true) {i : BitVec 3}
    (hi : i.toNat < 2 + nData x ∨ 6 ≤ i.toNat) : (decodeRecord (descAt x i).body).wellFormed = true := by
  obtain ⟨hrec, -, -, -, -, hgap⟩ := chainOk_iff.1 hchain
  obtain ⟨-, hbase, hzero, hones, -⟩ := addressesOk_iff.1 haddr
  have hx := canonicalRecords_of_recordsCanonical hrec
  obtain rfl | rfl | ⟨j, hj, rfl⟩ | rfl | rfl := ringIndex_cases hi
  · rw [hx.prime, decodeRecord_encodeRecord]
    exact primeFields_wellFormed hzero
  · rw [hx.gateHi, decodeRecord_encodeRecord]
    exact gateHiFields_wellFormed hones
  · obtain ⟨f, hseg, hf⟩ := hx.data j hj
    rw [← segAt, hseg, decodeRecord_encodeRecord]
    exact dataCanonical_wellFormed hbase hx.nData_le_four hf
  · obtain ⟨armed, hclose⟩ := hx.close
    rw [hclose, decodeRecord_encodeRecord]
    exact closeFields_wellFormed hzero armed
  · rw [hx.gap, decodeRecord_encodeRecord]
    exact gapFields_wellFormed hzero hgap

/-- The segments of canonical records whose sources are those of the half at `base`, with the fields of R95. -/
theorem segment_decodes {x : Inst} (hx : CanonicalRecords x) {base : Word} (hsrc : sourcesOf x base = true) {j : Nat}
    (hj : j < nData x) : ∃ count : BitVec 16, 1 ≤ count.toNat ∧ count.toNat ≤ x.par.maxXfer.toNat ∧
      isFrameWord x (segSrc x base j).toNat = true ∧
      decodeRecord (segAt x j).body = .data ⟨segSrc x base j, 0, true, false, false, segNext x j, 0, count⟩ := by
  obtain ⟨f, hseg, hf⟩ := hx.data j hj
  obtain ⟨hword, hone, hmax, hfields⟩ := dataCanonical_iff.1 hf
  have hbase : f.src = segSrc x base j := by simpa [hseg] using sourcesOf_iff.1 hsrc j hj
  rw [hbase] at hword hfields
  refine ⟨f.count, hone, hmax, hword, ?_⟩
  rw [hseg, decodeRecord_encodeRecord, ← hfields]
  rfl

/-- `Load` of a record of a reserved kind or with reserved fields stops with its index (R98, R160). -/
theorem load_reserved {i : BitVec 3} {x : Inst}
    (h : kindOf (descAt x i).body = .reserved5 ∨ kindOf (descAt x i).body = .reserved6
      ∨ kindOf (descAt x i).body = .reserved7 ∨ (fieldsOf (descAt x i).body).reservedBits = true) :
    load i x = .error (.reservedDescriptor i) := by
  refine if_pos ?_
  rcases h with h | h | h | h <;> simp [h]

theorem reservedBits_iff {f : Fields} : f.reservedBits = true ↔ f.dst = 3 ∨ f.count = 0 ∨ f.rsvd ≠ 0 := by
  simp [Fields.reservedBits, or_assoc]

/-- Settles O22: the reserved kinds by their meaning, `Load` by its first check, and the chain by the records R97
leaves. -/
theorem illegalRecordsStop : Obligations.IllegalRecordsStop := by
  refine ⟨fun f s => ⟨rfl, rfl, rfl⟩, fun x i h => load_reserved ?_, fun x hchain haddr => ?_⟩
  · rwa [reservedBits_iff]
  obtain ⟨hrec, -, hhalf, -⟩ := chainOk_iff.1 hchain
  have hx := canonicalRecords_of_recordsCanonical hrec
  refine ⟨fun i => ring_wellFormed hchain haddr, ?_, ?_, ?_, ?_, ?_⟩
  · rw [hx.prime, decodeRecord_encodeRecord]; rfl
  · rw [hx.gateHi, decodeRecord_encodeRecord]; rfl
  · obtain hsrc | hsrc := hhalf
    · exact ⟨_, .inl rfl, fun j => segment_decodes hx hsrc⟩
    · exact ⟨_, .inr rfl, fun j => segment_decodes hx hsrc⟩
  · obtain ⟨armed, hclose⟩ := hx.close
    exact ⟨armed, by rw [hclose, decodeRecord_encodeRecord]; rfl⟩
  · rw [hx.gap, decodeRecord_encodeRecord, ← beq_eq_decide]; rfl

end Sys2Proof.Machine
end

section
/-! SUPPORT. The timing engine's operations (40_timing_engine.md section 3): what `PTE_ENABLE` and `PTE_DISABLE` make of
the instance of the turn (R123 to R125), which steps a disabled engine leaves without effect (R124), and what `LATCH`
does (R126). -/

namespace Sys2Proof.Machine

open Sys2Proof

/-- A host operation of one micro-step that is refused. -/
theorem callOp_refused {s : State} (h : idle s) {m : Micro} {r : Refusal} (hm : runMicro s.sel m s = .refuses r) :
    callOp [m] s = .refused r := by
  rw [callOp_one h, hm]

/-- Writing the instance of the turn leaves the two agents with nothing in progress. -/
theorem idle_setThis {s : State} (h : idle s) (x : Inst) : idle (setThis s x) := h

/-- A change of the instance of the turn that is idempotent on instances is idempotent on the state. -/
theorem setThis_idempotent {g : Inst → Inst} (hg : ∀ x, g (g x) = g x) (s : State) :
    setThis (setThis s (g (this s))) (g (this (setThis s (g (this s))))) = setThis s (g (this s)) := by
  rw [this_setThis, hg]
  exact setInst_setInst s s.sel _ _

/-- The divisors `PTE_ENABLE` accepts (R22, R123). -/
theorem divisorsOk_iff {sd ld : BitVec 16} :
    divisorsOk sd ld = true ↔ ¬(sd = 0 ∨ ld = 0 ∨ ld.toNat ≠ 32 * sd.toNat) := by
  simp [divisorsOk, and_assoc]

/-- `PTE_ENABLE` with divisors it accepts: the three actions of R123 on the instance of the turn. -/
theorem exec_pteEnable {s : State} (h : idle s) {sd ld : BitVec 16} (hd : divisorsOk sd ld = true) :
    exec (.pteEnable sd ld) s = .next (setThis s (enableEngine sd ld (this s))) :=
  callOp_onInst h (if_pos hd)

/-- `PTE_ENABLE` with other divisors is refused (R123). -/
theorem exec_pteEnable_badDivisors {s : State} (h : idle s) {sd ld : BitVec 16} (hd : ¬divisorsOk sd ld = true) :
    exec (.pteEnable sd ld) s = .refused .badDivisors :=
  callOp_refused h (if_neg hd)

/-- `PTE_DISABLE` on an instance: `PTE.EN <- 0` (R124). -/
def disableEngine (x : Inst) : Inst :=
  { x with en := false }

theorem exec_pteDisable {s : State} (h : idle s) :
    exec .pteDisable s = .next (setThis s (disableEngine (this s))) :=
  callOp_onInst h rfl

/-- The reset of R123 forgets what an earlier `PTE_ENABLE` wrote. -/
theorem enableEngine_idempotent (sd ld : BitVec 16) (x : Inst) :
    enableEngine sd ld (enableEngine sd ld x) = enableEngine sd ld x := rfl

theorem disableEngine_idempotent (x : Inst) : disableEngine (disableEngine x) = disableEngine x := rfl

/-- Without an enabled engine no `SERVICE` (R14, R124). -/
theorem serviceEnabled_of_disabled {x : Inst} (h : x.en = false) : serviceEnabled x = false := by
  simp [serviceEnabled, h]

/-- A unit transfer where `SERVICE` is not enabled takes no step (R14, R161). -/
theorem unitStep_not_enabled {s : State} (h : serviceEnabled (this s) = false) (g : Inst → Except Stop Inst) :
    unitStep s g = .next s :=
  if_neg (Bool.eq_false_iff.1 h)

/-- `SERVICE` not enabled takes no step (R161). -/
theorem exec_service_not_enabled {s : State} (h : serviceEnabled (this s) = false) : exec .service s = .next s :=
  if_neg (Bool.eq_false_iff.1 h)

/-- When `LATCH` is enabled: the engine is, it has a clock (R275), and no `SERVICE` loop is under way (R161). -/
theorem latchEnabled_iff {c : ClkGen} {x : Inst} :
    latchEnabled c x = true ↔ x.en = true ∧ c = .locked ∧ ¬(x.mid = true ∧ x.run = true) := by
  cases hen : x.en with
  | false => simp [latchEnabled, hen]
  | true => simp [latchEnabled, inService, hen, imp_iff_not_or]

/-- `LATCH` not enabled takes no step and appends no slot (R126). -/
theorem exec_latch_not_enabled {s : State} (h : ¬latchEnabled s.clkgen (this s) = true) : exec .latch s = .next s :=
  if_neg h

/-- `LATCH` enabled latches the instance of the turn (R126). -/
theorem exec_latch_enabled {s : State} (h : latchEnabled s.clkgen (this s) = true) :
    exec .latch s = .next (setThis s (latchInst (this s))) :=
  if_pos h

/-- `LATCH` of a disabled engine, or with no clock, takes no step (R126, R275). -/
theorem exec_latch_unclocked {s : State} (h : (this s).en = false ∨ s.clkgen = .idle) : exec .latch s = .next s := by
  refine exec_latch_not_enabled fun hl => ?_
  obtain ⟨hen, hclk, -⟩ := latchEnabled_iff.1 hl
  rcases h with h | h
  · rw [h] at hen; cases hen
  · rw [h] at hclk; cases hclk

/-- An underrun: a request not served, with the gate open (R126). -/
theorem underruns_iff {x : Inst} : underruns x = true ↔ x.req = true ∧ x.gate ≠ ZERO := by
  simp [underruns]

/-- A slot holds an unspecified symbol where some line carries one (R126). -/
theorem slotSyms_contains_unspec (g d : Word) :
    (slotSyms g d).contains .unspec = (List.range 32).any fun c => sym g d c == .unspec := by
  rw [slotSyms, ← List.any_beq', List.any_map]
  rfl

/-- The faults a `LATCH` records, each under its own condition (R126). -/
theorem latchFaults_eq (x : Inst) :
    latchFaults x = (if x.req = true ∧ x.gate ≠ ZERO then [.underrun x.out.length] else [])
      ++ (if (List.range 32).any (fun c => sym x.gate x.dbuf c == .unspec) then
            [.unspecOutput x.out.length x.gate x.dbuf] else []) := by
  simp only [latchFaults, underruns_iff, slotSyms_contains_unspec]

/-- Settles O7: both operations change the instance of the turn alone, and each change is idempotent. -/
theorem enablingTwiceIsOnce : Obligations.EnablingTwiceIsOnce := by
  intro s t hs
  refine ⟨fun sd ld h => ?_, fun h => ?_⟩
  · by_cases hd : divisorsOk sd ld = true
    · rw [exec_pteEnable hs hd] at h
      cases h
      rw [exec_pteEnable (idle_setThis hs _) hd, setThis_idempotent (enableEngine_idempotent sd ld)]
    · rw [exec_pteEnable_badDivisors hs hd] at h
      cases h
  · rw [exec_pteDisable hs] at h
    cases h
    rw [exec_pteDisable (idle_setThis hs _), setThis_idempotent disableEngine_idempotent]

/-- Settles O6: the check on the divisors decides between the refusal and the three actions. -/
theorem pteEnableResult : Obligations.PteEnableResult :=
  fun _ _ _ hs => ⟨fun hbad => exec_pteEnable_badDivisors hs fun hd => divisorsOk_iff.1 hd hbad,
    fun hgood => exec_pteEnable hs (divisorsOk_iff.2 hgood)⟩

/-- Settles O8: `LATCH` and `SERVICE`, of which a unit transfer is one pass, need the enable that is cleared. -/
theorem pteDisableResult : Obligations.PteDisableResult := by
  intro s hs
  have hen : (this (setThis s (disableEngine (this s)))).en = false := by rw [this_setThis]; rfl
  have hserve := serviceEnabled_of_disabled hen
  exact ⟨_, exec_pteDisable hs, rfl, exec_latch_unclocked (.inl hen), exec_service_not_enabled hserve,
    fun f => ⟨unitStep_not_enabled hserve _, unitStep_not_enabled hserve _, unitStep_not_enabled hserve _,
      unitStep_not_enabled hserve _, unitStep_not_enabled hserve _⟩⟩

/-- Settles O9: where `LATCH` is not enabled nothing happens, else the instance is latched, with these faults. -/
theorem latchResult : Obligations.LatchResult := by
  refine fun s => ⟨exec_latch_unclocked, fun hen hclk hmid => ?_⟩
  rw [exec_latch_enabled (latchEnabled_iff.2 ⟨hen, hclk, hmid⟩), latchInst, latchFaults_eq, ← List.append_assoc]
  rfl

end Sys2Proof.Machine
end

section
/-! SUPPORT. The symbols and their waveforms (40_timing_engine.md R127, R129), one lemma a row of the symbol table. -/

namespace Sys2Proof.Machine

open Sys2Proof

@[simp] theorem sym_zero_low {d : Word} {c : Nat} (h : d.getLsbD c = false) : sym ZERO d c = .low := by
  simp [sym, h]

@[simp] theorem sym_zero_unspec {d : Word} {c : Nat} (h : d.getLsbD c = true) : sym ZERO d c = .unspec := by
  simp [sym, h]

theorem ones_ne_zero : ONES ≠ ZERO := by decide

@[simp] theorem sym_ones_pulse0 {d : Word} {c : Nat} (h : d.getLsbD c = false) : sym ONES d c = .pulse0 := by
  simp [sym, ones_ne_zero, h]

@[simp] theorem sym_ones_pulse1 {d : Word} {c : Nat} (h : d.getLsbD c = true) : sym ONES d c = .pulse1 := by
  simp [sym, ones_ne_zero, h]

/-- A gate that is neither constant has no symbol on any line (R127). -/
theorem sym_otherGate {g : Word} (hzero : g ≠ ZERO) (hones : g ≠ ONES) (d : Word) (c : Nat) : sym g d c = .unspec := by
  rw [sym, if_neg hzero, if_neg hones]

/-- With the gate open a line is high for the envelope, and a 1 bit extends it (R129): `ENV_TICKS < ONE_TICKS` makes the
pulse of a 1 contain the pulse of a 0. -/
theorem wave_openGate {p : Params} (h : p.envTicks < p.oneTicks) (d : Word) (c tick : Nat) :
    wave p (sym ONES d c) tick
      = some (decide (tick < p.envTicks ∨ (d.getLsbD c = true ∧ tick < p.oneTicks))) := by
  cases hbit : d.getLsbD c with
  | false => simp [hbit, wave]
  | true =>
    have hext : tick < p.envTicks ∨ tick < p.oneTicks ↔ tick < p.oneTicks := by omega
    simp [hbit, wave, hext]

/-- Settles O10, row by row. -/
theorem symbolTable : Obligations.SymbolTable :=
  fun d c _ => ⟨sym_zero_low, sym_zero_unspec, sym_ones_pulse0, sym_ones_pulse1,
    fun _ hzero hones => sym_otherGate hzero hones d c⟩

/-- Settles O12: the rows are the definition of `WAVE`, the open gate is `wave_openGate`. -/
theorem waveLevels : Obligations.WaveLevels :=
  fun _ tick _ _ henv _ => ⟨rfl, rfl, rfl, rfl, fun d c _ => wave_openGate henv d c tick⟩

end Sys2Proof.Machine
end

section
/-! SUPPORT. `Load` of any record (41_descriptor_chain.md R160): which records it stops at, said of their bits. -/

namespace Sys2Proof.Machine

open Sys2Proof

/-- An entry `Load` stops at with `ReservedDescriptor`, said of its bits: an unknown record, a reserved kind, selector or
count, or a reserved bit (R98, R160, R260). -/
def IllegalEntry (e : Entry) : Prop :=
  e.known = false ∨ 5 ≤ (e.body.ctrl.extractLsb' 0 3).toNat ∨ e.body.ctrl.extractLsb' 3 2 = 3
    ∨ e.body.ctrl.extractLsb' 16 16 = 0 ∨ e.body.ctrl.extractLsb' 11 5 ≠ 0

/-- The tags 5 to 7 are the reserved kinds (R92). -/
theorem kindOfBits_reserved_iff (k : BitVec 3) :
    (kindOfBits k = .reserved5 ∨ kindOfBits k = .reserved6 ∨ kindOfBits k = .reserved7) ↔ 5 ≤ k.toNat := by
  revert k; decide

/-- The bits name a reserved kind or reserved fields (R91, R92). -/
theorem illegalEntry_iff {e : Entry} : IllegalEntry e ↔
    e.known = false ∨ kindOf e.body = .reserved5 ∨ kindOf e.body = .reserved6 ∨ kindOf e.body = .reserved7
      ∨ (fieldsOf e.body).reservedBits = true := by
  rw [IllegalEntry, ← kindOfBits_reserved_iff, reservedBits_iff, or_assoc, or_assoc]
  rfl

/-- The first check of `Load` (R160). -/
theorem load_illegal {i : BitVec 3} {x : Inst} (h : IllegalEntry (descAt x i)) :
    load i x = .error (.reservedDescriptor i) := by
  rcases illegalEntry_iff.1 h with h | h
  · exact if_pos (by simp [h])
  · exact load_reserved h

/-- The second check of `Load` (R160). -/
theorem load_misaligned {i : BitVec 3} {x : Inst} (h : ¬IllegalEntry (descAt x i))
    (hsrc : (descAt x i).body.src.toNat % 4 ≠ 0) : load i x = .error (.misalignedSource i) :=
  (if_neg (by simpa [illegalEntry_iff, and_assoc] using h)).trans (if_pos hsrc)

/-- `Load` accepts an entry that passes both checks (R160). -/
theorem loadable_iff {e : Entry} : loadable e ↔ ¬IllegalEntry e ∧ e.body.src.toNat % 4 = 0 := by
  simp [loadable, illegalEntry_iff, and_assoc]

/-- Settles O15: the two checks of `Load`, then the position. -/
theorem loadRule : Obligations.LoadRule :=
  fun _ _ => ⟨load_illegal, load_misaligned, fun h hsrc => load_of_loadable (loadable_iff.2 ⟨h, hsrc⟩)⟩

end Sys2Proof.Machine
end

section
/-! SUPPORT. One pass of the loop of `SERVICE` (41_descriptor_chain.md section 3, R161 and R162): what stops it, what it
makes of the instance where the record is admitted, and from that what each kind of record does (section 4). -/

namespace Sys2Proof.Machine

open Sys2Proof

/-- The kind-specific check of a record (R161, R166). -/
def checkOf : Kind → Inst → Option Fault
  | .gateHi => primedCheck
  | _ => noCheck

/-- The kind-specific effect of a record (R161, R168). -/
def effectOf : Kind → Inst → Inst
  | .close => forgetDsec
  | _ => id

theorem checkOf_eq (k : Kind) (x : Inst) :
    checkOf k x = if k = .gateHi ∧ x.dsec ≠ some ZERO then some .spuriousLeadBit else none := by
  cases k <;> simp [checkOf, noCheck, primedCheck]

theorem effectOf_eq (k : Kind) (x : Inst) :
    effectOf k x = { x with dsec := if k = .close then none else x.dsec } := by
  cases k <;> rfl

/-- Executing a record of one of the five kinds is a unit transfer with its kind's check and effect (R161). -/
theorem exec_record {k : Kind} (h5 : k ≠ .reserved5) (h6 : k ≠ .reserved6) (h7 : k ≠ .reserved7) (f : Fields)
    (s : State) : exec (instrOfRecord k f) s = unitStep s (transfer k (checkOf k) (effectOf k) f) := by
  cases k
  case reserved5 => exact absurd rfl h5
  case reserved6 => exact absurd rfl h6
  case reserved7 => exact absurd rfl h7
  all_goals rfl

/-! How a hardware step answers -/

theorem unitStep_enabled {s : State} (h : serviceEnabled (this s) = true) (g : Inst → Except Stop Inst) :
    unitStep s g = hardware s g :=
  if_pos h

theorem hardware_ok {s : State} {g : Inst → Except Stop Inst} {x : Inst} (h : g (this s) = .ok x) :
    hardware s g = .next (setThis s x) := by
  rw [hardware, h]

theorem hardware_fault {s : State} {g : Inst → Except Stop Inst} {e : Fault} (h : g (this s) = .error (.fault e)) :
    hardware s g = .fault e := by
  rw [hardware, h]

theorem hardware_refuse {s : State} {g : Inst → Except Stop Inst} {r : Refusal}
    (h : g (this s) = .error (.refuse r)) : hardware s g = .refused r := by
  rw [hardware, h]

/-! The faults of a unit transfer, in the order of R161 -/

theorem transfer_fault {k : Kind} {check : Inst → Option Fault} {effect : Inst → Inst} {f : Fields} {x : Inst}
    {e : Fault} (h : transferFault check f x = some e) : transfer k check effect f x = .error (.fault e) := by
  rw [transfer, h]

theorem transferFault_reserved {check : Inst → Option Fault} {f : Fields} {x : Inst} (h : f.reservedBits = true) :
    transferFault check f x = some (.reservedDescriptor x.cur) :=
  if_pos h

theorem transferFault_unmapped {check : Inst → Option Fault} {f : Fields} {x : Inst} (hr : f.reservedBits = false)
    (hv : memRead x x.srcCur = none) : transferFault check f x = some (.unmappedSource x.srcCur) := by
  simp [transferFault, hr, hv]

theorem transferFault_mapped {check : Inst → Option Fault} {f : Fields} {x : Inst} {v : Word}
    (hr : f.reservedBits = false) (hv : memRead x x.srcCur = some v) : transferFault check f x = check x := by
  simp [transferFault, hr, hv]

/-! `Complete` (R162) -/

theorem raiseIrq_if (f : Fields) (x : Inst) :
    (if f.inten then raiseIrq x else x) = { x with irqPend := x.irqPend || f.inten } := by
  cases f.inten <;> simp [raiseIrq]

/-- `INTEN` raises the interrupt; then `DSTOP` stops the chain, or the successor is loaded (R162). -/
theorem complete_eq (f : Fields) (x : Inst) :
    complete f x = if f.dstop then .ok { x with irqPend := x.irqPend || f.inten, run := false }
      else load f.next { x with irqPend := x.irqPend || f.inten } := by
  simp only [complete, raiseIrq_if]

theorem completeStep_of_ok {f : Fields} {x y : Inst} (h : complete f x = .ok y) : completeStep f x = .ok y := by
  rw [completeStep, h]

theorem completeStep_of_error {f : Fields} {x : Inst} {e : Fault} (h : complete f x = .error e) :
    completeStep f x = .error (.fault e) := by
  rw [completeStep, h]

theorem completeStep_stop {f : Fields} {x : Inst} (h : f.dstop = true) :
    completeStep f x = .ok { x with irqPend := x.irqPend || f.inten, run := false } :=
  completeStep_of_ok ((complete_eq f x).trans (if_pos h))

theorem complete_of_not_stop {f : Fields} (h : f.dstop = false) (x : Inst) :
    complete f x = load f.next { x with irqPend := x.irqPend || f.inten } :=
  (complete_eq f x).trans (if_neg (by simp [h]))

theorem completeStep_load {f : Fields} {x : Inst} (h : f.dstop = false) (hl : loadable (descAt x f.next)) :
    completeStep f x = .ok
      { x with
        irqPend := x.irqPend || f.inten
        cur := f.next, w := (descAt x f.next).body, srcCur := (descAt x f.next).body.src
        cntRem := (fieldsOf (descAt x f.next).body).count } :=
  completeStep_of_ok ((complete_of_not_stop h x).trans (load_of_loadable hl))

theorem completeStep_loadFault {f : Fields} {x : Inst} (h : f.dstop = false) (hl : ¬loadable (descAt x f.next)) :
    completeStep f x = .error (.fault (.reservedDescriptor f.next))
      ∨ completeStep f x = .error (.fault (.misalignedSource f.next)) :=
  (load_of_not_loadable (x := { x with irqPend := x.irqPend || f.inten }) hl).imp
    (fun e => completeStep_of_error ((complete_of_not_stop h x).trans e))
    fun e => completeStep_of_error ((complete_of_not_stop h x).trans e)

/-! The effect of a unit transfer (R161) -/

/-- The instance after the register write and the counters of a unit transfer of the word `v` (R161). -/
def moved (k : Kind) (f : Fields) (v : Word) (x : Inst) : Inst :=
  { x with
    dbuf := if f.dst = 0 then v else x.dbuf
    dsec := if f.dst = 1 then some v else if k = .close then none else x.dsec
    gate := if f.dst = 2 then v else x.gate
    srcCur := if f.sadv = true then x.srcCur + 4 else x.srcCur
    cntRem := x.cntRem - 1
    req := if f.dst = 0 then false else x.req
    mid := !decide (f.dst = 0) }

/-- The register `DST` selects (R93), written out. -/
theorem writeReg_eq (r : BitVec 2) (v : Word) (x : Inst) :
    writeReg r v x =
      { x with
        dbuf := if r = 0 then v else x.dbuf
        dsec := if r = 1 then some v else x.dsec
        gate := if r = 2 then v else x.gate } := by
  have hr : r = 0 ∨ r = 1 ∨ r = 2 ∨ r = 3 := by revert r; decide
  rcases hr with rfl | rfl | rfl | rfl <;> rfl

theorem advance_writeReg_effectOf (k : Kind) (f : Fields) (v : Word) (x : Inst) :
    advance f (writeReg f.dst v (effectOf k x)) = moved k f v x := by
  rw [effectOf_eq, writeReg_eq, advance, moved]
  simp [bne, beq_eq_decide]

theorem transferEffect_eq (k : Kind) (f : Fields) (v : Word) (x : Inst) :
    transferEffect (effectOf k) f v x
      = if x.cntRem = 1 then completeStep f (moved k f v x) else .ok (moved k f v x) := by
  have hlast : (moved k f v x).cntRem = 0 ↔ x.cntRem = 1 := sub_eq_zero
  simp only [transferEffect, advance_writeReg_effectOf, hlast]

/-- A unit transfer that has its effect: `SERVICE` is enabled, none of the faults of R161 and R166 comes, and the record
is admitted (R98). -/
structure Transfers (k : Kind) (f : Fields) (v : Word) (x : Inst) : Prop where
  enabled : serviceEnabled x = true
  unreserved : f.reservedBits = false
  mapped : memRead x x.srcCur = some v
  primed : k = .gateHi → x.dsec = some ZERO
  zero : x.zeroWord = ZERO
  ones : x.onesWord = ONES
  canonical : CanonicalAt k f x

/-- The three reserved kinds have no canonical record (R95, R98). -/
theorem CanonicalAt.not_reserved {k : Kind} {f : Fields} {x : Inst} (h : CanonicalAt k f x) :
    k ≠ .reserved5 ∧ k ≠ .reserved6 ∧ k ≠ .reserved7 := by
  refine ⟨?_, ?_, ?_⟩ <;> rintro rfl <;> exact h

namespace Transfers

variable {k : Kind} {f : Fields} {v : Word} {s : State}

/-- Such a unit transfer is its effect. -/
theorem exec_eq (h : Transfers k f v (this s)) : exec (instrOfRecord k f) s
    = hardware s fun x => if x.cntRem = 1 then completeStep f (moved k f v x) else .ok (moved k f v x) := by
  obtain ⟨h5, h6, h7⟩ := h.canonical.not_reserved
  have hcheck : checkOf k (this s) = none := by
    rw [checkOf_eq, if_neg fun hc => hc.2 (h.primed hc.1)]
  have heffect := transfer_eq_effect (effect := effectOf k) h.unreserved h.mapped hcheck
    (admitted_iff.2 ⟨h.zero, h.ones, h.canonical⟩)
  rw [exec_record h5 h6 h7, unitStep_enabled h.enabled, hardware, heffect, transferEffect_eq]
  rfl

/-- Before the last word the record stays loaded (R161). -/
theorem exec_goesOn (h : Transfers k f v (this s)) (hc : (this s).cntRem ≠ 1) :
    exec (instrOfRecord k f) s = .next (setThis s (moved k f v (this s))) :=
  h.exec_eq.trans (hardware_ok (if_neg hc))

/-- The last word of a record with `DSTOP` stops the chain (R162). -/
theorem exec_stops (h : Transfers k f v (this s)) (hc : (this s).cntRem = 1) (hstop : f.dstop = true) :
    exec (instrOfRecord k f) s = .next (setThis s
      { moved k f v (this s) with irqPend := (this s).irqPend || f.inten, run := false }) :=
  h.exec_eq.trans (hardware_ok ((if_pos hc).trans (completeStep_stop hstop)))

/-- The last word of another record loads its successor (R162). -/
theorem exec_loads (h : Transfers k f v (this s)) (hc : (this s).cntRem = 1) (hstop : f.dstop = false)
    (hl : loadable (descAt (this s) f.next)) :
    exec (instrOfRecord k f) s = .next (setThis s
      { moved k f v (this s) with
        irqPend := (this s).irqPend || f.inten
        cur := f.next, w := (descAt (this s) f.next).body, srcCur := (descAt (this s) f.next).body.src
        cntRem := (fieldsOf (descAt (this s) f.next).body).count }) :=
  h.exec_eq.trans (hardware_ok ((if_pos hc).trans (completeStep_load hstop hl)))

/-- A successor that cannot be loaded stops the machine (R160, R162). -/
theorem exec_loadFault (h : Transfers k f v (this s)) (hc : (this s).cntRem = 1) (hstop : f.dstop = false)
    (hl : ¬loadable (descAt (this s) f.next)) :
    exec (instrOfRecord k f) s = .fault (.reservedDescriptor f.next)
      ∨ exec (instrOfRecord k f) s = .fault (.misalignedSource f.next) := by
  rw [h.exec_eq]
  exact (completeStep_loadFault (x := moved k f v (this s)) hstop hl).imp (fun e => hardware_fault ((if_pos hc).trans e))
    fun e => hardware_fault ((if_pos hc).trans e)

end Transfers

/-- The check of R166 stops a gate from opening on a channel that is not primed. -/
theorem exec_gateHi_unprimed {f : Fields} {v : Word} {s : State} (hon : serviceEnabled (this s) = true)
    (hr : f.reservedBits = false) (hv : memRead (this s) (this s).srcCur = some v)
    (hd : (this s).dsec ≠ some ZERO) : exec (.gateHi f) s = .fault .spuriousLeadBit := by
  have hfault : transferFault primedCheck f (this s) = some .spuriousLeadBit :=
    (transferFault_mapped hr hv).trans (if_neg hd)
  exact (unitStep_enabled hon _).trans (hardware_fault (transfer_fault hfault))

/-- Settles O16: the faults in the order of R161, the refusal, and the effect with the completion of R162. -/
theorem unitTransferRule : Obligations.UnitTransferRule := by
  intro k f s h5 h6 h7
  have hexec := exec_record h5 h6 h7 f s
  refine ⟨fun hoff => ?_, fun hon hr => ?_, fun hon hr hv => ?_, fun v hon hr hv =>
    ⟨fun hk hd => ?_, fun hprimed hbad => ?_, fun hprimed hzero hones hcan => ?_⟩⟩
  · rw [hexec, unitStep_not_enabled hoff]
  · rw [hexec, unitStep_enabled hon, hardware_fault (transfer_fault (transferFault_reserved hr))]
  · rw [hexec, unitStep_enabled hon, hardware_fault (transfer_fault (transferFault_unmapped hr hv))]
  · subst hk
    exact exec_gateHi_unprimed hon hr hv hd
  · have hnone : transferFault (checkOf k) f (this s) = none := by
      rw [transferFault_mapped hr hv, checkOf_eq, if_neg fun hc => hc.2 (hprimed hc.1)]
    have hadm : admitted k f (this s) = false := by rwa [← Bool.not_eq_true, admitted_iff]
    rw [hexec, unitStep_enabled hon, hardware_refuse (transfer_not_admitted hnone hadm)]
  · have h : Transfers k f v (this s) := ⟨hon, hr, hv, hprimed, hzero, hones, hcan⟩
    exact ⟨h.exec_goesOn, h.exec_stops, h.exec_loads, h.exec_loadFault⟩

/-! Each kind of record with its canonical fields (section 4) -/

/-- Settles O17: the known 0 goes to `PTE.DSEC`, and record 1 is loaded. -/
theorem primeResult : Obligations.PrimeResult := by
  intro s hon hcur hsrc hcnt hout hzero hones hnext
  have h : Transfers .prime ⟨(this s).par.zeroAddr, 1, false, false, false, 1, 0, 1⟩ ZERO (this s) :=
    { enabled := hon, unreserved := rfl, mapped := by rw [hsrc, memRead_zeroAddr hout, hzero], primed := nofun
      zero := hzero, ones := hones, canonical := ⟨hcur, rfl⟩ }
  simpa [moved, instrOfRecord] using h.exec_loads hcnt rfl hnext

/-- Settles O18: on a primed channel `ONES` goes to the gate; on another the check of R166 comes before it. -/
theorem gateHiResult : Obligations.GateHiResult := by
  intro s hon hcur hsrc hcnt hout hapart hzero hones hnext
  have hmapped : memRead (this s) (this s).srcCur = some ONES := by rw [hsrc, memRead_onesAddr hout hapart, hones]
  refine ⟨fun hprimed => ?_, fun hunprimed => ?_⟩
  · have h : Transfers .gateHi ⟨(this s).par.onesAddr, 2, false, false, false, 2, 0, 1⟩ ONES (this s) :=
      { enabled := hon, unreserved := rfl, mapped := hmapped, primed := fun _ => hprimed
        zero := hzero, ones := hones, canonical := ⟨hcur, rfl⟩ }
    simpa [moved, instrOfRecord] using h.exec_loads hcnt rfl hnext
  · exact exec_gateHi_unprimed hon rfl hmapped hunprimed

/-- Settles O19: the word of the DMA view goes to `PTE.DBUF`. -/
theorem dataResult : Obligations.DataResult := by
  intro s i src count next hon hi hseg hcur hnext hcount hmax hframe hzero hones hsrc
  have hone : 1 ≤ count.toNat := by bv_omega
  have h : Transfers .data ⟨src, 0, true, false, false, next, 0, count⟩ (dmaRead (this s).buf (this s).srcCur.toNat)
      (this s) :=
    { enabled := hon, unreserved := by simpa [Fields.reservedBits] using hcount, mapped := memRead_frame hsrc
      primed := nofun, zero := hzero, ones := hones
      canonical := ⟨i, hi, hseg, hcur, hframe, hone, hmax, by rw [hnext]⟩ }
  refine ⟨fun hcnt => ?_, fun hcnt hload => ?_⟩
  · simpa [moved, instrOfRecord] using h.exec_goesOn hcnt
  · simpa [moved, instrOfRecord] using h.exec_loads hcnt rfl hload

/-- Settles O20: the known 0 goes to the gate, and the effect of `CLOSE` forgets `PTE.DSEC`. -/
theorem closeResult : Obligations.CloseResult := by
  intro s inten hon hcur hsrc hcnt hout hzero hones hnext
  have h : Transfers .close ⟨(this s).par.zeroAddr, 2, false, inten, false, 7, 0, 1⟩ ZERO (this s) :=
    { enabled := hon, unreserved := rfl, mapped := by rw [hsrc, memRead_zeroAddr hout, hzero], primed := nofun
      zero := hzero, ones := hones, canonical := ⟨hcur, rfl⟩ }
  have hpend : ((this s).irqPend || inten) = if inten = true then true else (this s).irqPend := by
    cases inten <;> simp
  rw [← hpend]
  simpa [moved, instrOfRecord] using h.exec_loads hcnt rfl hnext

/-- Settles O21: a zero goes to `PTE.DBUF`; the last one stops the chain or loads the head of the ring. -/
theorem gapResult : Obligations.GapResult := by
  intro s stop hon hstop hcur hsrc hout hzero hones hgap
  have h : Transfers .gap ⟨(this s).par.zeroAddr, 0, false, false, stop, 0, 0, (this s).par.gapCount⟩ ZERO (this s) :=
    { enabled := hon, unreserved := by simpa [Fields.reservedBits] using hgap
      mapped := by rw [hsrc, memRead_zeroAddr hout, hzero], primed := nofun
      zero := hzero, ones := hones, canonical := ⟨hcur, by rw [hstop]⟩ }
  refine ⟨fun hcnt => ?_, fun hcnt hs => ?_, fun hcnt hs hload => ?_⟩
  · simpa [moved, instrOfRecord] using h.exec_goesOn hcnt
  · simpa [moved, instrOfRecord, hcnt] using h.exec_stops hcnt hs
  · simpa [moved, instrOfRecord] using h.exec_loads hcnt hs hload

end Sys2Proof.Machine
end

section
/-! SUPPORT. Passes of the `SERVICE` loop (41_descriptor_chain.md R161), and the host operations that start and stop the
chain (R172, R173). -/

namespace Sys2Proof.Machine

open Sys2Proof

/-- Executing the loaded record where `SERVICE` is enabled is one pass of its loop (R161). -/
theorem exec_loaded {s : State} (h : serviceEnabled (this s) = true) :
    exec (decodeRecord (this s).w) s = hardware s unitTransfer := by
  cases hk : kindOf (this s).w <;>
    simp [decodeRecord, hk, instrOfRecord, exec, execPrime, execGateHi, execData, execClose, execGap,
      execReservedKind5, execReservedKind6, execReservedKind7, unitStep_enabled h, hardware, unitTransfer,
      reservedTransfer]

theorem exec_service_enabled {s : State} (h : serviceEnabled (this s) = true) :
    exec .service s = hardware s serviceInst :=
  if_pos h

/-- A pass that writes the data word or stops the chain is the whole `SERVICE` (R161). -/
theorem serviceInst_lastPass {x y : Inst} (h : unitTransfer x = .ok y) (hend : y.mid = false ∨ y.run = false) :
    serviceInst x = .ok y := by
  rw [serviceInst_eq, serviceLoop_succ, h]
  exact if_neg (by rcases hend with h | h <;> simp [h])

/-- A pass that fails is the whole `SERVICE` (R161). -/
theorem serviceInst_error {x : Inst} {e : Stop} (h : unitTransfer x = .error e) : serviceInst x = .error e := by
  rw [serviceInst_eq, serviceLoop_succ, h]

theorem hardware_eq_fault {s : State} {g : Inst → Except Stop Inst} {e : Fault} (h : hardware s g = .fault e) :
    g (this s) = .error (.fault e) := by
  unfold hardware at h
  split at h
  · cases h
  · cases h; assumption
  · cases h

/-- Settles O27: a pass that ends the loop, and the `LATCH` held while one is under way. -/
theorem serviceIsItsPasses : Obligations.ServiceIsItsPasses := by
  refine fun s => ⟨exec_service_not_enabled, fun t hon ht hend => ?_, fun e hon he => ?_, fun _ hmid hrun => ?_⟩
  · rw [exec_loaded hon] at ht
    obtain ⟨y, hy, rfl⟩ := hardware_next ht
    rw [this_setThis] at hend
    rw [exec_service_enabled hon, hardware_ok (serviceInst_lastPass hy hend)]
  · rw [exec_loaded hon] at he
    rw [exec_service_enabled hon, hardware_fault (serviceInst_error (hardware_eq_fault he))]
  · exact exec_latch_not_enabled fun hl => (latchEnabled_iff.1 hl).2.2 ⟨hmid, hrun⟩

/-! Micro-steps of a host operation that change one instance, one after another -/

theorem runCall_onInst {n : Nat} {m : Micro} {l : List (Nat × Micro)} {s : State} {g : Inst → Inst}
    (hm : runMicro n m s = onInst s n g) : runCall ((n, m) :: l) s = runCall l (setInst s n (g (getInst s n))) := by
  rw [runCall, hm]
  rfl

theorem runCall_onInst_setInst {n : Nat} {m : Micro} {l : List (Nat × Micro)} {s : State} {x : Inst} {g : Inst → Inst}
    (hm : runMicro n m (setInst s n x) = onInst (setInst s n x) n g) :
    runCall ((n, m) :: l) (setInst s n x) = runCall l (setInst s n (g x)) := by
  rw [runCall_onInst hm, getInst_setInst_same, setInst_setInst]

theorem runCall_nil {s : State} (h : s.call = []) (x : Inst) : runCall [] (setThis s x) = .next (setThis s x) :=
  congrArg Host.Outcome.next (setThis_call_nil h x)

/-! `TDC_START` (R172) and `TDC_DISABLE` (R173) -/

theorem runMicro_tdcStart_running {s : State} {n : Nat} (h : (getInst s n).run = true) :
    runMicro n .tdcStart s = .refuses .chainRunning :=
  if_pos h

theorem runMicro_tdcStart_stopped {s : State} {n : Nat} (h : (getInst s n).run = false) :
    runMicro n .tdcStart s = onInstE s n startChain :=
  if_neg (by simp [h])

/-- `TDC_START` on a stopped channel that can be started (R172). -/
theorem exec_tdcStart {s : State} {y : Inst} (hs : idle s) (hrun : (this s).run = false)
    (h : startChain (this s) = .ok y) : exec .tdcStart s = .next (setThis s y) := by
  have hm : runMicro s.sel .tdcStart s = onInst s s.sel fun _ => y := by
    rw [runMicro_tdcStart_stopped hrun, onInstE, ← this, h]
    rfl
  exact callOp_onInst hs hm

/-- `TDC_START` on a stopped channel whose record 0 cannot be loaded (R172). -/
theorem exec_tdcStart_fault {s : State} {e : Fault} (hs : idle s) (hrun : (this s).run = false)
    (h : load 0 (this s) = .error e) : exec .tdcStart s = .fault e := by
  have hm : runMicro s.sel .tdcStart s = .faults e := by
    rw [runMicro_tdcStart_stopped hrun, onInstE, ← this, startChain, h]
  exact (callOp_one hs _).trans (by rw [hm])

/-- Settles O23: the refusal, `Load` of record 0, or its fault. -/
theorem tdcStartResult : Obligations.TdcStartResult := by
  refine fun s hs => ⟨fun hrun => callOp_refused hs (runMicro_tdcStart_running hrun),
    fun hrun hl => exec_tdcStart hs hrun (startChain_ok hl), fun hrun hl => ?_⟩
  exact (load_of_not_loadable hl).imp (exec_tdcStart_fault hs hrun) (exec_tdcStart_fault hs hrun)

/-- Settles O24: the two micro-steps one after the other, or the first with the second left. -/
theorem tdcDisableResult : Obligations.TdcDisableResult := by
  refine fun s hs => ⟨fun hg => ?_, fun hg => ?_⟩
  · calc exec .tdcDisable s
      _ = runCall (micros s.sel disableMicros) s := callOp_whole ⟨hs, hg⟩ _
      _ = runCall [(s.sel, .detach)] (setThis s { this s with run := false }) :=
        runCall_onInst (g := fun x => { x with run := false }) rfl
      _ = runCall [] (setThis s { this s with run := false, irqAttached := false }) :=
        runCall_onInst_setInst (g := fun x => { x with irqAttached := false }) rfl
      _ = .next (setThis s { this s with run := false, irqAttached := false }) := runCall_nil hs.1 _
  · rw [exec, execTdcDisable, callOp, asCall_idle hs, hg]
    rfl

end Sys2Proof.Machine
end

section
/-! SUPPORT. The data segments (41_descriptor_chain.md R151 to R154): how many there are, how long each is, and that their
sources lie in the frame buffer. -/

namespace Sys2Proof.Machine

open Sys2Proof

section
variable {x : Inst} (hframe : 0 < frameWords x) (hmax : 0 < x.par.maxXfer.toNat)
include hframe hmax

/-- `N_DATA` counts the last word's segment and the full segments before it (R151). -/
theorem nData_eq : nData x = (frameWords x - 1) / x.par.maxXfer.toNat + 1 := by
  have hwords : frameWords x + x.par.maxXfer.toNat - 1 = frameWords x - 1 + x.par.maxXfer.toNat := by omega
  rw [nData, segments, ceilDiv, hwords, Nat.add_div_right _ hmax]

theorem one_le_nData : 1 ≤ nData x := by
  rw [nData_eq hframe hmax]
  exact Nat.le_add_left 1 _

/-- Every segment but the last has the maximal length, and the last the rest of the frame (R153). -/
theorem fullSegments_add_lastSegment :
    (nData x - 1) * x.par.maxXfer.toNat + segCount x (nData x - 1) = frameWords x := by
  have hn := nData_eq hframe hmax
  have hlast : ¬nData x - 1 + 1 < nData x := by rw [Nat.sub_add_cancel (one_le_nData hframe hmax)]; exact lt_irrefl _
  rw [segCount, if_neg hlast, hn, Nat.add_sub_cancel]
  generalize frameWords x = words at hframe
  generalize x.par.maxXfer.toNat = m at hmax
  have hdiv := Nat.div_add_mod' (words - 1) m
  have hlt := Nat.mod_lt (words - 1) hmax
  generalize (words - 1) / m = q at hdiv
  generalize (words - 1) % m = r at hdiv hlt
  have hwords : words = q * m + (r + 1) := by omega
  rw [hwords, Nat.mul_add_mod']
  by_cases hr : r + 1 = m
  · rw [hr, Nat.mod_self, if_pos rfl]
  · rw [Nat.mod_eq_of_lt (by omega), if_neg (by omega)]

/-- The lengths of the segments add up to the frame (R153). -/
theorem segCount_sum : ((List.range (nData x)).map (segCount x)).sum = frameWords x := by
  have hn : nData x = nData x - 1 + 1 := (Nat.sub_add_cancel (one_le_nData hframe hmax)).symm
  have hfull : (List.range (nData x - 1)).map (segCount x)
      = (List.range (nData x - 1)).map fun _ => x.par.maxXfer.toNat :=
    List.map_congr_left fun i hi => by
      have hi := List.mem_range.1 hi
      exact if_pos (by omega)
  rw [hn, List.range_succ, List.map_append, List.sum_append, hfull]
  simpa using fullSegments_add_lastSegment hframe hmax

/-- A segment begins inside the frame (R154). -/
theorem segment_start_lt {i : Nat} (hi : i < nData x) : i * x.par.maxXfer.toNat < frameWords x := by
  have hn := nData_eq hframe hmax
  calc i * x.par.maxXfer.toNat
    _ ≤ (frameWords x - 1) / x.par.maxXfer.toNat * x.par.maxXfer.toNat := Nat.mul_le_mul_right _ (by omega)
    _ ≤ frameWords x - 1 := Nat.div_mul_le_self _ _
    _ < frameWords x := by omega

end

/-- Settles O26: the three lines of R153, and the sum. -/
theorem segmentCountsAddUp : Obligations.SegmentCountsAddUp := by
  intro x hframe hmax
  have hlast : ¬nData x - 1 + 1 < nData x := by have := nData_eq hframe hmax; omega
  exact ⟨fun _ hi => if_pos hi, fun hrest => (if_neg hlast).trans (if_neg hrest),
    fun hrest => (if_neg hlast).trans (if_pos hrest), segCount_sum hframe hmax⟩

/-- A chain with a segment has a frame and a maximal length (R151). -/
theorem pos_of_one_le_nData {x : Inst} (h : 1 ≤ nData x) : 0 < frameWords x ∧ 0 < x.par.maxXfer.toNat := by
  rw [nData, segments, ceilDiv] at h
  have hmax : 0 < x.par.maxXfer.toNat := Nat.pos_of_ne_zero fun h0 => by simp [h0] at h
  have hle := (Nat.le_div_iff_mul_le hmax).1 h
  omega

/-- The length of a segment (R153), its two maximal cases together. -/
theorem segCount_eq (x : Inst) (i : Nat) : segCount x i
    = if i + 1 < nData x ∨ frameWords x % x.par.maxXfer.toNat = 0 then x.par.maxXfer.toNat
      else frameWords x % x.par.maxXfer.toNat := by
  unfold segCount
  split_ifs <;> tauto

/-- A segment has at least one word and at most the maximum (R153). -/
theorem segCount_bounds {x : Inst} (hmax : 0 < x.par.maxXfer.toNat) (i : Nat) :
    1 ≤ segCount x i ∧ segCount x i ≤ x.par.maxXfer.toNat := by
  have hlt := Nat.mod_lt (frameWords x) hmax
  rw [segCount_eq]
  split_ifs <;> omega

/-- The length of a segment fits the field `COUNT` (R91). -/
theorem toNat_segCount {x : Inst} (hmax : 0 < x.par.maxXfer.toNat) (i : Nat) :
    (BitVec.ofNat 16 (segCount x i)).toNat = segCount x i := by
  have := (segCount_bounds hmax i).2
  have := x.par.maxXfer.isLt
  exact Nat.mod_eq_of_lt (by omega)

/-- The words of the buffer are frame-buffer words (R61, R67). -/
theorem isFrameWord_word {x : Inst} (hfit : x.par.base0.toNat + bufBytes x ≤ 2 ^ 32) {k : Nat} (hk : k < bufWords x) :
    isFrameWord x (x.par.base0 + BitVec.ofNat 32 (4 * k)).toNat = true := by
  have haddr : (x.par.base0 + BitVec.ofNat 32 (4 * k)).toNat = x.par.base0.toNat + 4 * k := by
    rw [bufBytes] at hfit
    rw [BitVec.toNat_add, BitVec.toNat_ofNat, Nat.add_mod_mod, Nat.mod_eq_of_lt (by omega)]
  simp [isFrameWord, haddr, bufBytes]
  omega

/-- Either half begins at a word of the buffer, with room for a frame (R62). -/
theorem half_start {x : Inst} {base : Word} (h : base = x.par.base0 ∨ base = base1 x) :
    ∃ k, base = x.par.base0 + BitVec.ofNat 32 (4 * k) ∧ k + frameWords x ≤ bufWords x := by
  cases hmode : x.mode <;> simp only [base1, hmode] at h
  case double =>
    obtain h | h := h
    · exact ⟨0, by simpa using h, by simp [bufWords, hmode]; omega⟩
    · exact ⟨frameWords x, h, by simp [bufWords, hmode]; omega⟩
  all_goals exact ⟨0, by simpa using h, by simp [bufWords, hmode]⟩

/-- The source of a segment of either half is a frame-buffer word (R154, R67). -/
theorem isFrameWord_segSrc {x : Inst} (hframe : 0 < frameWords x) (hmax : 0 < x.par.maxXfer.toNat)
    (hfit : x.par.base0.toNat + bufBytes x ≤ 2 ^ 32) {base : Word} (hbase : base = x.par.base0 ∨ base = base1 x)
    {i : Nat} (hi : i < nData x) : isFrameWord x (segSrc x base i).toNat = true := by
  obtain ⟨k, rfl, hroom⟩ := half_start hbase
  have hstart := segment_start_lt hframe hmax hi
  have hsrc : segSrc x (x.par.base0 + BitVec.ofNat 32 (4 * k)) i
      = x.par.base0 + BitVec.ofNat 32 (4 * (k + i * x.par.maxXfer.toNat)) := by
    rw [segSrc, BitVec.add_assoc, ← BitVec.ofNat_add, Nat.mul_add, Nat.mul_assoc]
  rw [hsrc]
  exact isFrameWord_word hfit (by omega)

end Sys2Proof.Machine
end

section
/-! SUPPORT. `TDC_BUILD` (41_descriptor_chain.md R152, R155, R156): what its micro-steps write, and that the table they
leave passes the check of R97 wherever the constant words hold their constants. -/

namespace Sys2Proof.Machine

open Sys2Proof

/-- The instance after the micro-steps of `TDC_BUILD` for the records of some indices (R152). -/
def buildRecords (l : List (BitVec 3)) (x : Inst) : Inst :=
  l.foldl (fun y i => writeRecord y i (builtRecord y y.activePtr i)) x

theorem buildRecords_cons (i : BitVec 3) (l : List (BitVec 3)) (x : Inst) :
    buildRecords (i :: l) x = buildRecords l (writeRecord x i (builtRecord x x.activePtr i)) := rfl

/-- Writing records changes the table alone. -/
theorem buildRecords_frame (l : List (BitVec 3)) (x : Inst) :
    ∃ d, buildRecords l x = { x with desc := d } := by
  induction l generalizing x with
  | nil => exact ⟨x.desc, rfl⟩
  | cons i l ih => exact ih (writeRecord x i (builtRecord x x.activePtr i))

/-- The records written are those of R156; the others stay. -/
theorem descAt_buildRecords (l : List (BitVec 3)) (x : Inst) (j : BitVec 3) :
    descAt (buildRecords l x) j = if j ∈ l then ⟨true, builtRecord x x.activePtr j⟩ else descAt x j := by
  induction l generalizing x with
  | nil => rfl
  | cons i l ih =>
    refine (ih (writeRecord x i (builtRecord x x.activePtr i))).trans ?_
    by_cases hl : j ∈ l
    · rw [if_pos hl, if_pos (List.mem_cons_of_mem i hl)]
      rfl
    · by_cases hi : j = i
      · subst hi
        rw [if_neg hl, descAt_writeRecord_same, if_pos List.mem_cons_self]
      · rw [if_neg hl, descAt_writeRecord_other _ _ hi, if_neg (by simp [hi, hl])]

/-- The table of `x` is that of R156, for the half its active pointer names. -/
def IsBuilt (x : Inst) : Prop :=
  ∀ i, descAt x i = ⟨true, builtRecord x x.activePtr i⟩

/-- The indices after the first, in order. -/
def laterIndices : List (BitVec 3) :=
  [1, 2, 3, 4, 5, 6, 7]

/-- All indices, in order. -/
def allIndices : List (BitVec 3) :=
  0 :: laterIndices

theorem mem_allIndices (i : BitVec 3) : i ∈ allIndices := by
  revert i; decide

theorem isBuilt_buildRecords (x : Inst) : IsBuilt (buildRecords allIndices x) := by
  obtain ⟨d, hd⟩ := buildRecords_frame allIndices x
  intro i
  rw [descAt_buildRecords, if_pos (mem_allIndices i), hd]
  rfl

/-- Indices 2 to 5 are the segments (R156). -/
theorem builtRecord_segment (x : Inst) (base : Word) {i : Nat} (hi : i < 4) :
    builtRecord x base (BitVec.ofNat 3 (2 + i)) = segRecord x base i := by
  have htoNat : (BitVec.ofNat 3 (2 + i)).toNat = i + 2 := by rw [BitVec.toNat_ofNat]; omega
  rw [builtRecord]
  split
  case h_5 => rw [htoNat, Nat.add_sub_cancel]
  all_goals omega

/-- Record `j` comes after record `i` (R97 (d)). -/
def Leads (x : Inst) (i j : BitVec 3) : Prop :=
  (fieldsOf (descAt x i).body).next = j

/-- Following `NEXT` gives any list of records of which each leads to the one after it (R97 (d)). -/
theorem ringFrom_of_leads {x : Inst} {i : BitVec 3} {l : List (BitVec 3)} (h : List.IsChain (Leads x) (i :: l)) :
    ringFrom x l.length i = i :: l := by
  induction l generalizing i with
  | nil => rfl
  | cons j l ih =>
    obtain ⟨hij, hl⟩ := List.isChain_cons_cons.1 h
    rw [List.length_cons, ringFrom, hij, ih hl]

namespace IsBuilt

variable {x : Inst} (h : IsBuilt x)
include h

theorem segAt_eq {i : Nat} (hi : i < 4) : segAt x i = ⟨true, segRecord x x.activePtr i⟩ := by
  rw [segAt, h, builtRecord_segment x _ hi]

theorem segAt_data {i : Nat} (hfour : i < 4) (hi : i < nData x) :
    segAt x i = ⟨true, encodeRecord .data
      ⟨segSrc x x.activePtr i, 0, true, false, false, segNext x i, 0, BitVec.ofNat 16 (segCount x i)⟩⟩ := by
  rw [h.segAt_eq hfour, segRecord, if_pos hi]

/-- The built segments are canonical (R95). -/
theorem segment_canonical (hb : buildable x) {i : Nat} (hi : i < nData x) :
    dataCanonical x i (fieldsOf (segAt x i).body) = true := by
  obtain ⟨-, haddr, -, hone, hfour, hhalf⟩ := hb
  obtain ⟨hframe, hmax⟩ := pos_of_one_le_nData hone
  obtain ⟨hlow, hhigh⟩ := segCount_bounds hmax i
  rw [h.segAt_data (by omega) hi, fieldsOf_encodeRecord, dataCanonical_iff, toNat_segCount hmax]
  exact ⟨isFrameWord_segSrc hframe hmax (addressesOk_iff.1 haddr).1 hhalf hi, hlow, hhigh, rfl⟩

/-- R97 (a) and (b) of the built table. -/
theorem records_canonical (hb : buildable x) : recordsCanonical x = true := by
  obtain ⟨-, -, -, hone, hfour, -⟩ := id hb
  have hclose : setInten false (builtRecord x x.activePtr 6) = builtRecord x 0 6 := by
    apply desc_ext <;> simp [builtRecord, closeFields]
  have hseg : ∀ i < 4, ((segAt x i).known
      && (if i < nData x then kindOf (segAt x i).body == .data && dataCanonical x i (fieldsOf (segAt x i).body)
          else (segAt x i).body == unusedRecord)) = true := by
    intro i hi
    by_cases hdata : i < nData x
    · have hcan := h.segment_canonical hb hdata
      rw [if_pos hdata, hcan, h.segAt_data hi hdata]
      simp
    · rw [if_neg hdata, h.segAt_eq hi, segRecord, if_neg hdata]
      simp
  simp only [recordsCanonical, h 0, h 1, h 6, h 7, hclose, Bool.and_eq_true, beq_iff_eq, decide_eq_true_eq,
    List.all_eq_true, List.mem_range, true_and, and_true, and_assoc]
  exact ⟨rfl, rfl, rfl, hone, hfour, by simpa using hseg⟩

/-- R97 (c) of the built table: the counts add up. -/
theorem countSum_eq (hone : 1 ≤ nData x) (hfour : nData x ≤ 4) : countSum x = frameWords x := by
  obtain ⟨hframe, hmax⟩ := pos_of_one_le_nData hone
  rw [← segCount_sum hframe hmax, countSum]
  refine congrArg List.sum (List.map_congr_left fun i hi => ?_)
  have hi := List.mem_range.1 hi
  rw [h.segAt_data (by omega) hi, fieldsOf_encodeRecord, toNat_segCount hmax]

/-- R97 (c) of the built table: the sources are those of the active half. -/
theorem sourcesOf_activePtr (hfour : nData x ≤ 4) : sourcesOf x x.activePtr = true := by
  refine sourcesOf_iff.2 fun i hi => ?_
  rw [h.segAt_data (by omega) hi, encodeRecord_src]

/-- Each record of the ring of R97 (d) leads to the one after it (R155). -/
theorem ring_isChain (hone : 1 ≤ nData x) (hfour : nData x ≤ 4) : List.IsChain (Leads x)
    ([0, 1] ++ ((List.range (nData x)).map fun i => BitVec.ofNat 3 (2 + i)) ++ [6, 7, 0]) := by
  obtain ⟨n, hn⟩ := Nat.exists_eq_add_of_le' hone
  have hprime : Leads x 0 1 := by rw [Leads, h]; exact congrArg Fields.next (fieldsOf_encodeRecord _ _)
  have hgateHi : Leads x 1 2 := by rw [Leads, h]; exact congrArg Fields.next (fieldsOf_encodeRecord _ _)
  have hclose : Leads x 6 7 := by rw [Leads, h]; exact congrArg Fields.next (fieldsOf_encodeRecord _ _)
  have hgap : Leads x 7 0 := by rw [Leads, h]; exact congrArg Fields.next (fieldsOf_encodeRecord _ _)
  have hseg : ∀ i ≤ n, Leads x (BitVec.ofNat 3 (2 + i)) (segNext x i) := by
    intro i hi
    rw [Leads, ← segAt, h.segAt_data (by omega) (by omega), fieldsOf_encodeRecord]
  have hmid : ∀ i < n, Leads x (BitVec.ofNat 3 (2 + i)) (BitVec.ofNat 3 (2 + (i + 1))) := by
    intro i hi
    have hnext : segNext x i = BitVec.ofNat 3 (3 + i) := if_pos (by omega)
    rw [show 2 + (i + 1) = 3 + i by omega, ← hnext]
    exact hseg i hi.le
  have hlast : Leads x (BitVec.ofNat 3 (2 + n)) 6 := by
    have hnext : segNext x n = 6 := if_neg (by omega)
    exact hnext ▸ hseg n le_rfl
  rw [hn, List.isChain_append, List.isChain_append, List.isChain_map, List.isChain_range_succ]
  refine ⟨⟨?_, hmid, ?_⟩, ?_, ?_⟩
  · simpa using hprime
  · simpa [List.range_succ_eq_map] using hgateHi
  · simpa using ⟨hclose, hgap⟩
  · simpa [List.range_succ, List.getLast?_cons] using hlast

/-- R97 (d) of the built table. -/
theorem ring_ok (hone : 1 ≤ nData x) (hfour : nData x ≤ 4) : ringOk x = true := by
  have hlength : ([1] ++ ((List.range (nData x)).map fun i => BitVec.ofNat 3 (2 + i)) ++ [6, 7, 0]).length
      = nData x + 4 := by
    simp
  rw [ringOk, beq_iff_eq, ← hlength]
  exact ringFrom_of_leads (h.ring_isChain hone hfour)

/-- A built chain passes the check of R97 exactly where the constant words hold their constants. -/
theorem chainOk_eq (hb : buildable x) : chainOk x = constantsOk x := by
  obtain ⟨-, -, hgap, hone, hfour, hhalf⟩ := id hb
  have hsource : (sourcesOf x x.par.base0 || sourcesOf x (base1 x)) = true := by
    have hactive := h.sourcesOf_activePtr hfour
    obtain hptr | hptr := hhalf <;> simp [← hptr, hactive]
  simp [chainOk, h.records_canonical hb, h.countSum_eq hone hfour, hsource, h.ring_ok hone hfour, hgap]

end IsBuilt

theorem constantsOk_iff {x : Inst} : constantsOk x = true ↔ x.zeroWord = ZERO ∧ x.onesWord = ONES := by
  simp [constantsOk]

/-! The micro-steps (R152) -/

theorem runCall_refused {n : Nat} {m : Micro} {l : List (Nat × Micro)} {s : State} {r : Refusal}
    (h : runMicro n m s = .refuses r) : runCall ((n, m) :: l) s = .refused r := by
  rw [runCall, h]

theorem runMicro_buildRecord {n : Nat} {i : BitVec 3} {s : State} (hrun : (getInst s n).run = false)
    (haddr : addressesOk (getInst s n) = true) :
    runMicro n (.buildRecord i) s = onInst s n fun x => writeRecord x i (builtRecord x x.activePtr i) := by
  simp [runMicro, microBuildRecord, hrun, haddr]

theorem runMicro_buildRecord_running {n : Nat} {i : BitVec 3} {s : State} (hrun : (getInst s n).run = true) :
    runMicro n (.buildRecord i) s = .refuses .chainRunning :=
  if_pos hrun

theorem runMicro_buildRecord_badAddresses {n : Nat} {i : BitVec 3} {s : State} (hrun : (getInst s n).run = false)
    (haddr : addressesOk (getInst s n) = false) : runMicro n (.buildRecord i) s = .refuses .badAddresses := by
  simp [runMicro, microBuildRecord, hrun, haddr]

theorem runMicro_buildEnd {n : Nat} {s : State} (h : chainOk (getInst s n) = true) :
    runMicro n .buildEnd s = onInst s n fun x => { x with irqAttached := true } :=
  if_pos h

theorem runMicro_buildEnd_illFormed {n : Nat} {s : State} (h : chainOk (getInst s n) = false) :
    runMicro n .buildEnd s = .refuses .illFormedChain :=
  if_neg (by simp [h])

/-- The micro-steps that write records, one after another. -/
theorem runCall_buildRecords {n : Nat} (l : List (BitVec 3)) (rest : List (Nat × Micro)) (s : State) {x : Inst}
    (hrun : x.run = false) (haddr : addressesOk x = true) :
    runCall (micros n (l.map .buildRecord) ++ rest) (setInst s n x) = runCall rest (setInst s n (buildRecords l x)) := by
  induction l generalizing x with
  | nil => rfl
  | cons i l ih =>
    have hmicro := runMicro_buildRecord (i := i) (s := setInst s n x) (n := n)
      (by simpa using hrun) (by simpa using haddr)
    exact (runCall_onInst_setInst hmicro).trans (ih hrun haddr)

/-- `TDC_BUILD` of a stopped channel with good addresses: the whole table is written, then checked (R152). -/
theorem exec_tdcBuild {s : State} (hs : idleWhole s) (hrun : (this s).run = false)
    (haddr : addressesOk (this s) = true) :
    exec .tdcBuild s = runCall [(s.sel, .buildEnd)] (setThis s (buildRecords allIndices (this s))) := by
  have hmicros : micros s.sel buildMicros
      = (s.sel, .buildRecord 0) :: (micros s.sel (laterIndices.map .buildRecord) ++ [(s.sel, .buildEnd)]) := rfl
  refine (callOp_whole hs _).trans ?_
  rw [hmicros, runCall_onInst (runMicro_buildRecord hrun haddr), allIndices, buildRecords_cons]
  exact runCall_buildRecords laterIndices _ s
    (x := writeRecord (this s) 0 (builtRecord (this s) (this s).activePtr 0)) hrun haddr

/-- A first micro-step that is refused refuses `TDC_BUILD` (R152). -/
theorem exec_tdcBuild_refused {s : State} (hs : idleWhole s) {r : Refusal}
    (h : runMicro s.sel (.buildRecord 0) s = .refuses r) : exec .tdcBuild s = .refused r :=
  (callOp_whole hs _).trans (runCall_refused h)

/-- The records of the built table, written out as R156 does. -/
theorem IsBuilt.table {x : Inst} (h : IsBuilt x) :
    x.desc[0] = ⟨true, encodeRecord .prime (primeFields x)⟩ ∧
    x.desc[1] = ⟨true, encodeRecord .gateHi (gateHiFields x)⟩ ∧
    (∀ i : Fin 4, x.desc[2 + i.val] = ⟨true, segRecord x x.activePtr i⟩) ∧
    x.desc[6] = ⟨true, encodeRecord .close (closeFields x false)⟩ ∧
    x.desc[7] = ⟨true, encodeRecord .gap (gapFields x)⟩ := by
  refine ⟨h 0, h 1, fun i => ?_, h 6, h 7⟩
  have hplace : x.desc[2 + i.val] = segAt x i := by
    fin_cases i <;> rfl
  rw [hplace, h.segAt_eq i.isLt]

/-- The source of the segments, and their lengths, written out (R153, R154, R155). -/
theorem segRecord_eq (x : Inst) (base : Word) (i : Nat) : segRecord x base i
    = if i < nData x then
        encodeRecord .data
          ⟨base + BitVec.ofNat 32 (4 * i * x.par.maxXfer.toNat), 0, true, false, false,
            if i + 1 < nData x then BitVec.ofNat 3 (3 + i) else 6, 0,
            BitVec.ofNat 16
              (if i + 1 < nData x ∨ frameWords x % x.par.maxXfer.toNat = 0 then x.par.maxXfer.toNat
                else frameWords x % x.par.maxXfer.toNat)⟩
      else ⟨0x00000000, 0x00000007⟩ := by
  rw [segRecord, segCount_eq]
  rfl

/-- Settles O25: what is refused by the first micro-step, and by the check at the end; else the built table. -/
theorem tdcBuildResult : Obligations.TdcBuildResult := by
  intro s hs
  refine ⟨fun hrun => exec_tdcBuild_refused hs (runMicro_buildRecord_running hrun),
    fun hrun haddr => exec_tdcBuild_refused hs (runMicro_buildRecord_badAddresses hrun haddr), fun hb hbad => ?_,
    fun hb hzero hones => ?_⟩
  all_goals
    obtain ⟨hrun, haddr, -⟩ := id hb
    obtain ⟨d, hd⟩ := buildRecords_frame allIndices (this s)
    have hbuilt : IsBuilt { this s with desc := d } := hd ▸ isBuilt_buildRecords (this s)
    have hcheck : chainOk { this s with desc := d } = constantsOk (this s) := hbuilt.chainOk_eq hb
    rw [exec_tdcBuild hs hrun haddr, hd]
  · refine runCall_refused (runMicro_buildEnd_illFormed ?_)
    rw [setThis, getInst_setInst_same, hcheck, ← Bool.not_eq_true, constantsOk_iff]
    exact hbad
  · have hend := runMicro_buildEnd (s := setThis s { this s with desc := d }) (n := s.sel)
      (by rw [setThis, getInst_setInst_same, hcheck, constantsOk_iff]; exact ⟨hzero, hones⟩)
    obtain ⟨hprime, hgateHi, hseg, hclose, hgap⟩ := hbuilt.table
    refine ⟨d, (runCall_onInst_setInst hend).trans (runCall_nil hs.1.1 _), hprime, hgateHi, fun i => ?_, hclose, ?_⟩
    · rw [hseg, segRecord_eq]
      rfl
    · rw [← beq_eq_decide]
      exact hgap

end Sys2Proof.Machine
end

section
/-! SUPPORT. Arming the completion interrupt: writing `INTEN` is writing bit 6 of `CTRL` (30_encoding.md R91), so the
micro-steps that arm and disarm record 6 are said of its bits. -/

namespace Sys2Proof

/-- `INTEN` is bit 6 of `CTRL`, and writing it keeps every other bit (R91). -/
theorem getLsbD_ctrl_setInten (b : Bool) (d : Desc) {i : Nat} (hi : i < 32) :
    (setInten b d).ctrl.getLsbD i = if i = 6 then b else d.ctrl.getLsbD i := by
  have hctrl : (setInten b d).ctrl = encodeCtrl (kindOf d) { fieldsOf d with inten := b } := rfl
  rw [hctrl, encodeCtrl, kindOf, bitsOfKind_kindOfBits, fieldsOf]
  interval_cases i <;> simp [-BitVec.getLsbD_eq_getElem]

theorem setInten_true (d : Desc) : setInten true d = ⟨d.src, d.ctrl ||| 0x00000040⟩ := by
  have hctrl : (setInten true d).ctrl = d.ctrl ||| 0x00000040 := by
    refine BitVec.eq_of_getLsbD_eq fun i hi => ?_
    rw [getLsbD_ctrl_setInten true d hi, BitVec.getLsbD_or]
    interval_cases i <;> simp
  rw [← hctrl]
  rfl

theorem setInten_false (d : Desc) : setInten false d = ⟨d.src, d.ctrl &&& 0xFFFFFFBF⟩ := by
  have hctrl : (setInten false d).ctrl = d.ctrl &&& 0xFFFFFFBF := by
    refine BitVec.eq_of_getLsbD_eq fun i hi => ?_
    rw [getLsbD_ctrl_setInten false d hi, BitVec.getLsbD_and]
    interval_cases i <;> simp
  rw [← hctrl]
  rfl

end Sys2Proof

namespace Sys2Proof.Machine

open Sys2Proof

/-- Arming sets bit 6 of record 6 (R191 s3). -/
theorem setArmed_true (x : Inst) : setArmed x true
    = { x with desc := x.desc.set 6 ⟨x.desc[6].known, ⟨x.desc[6].body.src, x.desc[6].body.ctrl ||| 0x00000040⟩⟩ } := by
  rw [← setInten_true]
  rfl

/-- Disarming clears bit 6 of record 6 (R195 h1). -/
theorem setArmed_false (x : Inst) : setArmed x false
    = { x with desc := x.desc.set 6 ⟨x.desc[6].known, ⟨x.desc[6].body.src, x.desc[6].body.ctrl &&& 0xFFFFFFBF⟩⟩ } := by
  rw [← setInten_false]
  rfl

end Sys2Proof.Machine
end

section
/-! SUPPORT. `REQUEST_SWAP`, `BUFFER_READY`, `FLIP_BUFFERS` and `FLUSH_BUFFER` (42_swap_synchronizer.md R190, R191, R198 to
R201). -/

namespace Sys2Proof.Machine

open Sys2Proof

/-! `REQUEST_SWAP` (R190, R191) -/

/-- Being taken up as a call twice is being taken up as a call. -/
theorem asCall_asCall (s : State) (k : State → Step) : asCall s (fun t => asCall t k) = asCall s k := by
  unfold asCall
  split
  · rfl
  · split
    · rfl
    · exact (if_neg ‹_›).trans (if_neg ‹_›)

/-- In `MODE = DOUBLE` the request is the call of its three micro-steps, at every state (R191). -/
theorem exec_requestSwap_double {s : State} (h : (this s).mode = .double) :
    exec .requestSwap s = callOp swapMicros s := by
  have hcall : exec .requestSwap s = asCall s fun t => callOp swapMicros t := by
    simp only [exec, execRequestSwap, asCall, h]
  exact hcall.trans (asCall_asCall s _)

/-- Outside `MODE = DOUBLE` the request is refused (R190). -/
theorem exec_requestSwap_refused {s : State} (hs : idle s) (h : (this s).mode ≠ .double) :
    exec .requestSwap s = .refused .notDoubleBuffered := by
  rw [exec, execRequestSwap, asCall_idle hs]
  cases hm : (this s).mode with
  | double => exact absurd hm h
  | paced => rfl
  | free => rfl

/-- s1, s2 and s3 one after another (R191). -/
theorem exec_requestSwap_whole {s : State} (hs : idleWhole s) (h : (this s).mode = .double) :
    exec .requestSwap s
      = .next (setThis s (setArmed
          { this s with
            activePtr := (this s).inactivePtr, inactivePtr := (this s).activePtr
            buf := flushBuf (this s).buf (this s).inactivePtr.toNat (4 * frameWords (this s)) } true)) :=
  calc exec .requestSwap s
    _ = runCall (micros s.sel swapMicros) s := (exec_requestSwap_double h).trans (callOp_whole hs _)
    _ = runCall [(s.sel, .flushActive), (s.sel, .arm)]
          (setThis s { this s with activePtr := (this s).inactivePtr, inactivePtr := (this s).activePtr }) :=
      runCall_onInst (g := fun x => { x with activePtr := x.inactivePtr, inactivePtr := x.activePtr }) rfl
    _ = runCall [(s.sel, .arm)]
          (setThis s
            { this s with
              activePtr := (this s).inactivePtr, inactivePtr := (this s).activePtr
              buf := flushBuf (this s).buf (this s).inactivePtr.toNat (4 * frameWords (this s)) }) :=
      runCall_onInst_setInst (g := fun x => { x with buf := flushBuf x.buf x.activePtr.toNat (4 * frameWords x) }) rfl
    _ = runCall [] _ := runCall_onInst_setInst (g := fun x => setArmed x true) rfl
    _ = .next _ := runCall_nil hs.1.1 _

/-- s1 alone, with s2 and s3 left (R191, R15 (a)). -/
theorem exec_requestSwap_micro {s : State} (hs : idle s) (hg : s.grain = .micro) (h : (this s).mode = .double) :
    exec .requestSwap s
      = .next { setThis s { this s with activePtr := (this s).inactivePtr, inactivePtr := (this s).activePtr } with
          call := [(s.sel, .flushActive), (s.sel, .arm)] } := by
  rw [exec_requestSwap_double h, callOp, asCall_idle hs, hg]
  rfl

/-- Settles O35: the refusal, the three micro-steps whole, and the first alone. -/
theorem requestSwapResult : Obligations.RequestSwapResult := by
  refine fun s hs => ⟨exec_requestSwap_refused hs, fun hmode hg => ?_,
    fun hmode hg => exec_requestSwap_micro hs hg hmode⟩
  refine ⟨_, ?_, flushBuf_flushedOver _ _ _⟩
  rw [exec_requestSwap_whole ⟨hs, hg⟩ hmode, setArmed_true]

/-! `BUFFER_READY` (R198) -/

theorem bufferReady_paced {x : Inst} (h : x.mode = .paced) : bufferReady x = !x.run := by
  rw [bufferReady, h]

theorem bufferReady_looping {x : Inst} (h : x.mode ≠ .paced) : bufferReady x = true := by
  unfold bufferReady
  cases hm : x.mode with
  | paced => exact absurd hm h
  | free => rfl
  | double => rfl

theorem exec_bufferReady {s : State} (hs : idle s) :
    exec .bufferReady s = .next { s with ret := .bool (bufferReady (this s)) } :=
  asCall_idle hs fun s => .next { s with ret := .bool (bufferReady (this s)) }

/-- Settles O39: the answer is that of `bufferReady`, by mode. -/
theorem bufferReadyResult : Obligations.BufferReadyResult :=
  fun _ hs => ⟨fun h => by rw [exec_bufferReady hs, bufferReady_paced h],
    fun h => by rw [exec_bufferReady hs, bufferReady_looping h]⟩

/-! `FLIP_BUFFERS` and `FLUSH_BUFFER` (R199, R200, R201) -/

theorem exec_flip {i : Instr} (h : i = .flipBuffers ∨ i = .flushBuffer) (s : State) :
    exec i s = callOp (flipMicros (this s)) s := by
  obtain rfl | rfl := h <;> rfl

theorem flipMicros_double {x : Inst} (h : x.mode = .double) : flipMicros x = swapMicros := by
  rw [flipMicros, h]

theorem flipMicros_free {x : Inst} (h : x.mode = .free) :
    flipMicros x = [.flush x.par.base0.toNat (bufBytes x)] := by
  rw [flipMicros, h]

theorem flipMicros_paced {x : Inst} (h : x.mode = .paced) :
    flipMicros x = [.flush x.par.base0.toNat (bufBytes x), .spinStopped, .tdcStart] := by
  rw [flipMicros, h]

/-- Outside `MODE = DOUBLE` the buffer is one frame (R6). -/
theorem bufBytes_single {x : Inst} (h : x.mode ≠ .double) : bufBytes x = 4 * frameWords x := by
  rw [bufBytes, bufWords, mul_comm]
  cases hm : x.mode with
  | double => exact absurd hm h
  | paced => rfl
  | free => rfl

/-- The instance with its whole buffer flushed (R72, R200 f1). -/
def flushWhole (x : Inst) : Inst :=
  { x with buf := flushBuf x.buf x.par.base0.toNat (bufBytes x) }

/-- Outside `MODE = DOUBLE` the flush of the whole buffer is that of one frame from `BASE0`. -/
theorem flushWhole_flushedOver {x : Inst} (h : x.mode ≠ .double) :
    FlushedOver x.buf (flushWhole x).buf x.par.base0.toNat (4 * frameWords x) :=
  bufBytes_single h ▸ flushBuf_flushedOver _ _ _

/-- In `MODE = FREE` a flip is the flush (R199). -/
theorem exec_flip_free {i : Instr} (h : i = .flipBuffers ∨ i = .flushBuffer) {s : State} (hs : idle s)
    (hmode : (this s).mode = .free) : exec i s = .next (setThis s (flushWhole (this s))) := by
  rw [exec_flip h, flipMicros_free hmode]
  exact callOp_onInst hs (g := fun x => { x with buf := flushBuf x.buf (this s).par.base0.toNat (bufBytes (this s)) }) rfl

/-- Settles O40: the two operations by their definitions, and the micro-steps of a flip by mode. -/
theorem flipInLoopingModes : Obligations.FlipInLoopingModes := by
  refine fun s i hi => ⟨rfl, fun hmode => ?_, fun hmode hs => ?_⟩
  · rw [exec_flip hi, flipMicros_double hmode, exec_requestSwap_double hmode]
  · exact ⟨_, exec_flip_free hi hs hmode, flushWhole_flushedOver (by simp [hmode])⟩

/-- In `MODE = PACED` a flip flushes, then spins and starts the chain (R200). -/
theorem exec_flip_paced {i : Instr} (h : i = .flipBuffers ∨ i = .flushBuffer) {s : State} (hs : idleWhole s)
    (hmode : (this s).mode = .paced) :
    exec i s = runCall [(s.sel, .spinStopped), (s.sel, .tdcStart)] (setThis s (flushWhole (this s))) := by
  rw [exec_flip h, flipMicros_paced hmode, callOp_whole hs]
  exact runCall_onInst (g := fun x => { x with buf := flushBuf x.buf (this s).par.base0.toNat (bufBytes (this s)) }) rfl

theorem runMicro_spinStopped_running {s : State} {n : Nat} (h : (getInst s n).run = true) :
    runMicro n .spinStopped s = .waits :=
  if_pos h

theorem runMicro_spinStopped_stopped {s : State} {n : Nat} (h : (getInst s n).run = false) :
    runMicro n .spinStopped s = .done s :=
  if_neg (by simp [h])

/-- A flush of the buffer leaves the channel running or stopped. -/
theorem run_setThis_flushWhole (s : State) : (getInst (setThis s (flushWhole (this s))) s.sel).run = (this s).run := by
  rw [setThis, getInst_setInst_same]
  rfl

/-- On a stopped channel the flip ends with `TDC_START` (R200 f3). -/
theorem exec_flip_paced_stopped {i : Instr} (h : i = .flipBuffers ∨ i = .flushBuffer) {s : State} (hs : idleWhole s)
    (hmode : (this s).mode = .paced) (hrun : (this s).run = false) :
    exec i s = exec .tdcStart (setThis s (flushWhole (this s))) := by
  have hspin := runMicro_spinStopped_stopped ((run_setThis_flushWhole s).trans hrun)
  have hwhole : idleWhole (setThis s (flushWhole (this s))) := hs
  rw [exec_flip_paced h hs hmode, runCall, hspin]
  exact (callOp_whole hwhole [.tdcStart]).symm

/-- An operation whose next micro-step waits stays as it is at a turn of `CALL` (R15 (a)). -/
theorem callNext_of_waits {s : State} {n : Nat} {m : Micro} {l : List (Nat × Micro)} (hirq : s.irq = [])
    (hcall : s.call = (n, m) :: l) (hm : runMicro n m s = .waits) : callNext s = .next s := by
  have hout : ¬inHandler s = true := fun hn => inHandler_iff.1 hn hirq
  rw [callNext, if_neg hout, hcall, stepCall, hm, ← hcall]

/-- On a stopped channel whose record 0 can be loaded the flip starts the chain (R200 f3, R172). -/
theorem exec_flip_paced_start {i : Instr} (h : i = .flipBuffers ∨ i = .flushBuffer) {s : State} (hs : idleWhole s)
    (hmode : (this s).mode = .paced) (hrun : (this s).run = false) {y : Inst}
    (hy : startChain (flushWhole (this s)) = .ok y) : exec i s = .next (setThis s y) := by
  have hstart := exec_tdcStart (s := setThis s (flushWhole (this s))) hs.1
    ((run_setThis_flushWhole s).trans hrun) (by rw [this_setThis]; exact hy)
  have hset : setThis (setThis s (flushWhole (this s))) y = setThis s y := setInst_setInst s s.sel _ y
  rw [exec_flip_paced_stopped h hs hmode hrun, hstart, hset]

/-- On a stopped channel whose record 0 cannot be loaded the flip ends with the fault of `Load` (R200 f3, R160). -/
theorem exec_flip_paced_fault {i : Instr} (h : i = .flipBuffers ∨ i = .flushBuffer) {s : State} (hs : idleWhole s)
    (hmode : (this s).mode = .paced) (hrun : (this s).run = false) {e : Fault}
    (he : load 0 (flushWhole (this s)) = .error e) : exec i s = .fault e := by
  rw [exec_flip_paced_stopped h hs hmode hrun]
  exact exec_tdcStart_fault hs.1 ((run_setThis_flushWhole s).trans hrun) (by rw [this_setThis]; exact he)

/-- On a running channel the flip is left at its spin, with the start after it (R200 f2). -/
theorem exec_flip_paced_running {i : Instr} (h : i = .flipBuffers ∨ i = .flushBuffer) {s : State} (hs : idleWhole s)
    (hmode : (this s).mode = .paced) (hrun : (this s).run = true) :
    exec i s = .next { setThis s (flushWhole (this s)) with call := [(s.sel, .spinStopped), (s.sel, .tdcStart)] } := by
  rw [exec_flip_paced h hs hmode, runCall, runMicro_spinStopped_running ((run_setThis_flushWhole s).trans hrun)]

/-- Settles O41: the flush, then `TDC_START` on a stopped channel, or the spin on a running one. -/
theorem flipInPacedMode : Obligations.FlipInPacedMode := by
  intro s i hi hs hmode
  refine ⟨(flushWhole (this s)).buf, flushWhole_flushedOver (by simp [hmode]), fun hrun hl => ?_, fun hrun hl => ?_,
    fun hrun => ⟨_, exec_flip_paced_running hi hs hmode hrun, rfl, ?_⟩⟩
  · exact exec_flip_paced_start hi hs hmode hrun (startChain_ok (x := flushWhole (this s)) hl)
  · exact (load_of_not_loadable (x := flushWhole (this s)) hl).imp
      (exec_flip_paced_fault hi hs hmode hrun) (exec_flip_paced_fault hi hs hmode hrun)
  · exact callNext_of_waits hs.1.2 rfl (runMicro_spinStopped_running ((run_setThis_flushWhole s).trans hrun))

end Sys2Proof.Machine
end

section
/-! SUPPORT. `IRQ_HANDLER` (42_swap_synchronizer.md R195, 60_exceptions.md R264 to R267): when and where it is entered,
and what its micro-steps make of the descriptor table. -/

namespace Sys2Proof.Machine

open Sys2Proof

/-! Entering the handler (R264, R266) -/

/-- The trampoline's route, said of `UNIT` and `INST` (R264). -/
theorem irqRoute_eq_some_iff {s : State} {k n : Nat} : irqRoute s k = some n ↔ routed s k n := by
  unfold irqRoute routed
  cases hu : (getInst s k).unitNo with
  | none => simp [eq_comm]
  | some u => simp

/-- The interrupt of a unit no instance owns is dropped (R264). -/
theorem irqRoute_unowned {s : State} {k : Nat} {u : Fin 2} (hu : (getInst s k).unitNo = some u)
    (ho : s.owner[u.val] = none) : irqRoute s k = none := by
  rw [irqRoute, hu, ← ho]

/-- The handler is not entered during a handler run, without an enabled interrupt, or without a route (R195, R264). -/
theorem exec_irqHandler_not_entered {s : State}
    (h : s.irq ≠ [] ∨ irqEnabled (this s) = false ∨ irqRoute s s.sel = none) : exec .irqHandler s = .next s := by
  rw [exec, execIrqHandler, enterHandler]
  split
  · rfl
  · next hout =>
    split
    · rfl
    · next hon =>
      obtain h | h | h := h
      · exact absurd (inHandler_iff.2 h) hout
      · exact absurd (by simp [h]) hon
      · rw [h]

/-- The handler of instance `n` is entered by the interrupt of the instance of the turn (R195, R264). -/
def Enters (s : State) (n : Nat) : Prop :=
  s.irq = [] ∧ (this s).irqPend = true ∧ (this s).irqAttached = true ∧ routed s s.sel n

/-- A handler that is entered takes its micro-steps in the grain of the turn (R15 (a), R266). -/
theorem exec_irqHandler_entered {s : State} {n : Nat} (h : Enters s n) :
    (s.grain = .whole → exec .irqHandler s = runIrq (micros n (handlerMicros (getInst s n))) s) ∧
    (s.grain = .micro → exec .irqHandler s = stepIrq (micros n (handlerMicros (getInst s n))) s) := by
  obtain ⟨hirq, hpend, hatt, hroute⟩ := h
  have hout : ¬inHandler s = true := fun hin => inHandler_iff.1 hin hirq
  have hon : ¬(!irqEnabled (this s)) = true := by simp [irqEnabled, hpend, hatt]
  rw [exec, execIrqHandler, enterHandler, if_neg hout, if_neg hon, irqRoute_eq_some_iff.2 hroute]
  exact ⟨fun hg => by rw [hg], fun hg => by rw [hg]⟩

/-! Retargeting the segments (R195 h2) -/

/-- Record `2+i` with its source at segment `i` of the active half (R195 h2.i). -/
def retargeted (x : Inst) (i : Nat) : Entry :=
  ⟨(segAt x i).known, ⟨segSrc x x.activePtr i, (segAt x i).body.ctrl⟩⟩

/-- The instance after the micro-steps h2.i of some segments (R195). -/
def retargetSegments (l : List Nat) (x : Inst) : Inst :=
  l.foldl retargetSegment x

/-- Retargeting changes the table alone. -/
theorem retargetSegments_frame (l : List Nat) (x : Inst) : ∃ d, retargetSegments l x = { x with desc := d } := by
  induction l generalizing x with
  | nil => exact ⟨x.desc, rfl⟩
  | cons i l ih => exact ih (retargetSegment x i)

/-- The segments' places in the table are apart (R155). -/
theorem segment_index_injective {i j : Nat} (hi : i < 4) (hj : j < 4)
    (h : BitVec.ofNat 3 (2 + i) = BitVec.ofNat 3 (2 + j)) : i = j := by
  have hval := congrArg BitVec.toNat h
  rw [BitVec.toNat_ofNat, BitVec.toNat_ofNat] at hval
  omega

theorem segAt_retargetSegment_same (x : Inst) (i : Nat) : segAt (retargetSegment x i) i = retargeted x i :=
  descAt_editRecord_same x _ _

theorem segAt_retargetSegment_other (x : Inst) {i j : Nat} (hi : i < 4) (hj : j < 4) (h : j ≠ i) :
    segAt (retargetSegment x i) j = segAt x j :=
  descAt_editRecord_other x _ fun hij => h (segment_index_injective hj hi hij)

/-- Retargeting a segment twice is retargeting it once. -/
theorem retargeted_retargetSegment (x : Inst) {i j : Nat} (hi : i < 4) (hj : j < 4) :
    retargeted (retargetSegment x i) j = retargeted x j := by
  by_cases h : j = i
  · subst h
    rw [retargeted, segAt_retargetSegment_same]
    rfl
  · rw [retargeted, segAt_retargetSegment_other x hi hj h]
    rfl

/-- The segments retargeted have the sources of the active half; the others stay. -/
theorem segAt_retargetSegments {l : List Nat} (hl : ∀ i ∈ l, i < 4) (x : Inst) {j : Nat} (hj : j < 4) :
    segAt (retargetSegments l x) j = if j ∈ l then retargeted x j else segAt x j := by
  induction l generalizing x with
  | nil => rfl
  | cons i l ih =>
    obtain ⟨hi, hl⟩ := List.forall_mem_cons.1 hl
    refine (ih hl (retargetSegment x i)).trans ?_
    rw [retargeted_retargetSegment x hi hj]
    by_cases hmem : j ∈ l
    · rw [if_pos hmem, if_pos (List.mem_cons_of_mem i hmem)]
    · by_cases hji : j = i
      · subst hji
        rw [if_neg hmem, if_pos List.mem_cons_self, segAt_retargetSegment_same]
      · rw [if_neg hmem, if_neg (by simp [hji, hmem]), segAt_retargetSegment_other x hi hj hji]

/-- A record that is at none of the segments' places stays. -/
theorem descAt_retargetSegments_other {l : List Nat} (x : Inst) {k : BitVec 3}
    (hk : ∀ i ∈ l, k ≠ BitVec.ofNat 3 (2 + i)) : descAt (retargetSegments l x) k = descAt x k := by
  induction l generalizing x with
  | nil => rfl
  | cons i l ih =>
    obtain ⟨hi, hl⟩ := List.forall_mem_cons.1 hk
    exact (ih (retargetSegment x i) hl).trans (descAt_editRecord_other x _ hi)

/-! The micro-steps on an instance (R195, R267) -/

/-- The instance after a whole handler run (R195): h1, h2.i for every segment, h3. -/
def handled (x : Inst) : Inst :=
  ackIrq (retargetSegments (List.range (nData x)) (setArmed x false))

theorem runIrq_onInst_setInst {n : Nat} {m : Micro} {l : List (Nat × Micro)} {s : State} {x : Inst} {g : Inst → Inst}
    (hm : runMicro n m (setInst s n x) = onInst (setInst s n x) n g) :
    runIrq ((n, m) :: l) (setInst s n x) = runIrq l (setInst s n (g x)) := by
  rw [runIrq, hm, onInst, getInst_setInst_same, setInst_setInst]

/-- The micro-steps h2.i, one after another. -/
theorem runIrq_retargetSegments {n : Nat} (l : List Nat) (rest : List (Nat × Micro)) (s : State) (x : Inst) :
    runIrq (micros n (l.map .retarget) ++ rest) (setInst s n x)
      = runIrq rest (setInst s n (retargetSegments l x)) := by
  induction l generalizing x with
  | nil => rfl
  | cons i l ih => exact (runIrq_onInst_setInst (g := fun x => retargetSegment x i) rfl).trans (ih _)

/-- The handler's micro-steps, the first apart (R195). -/
theorem micros_handlerMicros (n : Nat) (x : Inst) : micros n (handlerMicros x)
    = (n, .disarm) :: (micros n ((List.range (nData x)).map .retarget) ++ [(n, .ack)]) := by
  simp [micros, handlerMicros]

/-- A whole handler run changes the instance it is entered on, and nothing else (R195, R267). -/
theorem runIrq_handlerMicros {s : State} (h : s.irq = []) (n : Nat) :
    runIrq (micros n (handlerMicros (getInst s n))) s = .next (setInst s n (handled (getInst s n))) := by
  have hirq : ∀ x, ({ setInst s n x with irq := [] } : State) = setInst s n x := fun x => by rw [← h]; rfl
  calc runIrq (micros n (handlerMicros (getInst s n))) s
    _ = runIrq (micros n ((List.range (nData (getInst s n))).map .retarget) ++ [(n, .ack)])
          (setInst s n (setArmed (getInst s n) false)) := by rw [micros_handlerMicros]; rfl
    _ = runIrq [(n, .ack)] (setInst s n
          (retargetSegments (List.range (nData (getInst s n))) (setArmed (getInst s n) false))) :=
      runIrq_retargetSegments _ _ _ _
    _ = runIrq [] (setInst s n (handled (getInst s n))) := runIrq_onInst_setInst (g := ackIrq) rfl
    _ = .next (setInst s n (handled (getInst s n))) := congrArg Host.Outcome.next (hirq _)

/-- The first micro-step of a handler run, h1, with the rest left (R195, R15 (a)). -/
theorem stepIrq_handlerMicros (s : State) (n : Nat) :
    stepIrq (micros n (handlerMicros (getInst s n))) s
      = .next { setInst s n (setArmed (getInst s n) false) with
          irq := (List.range (nData (getInst s n))).map (fun i => (n, .retarget i)) ++ [(n, .ack)] } := by
  have hrest : (List.range (nData (getInst s n))).map (fun i => (n, Micro.retarget i))
      = micros n ((List.range (nData (getInst s n))).map .retarget) := by
    simp [micros]
  rw [micros_handlerMicros, hrest]
  rfl

/-- A whole handler run changes the table and the pending flag alone. -/
theorem handled_frame (x : Inst) : handled x = { x with desc := (handled x).desc, irqPend := false } := by
  obtain ⟨d, hd⟩ := retargetSegments_frame (List.range (nData x)) (setArmed x false)
  rw [handled, hd]
  rfl

/-- The records of indices 0, 1, 6 and 7 are no segments (R155). -/
theorem segment_index_ne {i : Nat} (hi : i < 4) {k : BitVec 3} (hk : k = 0 ∨ k = 1 ∨ k = 6 ∨ k = 7) :
    k ≠ BitVec.ofNat 3 (2 + i) := by
  revert i k; decide

/-- The handler run leaves every record but those of the segments as h1 does (R195). -/
theorem descAt_handled {x : Inst} (hfour : nData x ≤ 4) {k : BitVec 3} (hk : k = 0 ∨ k = 1 ∨ k = 6 ∨ k = 7) :
    descAt (handled x) k = descAt (setArmed x false) k :=
  descAt_retargetSegments_other (setArmed x false) fun _ hi =>
    segment_index_ne (lt_of_lt_of_le (List.mem_range.1 hi) hfour) hk

/-- The handler run retargets the segments in use (R195 h2). -/
theorem segAt_handled {x : Inst} (hfour : nData x ≤ 4) {i : Nat} (hi : i < 4) :
    segAt (handled x) i = if i < nData x then retargeted x i else segAt x i := by
  have hl : ∀ j ∈ List.range (nData x), j < 4 := fun j hj => lt_of_lt_of_le (List.mem_range.1 hj) hfour
  have hseg : segAt (setArmed x false) i = segAt x i :=
    descAt_editRecord_other x _ (segment_index_ne hi (.inr (.inr (.inl rfl)))).symm
  have hret : retargeted (setArmed x false) i = retargeted x i := by
    rw [retargeted, hseg]
    rfl
  refine (segAt_retargetSegments hl (setArmed x false) hi).trans ?_
  simp only [List.mem_range, hseg, hret]

/-- Segment `i` stands at place `2+i` of the table. -/
theorem desc_segment (x : Inst) (i : Fin 4) : x.desc[2 + i.val] = segAt x i := by
  fin_cases i <;> rfl

/-- The table after a handler run (R195): record 6 disarmed, the segments in use retargeted, the others as before. -/
theorem handled_table {x : Inst} (hfour : nData x ≤ 4) :
    (handled x).desc[0] = x.desc[0] ∧ (handled x).desc[1] = x.desc[1] ∧ (handled x).desc[7] = x.desc[7] ∧
    (handled x).desc[6] = ⟨x.desc[6].known, ⟨x.desc[6].body.src, x.desc[6].body.ctrl &&& 0xFFFFFFBF⟩⟩ ∧
    ∀ i : Fin 4, (handled x).desc[2 + i.val] = if i.val < nData x then retargeted x i else x.desc[2 + i.val] := by
  have hother : ∀ k : BitVec 3, k = 0 ∨ k = 1 ∨ k = 6 ∨ k = 7 → k ≠ 6 → descAt (handled x) k = descAt x k :=
    fun k hk hne => (descAt_handled hfour hk).trans (descAt_editRecord_other x _ hne)
  refine ⟨hother 0 (by decide) (by decide), hother 1 (by decide) (by decide), hother 7 (by decide) (by decide), ?_,
    fun i => ?_⟩
  · rw [← setInten_false]
    exact (descAt_handled hfour (k := 6) (by decide)).trans (descAt_editRecord_same x 6 _)
  · rw [desc_segment, desc_segment, segAt_handled hfour i.isLt]

/-- Settles O37: no step where the handler is not entered; else its first micro-step, or the whole run. -/
theorem irqHandlerResult : Obligations.IrqHandlerResult := by
  refine fun s => ⟨fun h => exec_irqHandler_not_entered ?_, fun n hirq hg hpend hatt hroute => ?_,
    fun n hirq hg hpend hatt hroute hfour => ?_⟩
  · exact h.imp_right (Or.imp_right fun ⟨_, hu, ho⟩ => irqRoute_unowned hu ho)
  · rw [(exec_irqHandler_entered ⟨hirq, hpend, hatt, hroute⟩).2 hg, stepIrq_handlerMicros, setArmed_false]
  · obtain ⟨hprime, hgateHi, hgap, hclose, hseg⟩ := handled_table hfour
    refine ⟨(handled (getInst s n)).desc, ?_, hprime, hgateHi, hgap, hclose, fun i => ?_⟩
    · rw [(exec_irqHandler_entered ⟨hirq, hpend, hatt, hroute⟩).1 hg, runIrq_handlerMicros hirq, ← handled_frame]
    · rw [hseg, retargeted, ← desc_segment]
      rfl

end Sys2Proof.Machine
end

section
/-! SUPPORT. The frame-buffer codec (43_frame_buffer_codec.md): which channel types are assigned (R223), and what the colour
accessors write to and read from the words of an LED (R224 to R231). -/

namespace Sys2Proof.Machine

open Sys2Proof

/-! `SET_CHANNEL_TYPE` (R223) -/

/-- Bytes above 2 name no channel type (R223). -/
theorem chTypeOfByte_none {t : Byte} (h : 2 < t.toNat) : chTypeOfByte t = none := by
  unfold chTypeOfByte
  split
  case h_4 => rfl
  all_goals omega

theorem channelTypeTarget_badChannel {x : Inst} {ch t : Byte} (h : 31 < ch.toNat) : channelTypeTarget x ch t = none :=
  dif_neg (by omega)

theorem channelTypeTarget_eq {x : Inst} {ch t : Byte} (h : ch.toNat < 32) {ty : ChType}
    (ht : chTypeOfByte t = some ty) : channelTypeTarget x ch t = if ty = .four ∧ x.cap = .three then none else some (⟨ch.toNat, h⟩, ty) := by
  rw [channelTypeTarget, dif_pos h, ht]

theorem channelTypeTarget_badType {x : Inst} {ch t : Byte} (ht : chTypeOfByte t = none) :
    channelTypeTarget x ch t = none := by
  rw [channelTypeTarget, ht]
  exact dite_eq_right_iff.2 fun _ => rfl

/-- The four-channel type does not fit three-channel capacity (R222, R223). -/
theorem channelTypeTarget_overCapacity {x : Inst} {ch : Byte} (h : x.cap = .three) : channelTypeTarget x ch 2 = none := by
  by_cases hch : ch.toNat < 32
  · rw [channelTypeTarget_eq hch (ty := .four) rfl, if_pos ⟨rfl, h⟩]
  · exact dif_neg hch

theorem exec_setChannelType_noTarget {s : State} (hs : idle s) {ch t : Byte}
    (h : channelTypeTarget (this s) ch t = none) : exec (.setChannelType ch t) s = .next s := by
  change execSetChannelType ch t s = .next s
  rw [execSetChannelType, asCall_idle hs, h]

theorem exec_setChannelType_assigns {s : State} (hs : idle s) {ch t : Byte} (h : ch.toNat < 32) {ty : ChType}
    (ht : chTypeOfByte t = some ty) (hfit : ¬(ty = .four ∧ (this s).cap = .three)) :
    exec (.setChannelType ch t) s
      = .next (setThis s { this s with chtype := (this s).chtype.set ch.toNat ty h }) := by
  change execSetChannelType ch t s = _
  rw [execSetChannelType, asCall_idle hs, channelTypeTarget_eq h ht, if_neg hfit]
  rfl

/-- Settles O42: each no-op has no target, each assignment has one. -/
theorem setChannelTypeResult : Obligations.SetChannelTypeResult := by
  intro s ch t hs
  refine ⟨fun hch => exec_setChannelType_noTarget hs (channelTypeTarget_badChannel hch),
    fun ht => exec_setChannelType_noTarget hs (channelTypeTarget_badType (chTypeOfByte_none ht)), ?_,
    fun h => ⟨?_, ?_, ?_⟩⟩
  · rintro rfl hcap
    exact exec_setChannelType_noTarget hs (channelTypeTarget_overCapacity hcap)
  · rintro rfl
    exact exec_setChannelType_assigns hs h rfl (by simp)
  · rintro rfl
    exact exec_setChannelType_assigns hs h rfl (by simp)
  · rintro rfl hcap
    exact exec_setChannelType_assigns hs h rfl (by simp [hcap])

/-! The words of an LED (R221, R224) -/

theorem widthOf_eq_or (t : ChType) : widthOf t = 24 ∨ widthOf t = 32 := by
  cases t <;> simp [widthOf]

theorem widthOf_le (t : ChType) : widthOf t ≤ 32 := by
  rcases widthOf_eq_or t with h | h <;> omega

theorem widthOf_pos (t : ChType) : 0 < widthOf t := by
  rcases widthOf_eq_or t with h | h <;> omega

/-- The words of one LED are apart, also where their addresses wrap (R224). -/
theorem colorAddr_injOn (half : Word) {w : Nat} (n : Nat) (hw : w ≤ 32) {i j : Nat} (hi : i < w) (hj : j < w)
    (h : colorAddr half w n i = colorAddr half w n j) : i = j := by
  have hoff := congrArg BitVec.toNat ((BitVec.add_right_inj half).1 h)
  simp only [BitVec.toNat_ofNat] at hoff
  omega

theorem colorTarget_outOfRange {x : Inst} {ch : Byte} {idx : Word} (h : 31 < ch.toNat ∨ x.leds ≤ idx.toNat) :
    colorTarget x ch idx = none := by
  unfold colorTarget
  split
  · exact if_neg (by omega)
  · rfl

theorem colorTarget_inRange {x : Inst} {ch : Byte} {idx : Word} (h : ch.toNat < 32) (hidx : idx.toNat < x.leds) :
    colorTarget x ch idx = some (⟨ch.toNat, h⟩, widthOf x.chtype[ch.toNat]) :=
  (dif_pos h).trans (if_pos hidx)

/-! Writing bits (R225) -/

/-- A word with one bit replaced: the value a read-modify-write of R225 writes. -/
def putBit (v : Word) (ch : Nat) (bit : Bool) : Word :=
  (v &&& ~~~(1#32 <<< ch)) ||| ((if bit then 1#32 else 0#32) <<< ch)

theorem writeBit_eq (b : Buffer) (a : Word) (ch : Nat) (bit : Bool) :
    writeBit b a ch bit = hostWrite b a.toNat (putBit (hostRead b a.toNat) ch bit) := rfl

/-- A bit shifted to a place of a word stands there and nowhere else. -/
theorem getLsbD_bit_shiftLeft (bit : Bool) (p : Nat) {c : Nat} (hc : c < 32) :
    ((if bit then 1#32 else 0#32) <<< p).getLsbD c = (bit && decide (c = p)) := by
  have hone : (1#32 <<< p).getLsbD c = decide (c = p) := by
    rw [← BitVec.twoPow_eq, BitVec.getLsbD_twoPow]
    by_cases h : c = p
    · subst h; simp [hc]
    · simp [h, Ne.symm h]
  cases bit
  · simp
  · simpa using hone

theorem getLsbD_putBit (v : Word) (ch : Nat) (bit : Bool) {c : Nat} (hc : c < 32) :
    (putBit v ch bit).getLsbD c = if c = ch then bit else v.getLsbD c := by
  have hmask : (1#32 <<< ch).getLsbD c = decide (c = ch) := by simpa using getLsbD_bit_shiftLeft true ch hc
  rw [putBit, BitVec.getLsbD_or, BitVec.getLsbD_and, BitVec.getLsbD_not, hmask, getLsbD_bit_shiftLeft bit ch hc]
  by_cases h : c = ch <;> simp [h, hc]

/-- Bit writes leave the words they do not name (R225). -/
theorem hostRead_setBits_other (l : List (Word × Bool)) (ch : Nat) (b : Buffer) {k : Nat}
    (hk : ∀ p ∈ l, k ≠ p.1.toNat) : hostRead (setBits l ch b) k = hostRead b k := by
  induction l generalizing b with
  | nil => rfl
  | cons q l ih =>
    obtain ⟨hq, hl⟩ := List.forall_mem_cons.1 hk
    exact (ih _ hl).trans (hostRead_hostWrite_other b _ hq)

/-- Bit writes to words that are apart put each bit into its own word (R225). -/
theorem hostRead_setBits_mem {l : List (Word × Bool)} (hl : (l.map Prod.fst).Nodup) (ch : Nat) (b : Buffer)
    {p : Word × Bool} (hp : p ∈ l) :
    hostRead (setBits l ch b) p.1.toNat = putBit (hostRead b p.1.toNat) ch p.2 := by
  induction l generalizing b with
  | nil => cases hp
  | cons q l ih =>
    obtain ⟨hq, hrest⟩ := List.nodup_cons.1 hl
    have happart : ∀ r ∈ l, q.1.toNat ≠ r.1.toNat := fun r hr he =>
      hq (BitVec.eq_of_toNat_eq he ▸ List.mem_map_of_mem hr)
    rcases List.mem_cons.1 hp with rfl | hp
    · exact (hostRead_setBits_other l ch _ happart).trans (hostRead_hostWrite_same b _ _)
    · refine (ih hrest (writeBit b q.1 ch q.2) hp).trans ?_
      rw [writeBit_eq, hostRead_hostWrite_other b _ (happart p hp).symm]

/-- Bit writes do not reach the DMA view (R70). -/
theorem dmaRead_setBits (l : List (Word × Bool)) (ch : Nat) (b : Buffer) (k : Nat) :
    dmaRead (setBits l ch b) k = dmaRead b k := by
  induction l generalizing b with
  | nil => rfl
  | cons q l ih => exact (ih _).trans (dmaRead_hostWrite b _ k _)

/-- Bit writes make dirty the words they name (R70). -/
theorem mem_dirty_setBits (l : List (Word × Bool)) (ch : Nat) (b : Buffer) (k : Nat) :
    k ∈ (setBits l ch b).dirty ↔ k ∈ b.dirty ∨ ∃ p ∈ l, k = p.1.toNat := by
  induction l generalizing b with
  | nil => simp [setBits]
  | cons q l ih =>
    have hstep : k ∈ (writeBit b q.1 ch q.2).dirty ↔ k = q.1.toNat ∨ k ∈ b.dirty := mem_dirty_hostWrite b _ k _
    refine (ih (writeBit b q.1 ch q.2)).trans ?_
    simp only [hstep, List.mem_cons, exists_eq_or_imp]
    tauto

/-! Writing a colour (R225, R227, R228) -/

/-- The bit writes of `setChannelColor`: each word of the LED with its bit of the colour, the first word's the highest. -/
def colorBits (half : Word) (w n : Nat) (col : Word) : List (Word × Bool) :=
  (List.range w).map fun j => (colorAddr half w n j, col.getLsbD (w - 1 - j))

theorem colorMicros_eq_map (half : Word) (ch w n : Nat) (col : Word) :
    colorMicros half ch w n col = (colorBits half w n col).map fun p => .setBit p.1 ch p.2 := by
  simp [colorMicros, colorBits]

theorem colorBits_nodup (half : Word) {w : Nat} (n : Nat) (hw : w ≤ 32) (col : Word) :
    ((colorBits half w n col).map Prod.fst).Nodup := by
  rw [colorBits, List.map_map]
  exact List.nodup_range.map_on fun i hi j hj h =>
    colorAddr_injOn half n hw (List.mem_range.1 hi) (List.mem_range.1 hj) h

/-- The bit writes of a colour store it in the words of the LED (R225). -/
theorem setBits_colorStored (half : Word) (ch : Nat) {w : Nat} (n : Nat) (hw : w ≤ 32) (col : Word) (b : Buffer) :
    ColorStored b (setBits (colorBits half w n col) ch b) half ch w n col := by
  refine ⟨fun j hj c hc => ?_, fun k hk => hostRead_setBits_other _ ch b ?_, dmaRead_setBits _ ch b, fun k => ?_⟩
  · have hmem : (colorAddr half w n j, col.getLsbD (w - 1 - j)) ∈ colorBits half w n col :=
      List.mem_map_of_mem (List.mem_range.2 hj)
    rw [hostRead_setBits_mem (colorBits_nodup half n hw col) ch b hmem, getLsbD_putBit _ ch _ hc]
  · simpa [colorBits] using hk
  · simp [mem_dirty_setBits, colorBits]

theorem setColorMicros_outOfRange {x : Inst} {ch : Byte} {idx : Word} (h : 31 < ch.toNat ∨ x.leds ≤ idx.toNat)
    (half col : Word) : setColorMicros x half ch idx col = [] := by
  rw [setColorMicros, colorTarget_outOfRange h]

theorem setColorMicros_inRange {x : Inst} {ch : Byte} {idx : Word} (h : ch.toNat < 32) (hidx : idx.toNat < x.leds)
    (half col : Word) : setColorMicros x half ch idx col
      = (colorBits half (widthOf x.chtype[ch.toNat]) idx.toNat col).map fun p => .setBit p.1 ch.toNat p.2 := by
  rw [setColorMicros, colorTarget_inRange h hidx]
  exact colorMicros_eq_map _ _ _ _ _

/-- A colour write out of range, to either half, changes nothing (R225). -/
theorem accessorOp_setColor_outOfRange {s : State} (hs : canAccess s) (hg : s.grain = .whole) {ch : Byte} {idx : Word}
    (h : 31 < ch.toNat ∨ (this s).leds ≤ idx.toNat) (half col : Word) :
    accessorOp (setColorMicros (this s) half ch idx col) s = .next s := by
  rw [setColorMicros_outOfRange h, accessorOp_none hs hg]

/-- A colour write in range, to either half, stores the colour and changes nothing but the buffer (R225). -/
theorem accessorOp_setColor_inRange {s : State} (hs : canAccess s) (hg : s.grain = .whole) {ch : Byte} {idx : Word}
    (h : ch.toNat < 32) (hidx : idx.toNat < (this s).leds) (half col : Word) :
    ∃ b, accessorOp (setColorMicros (this s) half ch idx col) s = .next (setThis s { this s with buf := b })
      ∧ ColorStored (this s).buf b half ch.toNat (widthOf (this s).chtype[ch.toNat]) idx.toNat col := by
  refine ⟨_, ?_, setBits_colorStored half ch.toNat idx.toNat (widthOf_le _) col _⟩
  have hne : colorBits half (widthOf (this s).chtype[ch.toNat]) idx.toNat col ≠ [] := by
    simp [colorBits, (widthOf_pos _).ne']
  obtain ⟨p, l, hl⟩ := List.exists_cons_of_ne_nil hne
  rw [setColorMicros_inRange h hidx, hl]
  exact accessorOp_setBits hs hg p l ch.toNat

/-- Settles O43: both wrappers are the colour write, each to the half of its pointer. -/
theorem setColorResult : Obligations.SetColorResult := by
  intro s ch idx col hs hg
  have hout := fun h => accessorOp_setColor_outOfRange (ch := ch) (idx := idx) hs hg h
  have hin := fun h hidx => accessorOp_setColor_inRange (ch := ch) (idx := idx) hs hg h hidx
  exact ⟨fun h => ⟨hout h (this s).activePtr col, hout h (this s).inactivePtr col⟩,
    fun h hidx => ⟨hin h hidx (this s).activePtr col, hin h hidx (this s).inactivePtr col⟩⟩

/-! Reading a colour (R226, R229, R230) -/

/-- Bits or-ed together, each at its place: what stands at a place of the word. -/
theorem getLsbD_foldl_bits (bit : Nat → Bool) (place : Nat → Nat) (l : List Nat) (v : Word) {j : Nat} (hj : j < 32) :
    (l.foldl (fun col k => col ||| ((if bit k then 1#32 else 0#32) <<< place k)) v).getLsbD j
      = (v.getLsbD j || l.any fun k => bit k && decide (j = place k)) := by
  induction l generalizing v with
  | nil => simp
  | cons k l ih =>
    rw [List.foldl_cons, ih, BitVec.getLsbD_or, getLsbD_bit_shiftLeft _ _ hj, List.any_cons, Bool.or_assoc]

/-- Among the bit positions of an LED, the one whose bit goes to place `j` of the colour is `w-1-j` (R224). -/
theorem any_range_place (bit : Nat → Bool) (w j : Nat) :
    ((List.range w).any fun k => bit k && decide (j = w - 1 - k)) = (decide (j < w) && bit (w - 1 - j)) := by
  rw [Bool.eq_iff_iff]
  simp only [List.any_eq_true, List.mem_range, Bool.and_eq_true, decide_eq_true_eq]
  constructor
  · rintro ⟨k, hk, hbit, rfl⟩
    exact ⟨by omega, by rwa [Nat.sub_sub_self (by omega)]⟩
  · rintro ⟨hj, hbit⟩
    exact ⟨w - 1 - j, by omega, hbit, by omega⟩

/-- The bits of a gathered colour (R226). -/
theorem getLsbD_gatherColor (b : Buffer) (half : Word) (ch : Nat) {w : Nat} (hw : w ≤ 32) (n j : Nat) :
    (gatherColor b half ch w n).getLsbD j
      = (decide (j < w) && (hostRead b (colorAddr half w n (w - 1 - j)).toNat).getLsbD ch) := by
  by_cases hj : j < 32
  · rw [gatherColor, getLsbD_foldl_bits (fun k => (hostRead b (colorAddr half w n k).toNat).getLsbD ch) _ _ _ hj,
      any_range_place, BitVec.getLsbD_zero, Bool.false_or]
  · rw [BitVec.getLsbD_of_ge _ _ (by omega), decide_eq_false (by omega), Bool.false_and]

theorem getColor_outOfRange {x : Inst} {ch : Byte} {idx : Word} (h : 31 < ch.toNat ∨ x.leds ≤ idx.toNat)
    (half : Word) : getColor x half ch idx = 0 := by
  rw [getColor, colorTarget_outOfRange h]

theorem getColor_inRange {x : Inst} {ch : Byte} {idx : Word} (h : ch.toNat < 32) (hidx : idx.toNat < x.leds)
    (half : Word) :
    getColor x half ch idx = gatherColor x.buf half ch.toNat (widthOf x.chtype[ch.toNat]) idx.toNat := by
  rw [getColor, colorTarget_inRange h hidx]

theorem exec_getActiveColor {s : State} (hs : canAccess s) (ch : Byte) (idx : Word) :
    exec (.getActiveColor ch idx) s = .next { s with ret := .color (getColor (this s) (this s).activePtr ch idx) } :=
  asAccessor_free hs _

theorem exec_getInactiveColor {s : State} (hs : canAccess s) (ch : Byte) (idx : Word) :
    exec (.getInactiveColor ch idx) s
      = .next { s with ret := .color (getColor (this s) (this s).inactivePtr ch idx) } :=
  asAccessor_free hs _

/-- Settles O44: both wrappers answer the colour gathered from the half of their pointer. -/
theorem getColorResult : Obligations.GetColorResult := by
  intro s ch idx hs
  rw [exec_getActiveColor hs, exec_getInactiveColor hs]
  refine ⟨fun h => ?_, fun h hidx => ?_⟩
  · rw [getColor_outOfRange h, getColor_outOfRange h]
    exact ⟨rfl, rfl⟩
  · rw [getColor_inRange h hidx, getColor_inRange h hidx]
    have hbits := fun half => getLsbD_gatherColor (this s).buf half ch.toNat (widthOf_le (this s).chtype[ch.toNat])
    exact ⟨⟨_, rfl, hbits _ idx.toNat⟩, ⟨_, rfl, hbits _ idx.toNat⟩⟩

/-! Reading back a colour written (R231) -/

/-- The part of a colour that a channel type has room for: all of it, or without its top byte (R231). -/
theorem getLsbD_colorMask (t : ChType) (col : Word) (j : Nat) :
    (if widthOf t = 24 then col &&& 0x00FFFFFF else col).getLsbD j = (decide (j < widthOf t) && col.getLsbD j) := by
  have hlow : (0x00FFFFFF : Word) = BitVec.setWidth 32 (BitVec.allOnes 24) := by decide
  rcases widthOf_eq_or t with h | h
  · rw [h, if_pos rfl, hlow, BitVec.getLsbD_and, BitVec.getLsbD_setWidth, BitVec.getLsbD_allOnes, Bool.and_comm]
    have hj : (decide (j < 32) && decide (j < 24)) = decide (j < 24) := by rw [← Bool.decide_and, decide_eq_decide]; omega
    rw [hj]
  · rw [h, if_neg (by decide)]
    by_cases hj : j < 32
    · simp [hj]
    · rw [BitVec.getLsbD_of_ge _ _ (by omega), Bool.and_false]

/-- A stored colour is gathered again, in the width of the channel's type (R231). -/
theorem gatherColor_of_stored {b b' : Buffer} {half col : Word} {ch n : Nat} {t : ChType} (hch : ch < 32)
    (h : ColorStored b b' half ch (widthOf t) n col) :
    gatherColor b' half ch (widthOf t) n = if widthOf t = 24 then col &&& 0x00FFFFFF else col := by
  obtain ⟨hbits, -, -, -⟩ := h
  refine BitVec.eq_of_getLsbD_eq fun j _ => ?_
  rw [getLsbD_gatherColor b' half ch (widthOf_le t), getLsbD_colorMask]
  by_cases hj : j < widthOf t
  · rw [hbits _ (by omega) ch hch, if_pos rfl, Nat.sub_sub_self (by omega)]
  · simp [hj]

/-- A colour write leaves the pointers and the contexts, and the read of the same half then answers the colour (R231). -/
theorem getColor_of_setColor {s t : State} (hs : canAccess s) (hg : s.grain = .whole) {ch : Byte} {idx : Word}
    (h : ch.toNat < 32) (hidx : idx.toNat < (this s).leds) {half col : Word}
    (ht : accessorOp (setColorMicros (this s) half ch idx col) s = .next t) :
    canAccess t ∧ (this t).activePtr = (this s).activePtr ∧ (this t).inactivePtr = (this s).inactivePtr ∧
      getColor (this t) half ch idx = if widthOf (this s).chtype[ch.toNat] = 24 then col &&& 0x00FFFFFF else col := by
  obtain ⟨b, hb, hstored⟩ := accessorOp_setColor_inRange hs hg h hidx half col
  obtain rfl : setThis s { this s with buf := b } = t := by simpa [hb] using ht
  rw [this_setThis]
  have hread := getColor_inRange (x := { this s with buf := b }) h hidx half
  exact ⟨hs, rfl, rfl, hread.trans (gatherColor_of_stored h hstored)⟩

/-- Settles O45: each getter reads the half its setter wrote. -/
theorem colorRoundTrip : Obligations.ColorRoundTrip := by
  intro s t ch idx col h hs hg hidx
  constructor
  · intro ht
    obtain ⟨hfree, hactive, -, hcolor⟩ := getColor_of_setColor hs hg h hidx ht
    rw [exec_getActiveColor hfree, hactive, hcolor]
  · intro ht
    obtain ⟨hfree, -, hinactive, hcolor⟩ := getColor_of_setColor hs hg h hidx ht
    rw [exec_getInactiveColor hfree, hinactive, hcolor]

end Sys2Proof.Machine
end

section
/-! SUPPORT. `CONSTRUCT` (44_lifecycle.md R240) and the five checks of `INITIALIZE` (R241): what each refuses or
rejects, said of the operands and the registers. -/

namespace Sys2Proof.Machine

open Sys2Proof

/-! `CONSTRUCT` (R240) -/

theorem depthOf_eq (cap : Cap) : depthOf cap = if cap = .three then 24 else 32 := by
  cases cap <;> rfl

/-- The second half is a frame above the first in `MODE = DOUBLE`, else it is the first (R9, R62). -/
theorem base1_eq (x : Inst) :
    base1 x = if x.mode = .double then x.par.base0 + BitVec.ofNat 32 (4 * frameWords x) else x.par.base0 := by
  cases h : x.mode <;> simp [base1, h]

/-- The channel types break R222 where the capacity is three-channel and some channel has the four-channel type. -/
theorem chTypesOk_iff {cap : Cap} {l : Vector ChType 32} :
    chTypesOk cap l = true ↔ ¬(cap = .three ∧ ∃ c : Fin 32, l[c.val] = .four) := by
  cases cap with
  | four => simp [chTypesOk]
  | three => simp [chTypesOk, Fin.forall_iff]

/-- `CONSTRUCT`, with its two refusals before the effect. -/
theorem exec_construct {s : State} (hs : idle s) (leds : Word) (cap : Cap) (mode : Mode) :
    exec (.construct leds cap mode) s =
      if 0 < leds.toNat ∧ 4 < segments (leds.toNat * (if cap = .three then 24 else 32)) (this s).par then
        .refused .tooManyDescriptors
      else if chTypesOk cap (this s).par.chtypeInit = true then
        .next { setThis s (constructInst leds.toNat cap mode s.freeNo (this s)) with freeNo := s.freeNo + 5 }
      else .refused .badChannelTypes := by
  rw [exec, execConstruct, asCall_idle hs, depthOf_eq]
  cases chTypesOk cap (this s).par.chtypeInit <;> rfl

/-- The second pointer of a constructed instance (R240, R62). -/
theorem constructInst_inactivePtr (leds : Nat) (cap : Cap) (mode : Mode) (k : Nat) (x : Inst) :
    (constructInst leds cap mode k x).inactivePtr
      = if mode = .double then x.par.base0 + BitVec.ofNat 32 (4 * (leds * (if cap = .three then 24 else 32)))
        else x.par.base0 := by
  rw [← depthOf_eq]
  exact base1_eq _

/-- Settles O46: the two refusals, in their order, and the constructed instance. -/
theorem constructResult : Obligations.ConstructResult := by
  refine fun s leds cap mode hs => ⟨fun hleds hmany => ?_, fun hfew hcap hfour => ?_, fun hfew htypes => ?_⟩ <;>
    rw [exec_construct hs]
  · exact if_pos ⟨hleds, hmany⟩
  · exact (if_neg hfew).trans (if_neg fun hok => chTypesOk_iff.1 hok ⟨hcap, hfour⟩)
  · rw [← constructInst_inactivePtr leds.toNat cap mode s.freeNo]
    exact ⟨_, _, _, _, _, _, (if_neg hfew).trans (if_pos (chTypesOk_iff.2 htypes))⟩

/-! The checks of `INITIALIZE` (R241) -/

theorem unitOfByte_eq_some_iff {b : Byte} {u : Fin 2} : unitOfByte b = some u ↔ b.toNat = u.val := by
  unfold unitOfByte
  split
  · simp [Fin.ext_iff]
  · simp only [reduceCtorEq, false_iff]
    omega

/-- A check that fails ends the checks with no unit (R241). -/
theorem initChecks_of_rejected {s : State} {unit : Byte} (h : initRejected s unit) :
    initChecks s s.sel unit = none := by
  cases hv : unitOfByte unit with
  | none => simp [initChecks, hv]
  | some u =>
    have hu := unitOfByte_eq_some_iff.1 hv
    obtain hleds | hunit | hinit | ⟨v, hvu, howner⟩ | ⟨hcount, hclk⟩ := h
    · exact if_pos hleds
    · omega
    · rw [this] at hinit
      simp [initChecks, hv, hinit]
    · obtain rfl : v = u := Fin.ext (hvu.trans hu)
      simp [initChecks, hv, howner]
    · simp [initChecks, hv, hcount, hclk]

/-- What holds where none of the five checks fails (R241). -/
theorem accepted_of_not_initRejected {s : State} {unit : Byte} (h : ¬initRejected s unit) :
    (this s).leds ≠ 0 ∧ (this s).initialized = false
      ∧ (∀ u : Fin 2, u.val = unit.toNat → s.owner[u.val] = none) ∧ (activeCount s = 0 → s.clkgen = .idle) := by
  simp only [initRejected, not_or, not_exists, not_and, not_not, Bool.not_eq_true] at h
  obtain ⟨hleds, -, hinit, howner, hclk⟩ := h
  exact ⟨hleds, hinit, howner, hclk⟩

/-- Where no check fails the unit is the one named (R241). -/
theorem initChecks_of_accepted {s : State} {unit : Byte} {u : Fin 2} (hu : unit.toNat = u.val)
    (h : ¬initRejected s unit) : initChecks s s.sel unit = some u := by
  obtain ⟨hleds, hinit, howner, hclk⟩ := accepted_of_not_initRejected h
  have hgen : ¬(activeCount s = 0 ∧ s.clkgen ≠ .idle) := fun ⟨hcount, hne⟩ => hne (hclk hcount)
  rw [this] at hleds hinit
  simp [initChecks, hleds, unitOfByte_eq_some_iff.2 hu, hinit, howner u hu.symm, hgen]

/-- `INITIALIZE` that fails a check answers `false` (R242). -/
theorem exec_initialise_rejected {s : State} (hs : idle s) {unit : Byte} (p : Pins) (h : initRejected s unit) :
    exec (.initialise unit p) s = .next { s with ret := .bool false } := by
  rw [exec, execInitialise, asCall_idle hs, initChecks_of_rejected h]

/-- `INITIALIZE` that passes its checks is the call of its micro-steps (R243). -/
theorem exec_initialise_accepted {s : State} (hs : idle s) {unit : Byte} {u : Fin 2} (p : Pins)
    (hu : unit.toNat = u.val) (h : ¬initRejected s unit) :
    exec (.initialise unit p) s = callOp (initMicros s u p) s := by
  rw [exec, execInitialise, asCall_idle hs, initChecks_of_accepted hu h]

/-- Settles O47: a check that fails ends the call. -/
theorem initialiseFails : Obligations.InitialiseFails :=
  fun _ _ p hs h => exec_initialise_rejected hs p h

end Sys2Proof.Machine
end

section
/-! SUPPORT. `TEARDOWN` (44_lifecycle.md R246): what its micro-steps leave of the instance, of the registry, and, where
the last active instance goes, of the engines the generator powers (60_exceptions.md R275). -/

namespace Sys2Proof.Machine

open Sys2Proof

/-! The registry's micro-steps (R246 t4, t5) -/

theorem ownsUnit_iff {s : State} {n : Nat} :
    ownsUnit s n = true ↔ ∃ u, (getInst s n).unitNo = some u ∧ s.owner[u.val] = some n := by
  rw [ownsUnit]
  cases (getInst s n).unitNo <;> simp

/-- The only active instance powers the generator down (R246 t4). -/
theorem runMicro_clkPowerDown_last {s : State} {n : Nat} (hown : ownsUnit s n = true) (hlast : activeCount s = 1) :
    runMicro n .clkPowerDown s = .done (powerDown s) :=
  if_pos (by simp [hown, hlast])

/-- An instance that owns no unit, or that is not the only active one, leaves the generator as it is (R246 t4). -/
theorem runMicro_clkPowerDown_kept {s : State} {n : Nat} (h : ¬(ownsUnit s n = true ∧ activeCount s = 1)) :
    runMicro n .clkPowerDown s = .done s :=
  if_neg (by simpa using h)

theorem runMicro_unclaim_owner {s : State} {n : Nat} {u : Fin 2} (hu : (getInst s n).unitNo = some u)
    (ho : s.owner[u.val] = some n) : runMicro n .unclaim s = .done (setOwner s u none) := by
  have hown : ownsUnit s n = true := ownsUnit_iff.2 ⟨u, hu, ho⟩
  simp [runMicro, microUnclaim, hu, hown]

theorem runMicro_unclaim_stranger {s : State} {n : Nat} (h : ownsUnit s n = false) :
    runMicro n .unclaim s = .done s := by
  rw [runMicro, microUnclaim, h]
  cases (getInst s n).unitNo <;> rfl

/-! What a power-down leaves (R275) -/

theorem losePower_engineLost (k : Nat) (x : Inst) : EngineLost x (losePower k x) := rfl

theorem lt_length_setInstAt (l : List Inst) (n : Nat) (x : Inst) : n < (setInstAt l n x).length := by
  induction n generalizing l with
  | zero => cases l <;> exact Nat.succ_pos _
  | succ n ih => cases l <;> exact Nat.succ_lt_succ (ih _)

/-- An instance that has been written is listed, and so loses its engine at a power-down. -/
theorem getInst_powerDown_setInst (s : State) (n : Nat) (x : Inst) :
    ∃ k, getInst (powerDown (setInst s n x)) n = losePower k x := by
  obtain ⟨k, hk⟩ | ⟨hlen, -⟩ := getInst_powerDown (setInst s n x) n
  · exact ⟨k, by rw [hk, getInst_setInst_same]⟩
  · exact absurd (lt_length_setInstAt s.insts n x) (Nat.not_lt.2 hlen)

/-- Any other instance loses its engine, or is not listed and stays as it is. -/
theorem getInst_powerDown_setInst_other (s : State) {n m : Nat} (x : Inst) (h : m ≠ n) :
    EngineLost (getInst s m) (getInst (powerDown (setInst s n x)) m)
      ∨ getInst (powerDown (setInst s n x)) m = getInst s m := by
  obtain ⟨k, hk⟩ | ⟨-, hk⟩ := getInst_powerDown (setInst s n x) m <;> rw [hk, getInst_setInst_other s x h]
  · exact .inl (losePower_engineLost k _)
  · exact .inr rfl

/-! The operation (R246) -/

theorem setInst_setOwner (s : State) (u : Fin 2) (v : Option Nat) (n : Nat) (x : Inst) :
    setInst (setOwner s u v) n x = setOwner (setInst s n x) u v := rfl

/-- The instance after t1 to t3: chain, interrupt and engine off. -/
def switchedOff (x : Inst) : Inst :=
  { x with run := false, irqAttached := false, en := false }

/-- The instance after t6: without unit, not initialised. -/
def released (x : Inst) : Inst :=
  { x with unitNo := none, initialized := false }

/-- What `TEARDOWN` does after t1 to t3 (R246). -/
theorem exec_teardown {s : State} (hs : idleWhole s) : exec .teardown s
    = runCall [(s.sel, .clkPowerDown), (s.sel, .unclaim), (s.sel, .clearInit)]
        (setThis s (switchedOff (this s))) :=
  calc exec .teardown s
    _ = runCall (micros s.sel teardownMicros) s := callOp_whole hs _
    _ = runCall (micros s.sel [.detach, .pteDisable, .pinsRelease, .clkPowerDown, .unclaim, .clearInit])
          (setThis s { this s with run := false }) :=
      runCall_onInst (g := fun x => { x with run := false }) rfl
    _ = runCall (micros s.sel [.pteDisable, .pinsRelease, .clkPowerDown, .unclaim, .clearInit])
          (setThis s { this s with run := false, irqAttached := false }) :=
      runCall_onInst_setInst (g := fun x => { x with irqAttached := false }) rfl
    _ = runCall (micros s.sel [.pinsRelease, .clkPowerDown, .unclaim, .clearInit])
          (setThis s (switchedOff (this s))) :=
      runCall_onInst_setInst (g := disableEngine) rfl
    _ = runCall [(s.sel, .clkPowerDown), (s.sel, .unclaim), (s.sel, .clearInit)]
          (setThis s (switchedOff (this s))) := rfl

/-- The end of an operation begun with nothing in progress. -/
theorem runCall_nil_of_call {s : State} (h : s.call = []) : runCall [] s = .next s := by
  cases s
  cases h
  rfl

/-- t4 and t5, done one after the other, and then t6. -/
theorem runCall_release {n : Nat} {s t u : State} (hpower : runMicro n .clkPowerDown s = .done t)
    (hclaim : runMicro n .unclaim t = .done u) (hcall : u.call = []) :
    runCall [(n, .clkPowerDown), (n, .unclaim), (n, .clearInit)] s = .next (setInst u n (released (getInst u n))) :=
  calc runCall [(n, .clkPowerDown), (n, .unclaim), (n, .clearInit)] s
    _ = runCall [(n, .unclaim), (n, .clearInit)] t := by rw [runCall, hpower]
    _ = runCall [(n, .clearInit)] u := by rw [runCall, hclaim]
    _ = runCall [] (setInst u n (released (getInst u n))) := runCall_onInst rfl
    _ = .next (setInst u n (released (getInst u n))) := runCall_nil_of_call hcall

/-- t1 to t3 leave the instance its claim. -/
theorem ownsUnit_switchedOff (s : State) :
    ownsUnit (setThis s (switchedOff (this s))) s.sel = ownsUnit s s.sel := by
  simp only [ownsUnit, setThis, getInst_setInst_same, setInst_owner]
  rfl

/-- An instance that owns its unit, one of several active (R246). -/
theorem exec_teardown_owner {s : State} (hs : idleWhole s) {u : Fin 2} (hu : (this s).unitNo = some u)
    (ho : s.owner[u.val] = some s.sel) (hmany : activeCount s ≠ 1) :
    exec .teardown s = .next (setOwner (setThis s (released (switchedOff (this s)))) u none) := by
  have hpower := runMicro_clkPowerDown_kept (s := setThis s (switchedOff (this s))) (n := s.sel) fun h => hmany h.2
  have hclaim := runMicro_unclaim_owner (s := setThis s (switchedOff (this s))) (n := s.sel)
    (by rw [setThis, getInst_setInst_same]; exact hu) ho
  rw [exec_teardown hs, runCall_release hpower hclaim hs.1.1, getInst_setOwner, setThis, getInst_setInst_same,
    setInst_setOwner, setInst_setInst]
  rfl

/-- An instance that does not own its unit, or has none (R246). -/
theorem exec_teardown_stranger {s : State} (hs : idleWhole s) (h : ownsUnit s s.sel = false) :
    exec .teardown s = .next (setThis s (released (switchedOff (this s)))) := by
  have hown := (ownsUnit_switchedOff s).trans h
  have hpower := runMicro_clkPowerDown_kept (s := setThis s (switchedOff (this s))) (n := s.sel) (by simp [hown])
  rw [exec_teardown hs, runCall_release hpower (runMicro_unclaim_stranger hown) hs.1.1, setThis,
    getInst_setInst_same, setInst_setInst]
  rfl

/-- The only active instance: the generator powered down between t3 and t5 (R246 t4, R275). -/
theorem exec_teardown_last {s : State} (hs : idleWhole s) {u : Fin 2} (hu : (this s).unitNo = some u)
    (ho : s.owner[u.val] = some s.sel) (hlast : activeCount s = 1) : ∃ k,
    exec .teardown s = .next (setOwner (setInst (powerDown (setThis s (switchedOff (this s)))) s.sel
      (released (losePower k (switchedOff (this s))))) u none) := by
  have hpower := runMicro_clkPowerDown_last ((ownsUnit_switchedOff s).trans (ownsUnit_iff.2 ⟨u, hu, ho⟩)) hlast
  obtain ⟨k, hk⟩ := getInst_powerDown_setInst s s.sel (switchedOff (this s))
  have hclaim := runMicro_unclaim_owner (s := powerDown (setThis s (switchedOff (this s)))) (n := s.sel)
    (by rw [setThis, hk]; exact hu) ho
  exact ⟨k, by
    rw [exec_teardown hs, runCall_release hpower hclaim hs.1.1, getInst_setOwner, setThis, hk, setInst_setOwner]⟩

/-- t1 alone, with the rest left (R246, R15 (a)). -/
theorem exec_teardown_micro {s : State} (hs : idle s) (hg : s.grain = .micro) :
    exec .teardown s
      = .next { setThis s { this s with run := false } with
          call := micros s.sel [.detach, .pteDisable, .pinsRelease, .clkPowerDown, .unclaim, .clearInit] } := by
  rw [exec, execTeardown, callOp, asCall_idle hs, hg]
  rfl

/-- Settles O50: the first micro-step, and the whole by who owns the unit and who else is active. -/
theorem teardownResult : Obligations.TeardownResult := by
  refine fun s hs => ⟨exec_teardown_micro hs, fun u hg hu ho hmany => exec_teardown_owner ⟨hs, hg⟩ hu ho hmany,
    fun u hg hu ho hlast => ?_, fun hg h => exec_teardown_stranger ⟨hs, hg⟩ ?_⟩
  · obtain ⟨k, hk⟩ := exec_teardown_last ⟨hs, hg⟩ hu ho hlast
    have hthis := getInst_setInst_same (powerDown (setThis s (switchedOff (this s)))) s.sel
      (released (losePower k (switchedOff (this s))))
    refine ⟨_, hk, rfl, (congrArg (EngineLost (released (switchedOff (this s)))) hthis).mpr rfl, fun n hn => ?_⟩
    · rw [getInst_setOwner, getInst_setInst_other _ _ hn]
      exact getInst_powerDown_setInst_other s _ hn
  · rw [← Bool.not_eq_true, ownsUnit_iff]
    exact fun ⟨u, hu, ho⟩ => h u hu ho

end Sys2Proof.Machine
end

section
/-! SUPPORT. `INITIALIZE` once its checks pass (44_lifecycle.md R243, R244): what each part of its micro-steps makes of
the instance, the zeroed buffer said of every address (20_memory.md R76), the success and the wait for lock. -/

namespace Sys2Proof.Machine

open Sys2Proof

/-! Zeroing the buffer (R76, R243 i2) -/

/-- A flush of the whole buffer covers its words, where it begins on a word (R61, R72). -/
theorem covers_eq_isFrameWord {x : Inst} (hbase : x.par.base0.toNat % 4 = 0) (a : Nat) :
    covers x.par.base0.toNat (bufBytes x) a = isFrameWord x a := by
  rw [Bool.eq_iff_iff, covers_iff]
  simp only [isFrameWord, Bool.and_eq_true, decide_eq_true_eq, beq_iff_eq]
  omega

/-- Zeroing words of the buffer, in the CPU view. -/
theorem hostRead_zeroWords (base n k : Nat) (b : Buffer) (a : Nat) : hostRead (zeroWords base n k b) a
    = if base + 4 * k ≤ a ∧ a < base + 4 * (k + n) ∧ (a - base) % 4 = 0 then 0 else hostRead b a := by
  induction n generalizing k b with
  | zero => exact (if_neg (by omega)).symm
  | succ n ih =>
    rw [zeroWords, ih, hostRead_hostWrite]
    by_cases ha : a = base + 4 * k
    · rw [if_pos ha, ite_self, if_pos (by omega)]
    · rw [if_neg ha]
      exact if_congr (by omega) rfl rfl

/-- Zeroing words of the buffer does not reach the DMA view. -/
theorem dmaRead_zeroWords (base n k : Nat) (b : Buffer) (a : Nat) :
    dmaRead (zeroWords base n k b) a = dmaRead b a := by
  induction n generalizing k b with
  | zero => rfl
  | succ n ih => rw [zeroWords, ih, dmaRead_hostWrite]

/-- Zeroing words of the buffer makes them dirty, and no other. -/
theorem mem_dirty_zeroWords (base n k : Nat) (b : Buffer) (a : Nat) : a ∈ (zeroWords base n k b).dirty
    ↔ (base + 4 * k ≤ a ∧ a < base + 4 * (k + n) ∧ (a - base) % 4 = 0) ∨ a ∈ b.dirty := by
  induction n generalizing k b with
  | zero => exact (or_iff_right (by omega)).symm
  | succ n ih =>
    rw [zeroWords, ih, mem_dirty_hostWrite, ← or_assoc]
    exact or_congr_left (by omega)

/-- The frame-buffer words, as the words `INITIALIZE` zeroes from word 0 on (R61). -/
theorem isFrameWord_iff {x : Inst} {a : Nat} : isFrameWord x a = true
    ↔ x.par.base0.toNat + 4 * 0 ≤ a ∧ a < x.par.base0.toNat + 4 * (0 + bufWords x)
      ∧ (a - x.par.base0.toNat) % 4 = 0 := by
  simp only [isFrameWord, Bool.and_eq_true, decide_eq_true_eq, beq_iff_eq, and_assoc]
  rw [bufBytes]
  omega

/-- A frame-buffer word is zero in both views and clean (R76). -/
theorem zeroAndFlush_frameWord {x : Inst} (hbase : x.par.base0.toNat % 4 = 0) {a : Nat}
    (h : isFrameWord x a = true) : hostRead (zeroAndFlush x).buf a = 0 ∧ dmaRead (zeroAndFlush x).buf a = 0
      ∧ a ∉ (zeroAndFlush x).buf.dirty := by
  obtain ⟨hhost, hdma, hdirty⟩ :=
    flushBuf_spec (zeroWords x.par.base0.toNat (bufWords x) 0 x.buf) x.par.base0.toNat (bufBytes x) a
  have hword := isFrameWord_iff.1 h
  rw [hostRead_zeroWords, if_pos hword] at hhost
  rw [covers_eq_isFrameWord hbase, h, if_pos ⟨(mem_dirty_zeroWords _ _ _ _ _).2 (.inl hword), rfl⟩, hostRead_zeroWords,
    if_pos hword] at hdma
  rw [covers_eq_isFrameWord hbase, h] at hdirty
  exact ⟨hhost, hdma, fun ha => nomatch (hdirty.1 ha).2⟩

/-- Every other word is as before (R76). -/
theorem zeroAndFlush_other {x : Inst} (hbase : x.par.base0.toNat % 4 = 0) {a : Nat}
    (h : isFrameWord x a = false) : hostRead (zeroAndFlush x).buf a = hostRead x.buf a
      ∧ dmaRead (zeroAndFlush x).buf a = dmaRead x.buf a ∧ (a ∈ (zeroAndFlush x).buf.dirty ↔ a ∈ x.buf.dirty) := by
  obtain ⟨hhost, hdma, hdirty⟩ :=
    flushBuf_spec (zeroWords x.par.base0.toNat (bufWords x) 0 x.buf) x.par.base0.toNat (bufBytes x) a
  have hword := mt isFrameWord_iff.2 (Bool.eq_false_iff.1 h)
  rw [hostRead_zeroWords, if_neg hword] at hhost
  rw [covers_eq_isFrameWord hbase, h, dmaRead_zeroWords, if_neg (by simp)] at hdma
  rw [covers_eq_isFrameWord hbase, h, mem_dirty_zeroWords, or_iff_right hword, and_iff_left rfl] at hdirty
  exact ⟨hhost, hdma, hdirty⟩

/-! i1 to i4: the claim, and the generator (R243, R244) -/

theorem micros_append (n : Nat) (l k : List Micro) : micros n (l ++ k) = micros n l ++ micros n k :=
  List.map_append

/-- The micro-step i4 of `INITIALIZE`, by whether another instance is active (R243). -/
def powerMicros (s : State) : List Micro :=
  if activeCount s = 0 then [.clkPowerUp] else []

/-- The micro-step i7 of `INITIALIZE`, by mode (R243). -/
def launchMicros (x : Inst) : List Micro :=
  if x.mode = .paced then [] else [.tdcStart]

/-- The micro-steps i5 to i8 of `INITIALIZE` (R243). -/
def bringUpMicros (x : Inst) : List Micro :=
  [.pteEnable x.par.shiftDiv x.par.latchDiv] ++ buildMicros ++ launchMicros x ++ [.initDone]

theorem initMicros_eq (s : State) (u : Fin 2) (p : Pins) :
    initMicros s u p = [.claim u, .zeroFlush, .pinsConfigure p] ++ (powerMicros s ++ bringUpMicros (this s)) := by
  simp only [initMicros, powerMicros, bringUpMicros, launchMicros, List.append_assoc]

/-- The instance after i1 to i3: the unit claimed, the buffer zeroed (R243). -/
def claimed (u : Fin 2) (x : Inst) : Inst :=
  zeroAndFlush { x with unitNo := some u }

/-- What `INITIALIZE` does after i1 to i3 (R243). -/
theorem exec_initialise_claims {s : State} (hs : idleWhole s) {unit : Byte} {u : Fin 2} (p : Pins)
    (hu : unit.toNat = u.val) (h : ¬initRejected s unit) : exec (.initialise unit p) s
      = runCall (micros s.sel (powerMicros s) ++ micros s.sel (bringUpMicros (this s)))
          (setThis (setOwner s u (some s.sel)) (claimed u (this s))) := by
  generalize hl : micros s.sel (powerMicros s) ++ micros s.sel (bringUpMicros (this s)) = l
  calc exec (.initialise unit p) s
    _ = runCall (micros s.sel (initMicros s u p)) s :=
      (exec_initialise_accepted hs.1 p hu h).trans (callOp_whole hs _)
    _ = runCall ((s.sel, .claim u) :: (s.sel, .zeroFlush) :: (s.sel, .pinsConfigure p) :: l) s := by
      rw [initMicros_eq, micros_append, micros_append, hl]
      rfl
    _ = runCall ((s.sel, .zeroFlush) :: (s.sel, .pinsConfigure p) :: l)
          (setInst (setOwner s u (some s.sel)) s.sel { this s with unitNo := some u }) := rfl
    _ = runCall ((s.sel, .pinsConfigure p) :: l)
          (setInst (setOwner s u (some s.sel)) s.sel (claimed u (this s))) :=
      runCall_onInst_setInst (g := zeroAndFlush) rfl
    _ = runCall l (setThis (setOwner s u (some s.sel)) (claimed u (this s))) := rfl

theorem runMicro_clkPowerUp_waits {s : State} (h : s.lockLine = false) (n : Nat) :
    runMicro n .clkPowerUp s = .waits :=
  if_neg (by simp [h])

theorem runMicro_clkPowerUp_locks {s : State} (h : s.lockLine = true) (n : Nat) :
    runMicro n .clkPowerUp s = .done { s with clkgen := .locked } :=
  if_pos h

/-- A turn of `CALL` whose micro-step is done (R15 (a)). -/
theorem callNext_of_done {s t : State} {n : Nat} {m : Micro} {l : List (Nat × Micro)} (hirq : s.irq = [])
    (hcall : s.call = (n, m) :: l) (hm : runMicro n m s = .done t) : callNext s = .next { t with call := l } := by
  have hout : ¬inHandler s = true := fun hn => inHandler_iff.1 hn hirq
  rw [callNext, if_neg hout, hcall, stepCall, hm]

/-- With no lock reported a first instance is left at the wait, with what follows it (R244). -/
theorem exec_initialise_waits {s : State} (hs : idleWhole s) {unit : Byte} {u : Fin 2} (p : Pins)
    (hu : unit.toNat = u.val) (h : ¬initRejected s unit) (hfirst : activeCount s = 0) (hlock : s.lockLine = false) :
    exec (.initialise unit p) s
      = .next { setThis (setOwner s u (some s.sel)) (claimed u (this s)) with
          call := (s.sel, .clkPowerUp) :: micros s.sel (bringUpMicros (this s)) } := by
  have hwait := runMicro_clkPowerUp_waits (s := setThis (setOwner s u (some s.sel)) (claimed u (this s))) hlock s.sel
  have hpower : micros s.sel (powerMicros s) = [(s.sel, .clkPowerUp)] := by rw [powerMicros, if_pos hfirst]; rfl
  rw [exec_initialise_claims hs p hu h, hpower, List.singleton_append, runCall, hwait]

/-- Settles O49: the first three micro-steps are done and the fourth waits; a turn of `CALL` there polls the report. -/
theorem initialiseWaitsForLock : Obligations.InitialiseWaitsForLock := by
  refine ⟨fun s unit p u hs hu h hfirst hlock => ?_, fun t n l hirq hcall => ⟨fun hlock => ?_, fun hlock => ?_⟩⟩
  · obtain ⟨-, hinit, -, hclk⟩ := accepted_of_not_initRejected h
    have hthis := getInst_setInst_same (setOwner s u (some s.sel)) s.sel (claimed u (this s))
    exact ⟨_, _, exec_initialise_waits hs p hu h hfirst hlock, rfl, hclk hfirst, Vector.getElem_set_self _,
      (congrArg Inst.initialized hthis).trans hinit, (congrArg Inst.en hthis).trans rfl⟩
  · exact callNext_of_waits hirq hcall (runMicro_clkPowerUp_waits hlock n)
  · exact callNext_of_done hirq hcall (runMicro_clkPowerUp_locks hlock n)

/-! i5 to i8: the engine, the table, the chain (R243) -/

/-- The instance after i5 and i6: the engine enabled, the table built, the interrupt attached (R123, R152). -/
def builtUp (x : Inst) : Inst :=
  { buildRecords allIndices (enableEngine x.par.shiftDiv x.par.latchDiv x) with irqAttached := true }

/-- Entry `i` of the table, by its place. -/
theorem desc_eq_descAt (x : Inst) (i : Fin 8) : x.desc[i.val] = descAt x (BitVec.ofNat 3 i.val) := by
  fin_cases i <;> rfl

/-- Enabling and building change the engine, the table and the attached flag, and the table is that of R156. -/
theorem builtUp_eq (x : Inst) : ∃ d : Vector Entry 8,
    builtUp x = { enableEngine x.par.shiftDiv x.par.latchDiv x with desc := d, irqAttached := true }
      ∧ ∀ i : Fin 8, d[i.val] = ⟨true, builtRecord x x.activePtr (BitVec.ofNat 3 i.val)⟩ := by
  obtain ⟨d, hd⟩ := buildRecords_frame allIndices (enableEngine x.par.shiftDiv x.par.latchDiv x)
  have hbuilt : IsBuilt { x with desc := d } := fun i => by
    have hentry := isBuilt_buildRecords (enableEngine x.par.shiftDiv x.par.latchDiv x) i
    rw [hd] at hentry
    exact hentry
  exact ⟨d, by rw [builtUp, hd], fun i => (desc_eq_descAt { x with desc := d } i).trans (hbuilt _)⟩

theorem runMicro_pteEnable {sd ld : BitVec 16} (h : divisorsOk sd ld = true) (n : Nat) (s : State) :
    runMicro n (.pteEnable sd ld) s = onInst s n (enableEngine sd ld) :=
  if_pos h

/-- The built chain passes its check where the constant words hold their constants (R97). -/
theorem chainOk_buildRecords {x : Inst} (hb : buildable x) (hzero : x.zeroWord = ZERO) (hones : x.onesWord = ONES) :
    chainOk (buildRecords allIndices x) = true := by
  have hbuilt := isBuilt_buildRecords x
  obtain ⟨d, hd⟩ := buildRecords_frame allIndices x
  rw [hd] at hbuilt ⊢
  rw [hbuilt.chainOk_eq hb]
  exact constantsOk_iff.2 ⟨hzero, hones⟩

/-- `TDC_BUILD` among the micro-steps of an operation, on a stopped channel with good parameters (R152). -/
theorem runCall_build (t : State) (n : Nat) {x : Inst} (l : List (Nat × Micro)) (hb : buildable x)
    (hzero : x.zeroWord = ZERO) (hones : x.onesWord = ONES) :
    runCall (micros n buildMicros ++ l) (setInst t n x)
      = runCall l (setInst t n { buildRecords allIndices x with irqAttached := true }) := by
  obtain ⟨hrun, haddr, -⟩ := id hb
  have hmicros : micros n buildMicros ++ l = micros n (allIndices.map .buildRecord) ++ (n, .buildEnd) :: l := rfl
  have hend := runMicro_buildEnd (n := n) (s := setInst t n (buildRecords allIndices x))
    (by rw [getInst_setInst_same]; exact chainOk_buildRecords hb hzero hones)
  rw [hmicros, runCall_buildRecords allIndices _ t hrun haddr]
  exact runCall_onInst_setInst hend

/-- `TDC_START` among the micro-steps of an operation, on a stopped channel that can be started (R172). -/
theorem runCall_tdcStart {t : State} {n : Nat} {x y : Inst} (l : List (Nat × Micro)) (hrun : x.run = false)
    (h : startChain x = .ok y) : runCall ((n, .tdcStart) :: l) (setInst t n x) = runCall l (setInst t n y) := by
  refine runCall_onInst_setInst (g := fun _ => y) ?_
  rw [runMicro_tdcStart_stopped (by rw [getInst_setInst_same]; exact hrun), onInstE, getInst_setInst_same, h, onInst]

/-- The instance after i8 (R243). -/
def initialised (x : Inst) : Inst :=
  { x with initialized := true }

/-- i8 ends the call with the answer (R243). -/
theorem runCall_initDone {t : State} (hcall : t.call = []) (n : Nat) (x : Inst) :
    runCall [(n, .initDone)] (setInst t n x) = .next { setInst t n (initialised x) with ret := .bool true } := by
  have hmicro : runMicro n .initDone (setInst t n x)
      = onInst (setInst { t with ret := .bool true } n x) n initialised := rfl
  rw [runCall, hmicro, onInst, getInst_setInst_same, setInst_setInst]
  exact runCall_nil_of_call hcall

/-- The built record 0 can be loaded (R160, R165). -/
theorem loadable_prime {x : Inst} (h : x.par.zeroAddr.toNat % 4 = 0) :
    loadable ⟨true, encodeRecord .prime (primeFields x)⟩ := by
  simp [loadable, primeFields, Fields.reservedBits, h]

/-- i5 and i6, with what follows them (R243). -/
theorem runCall_bringUpMicros (t : State) (n : Nat) {x : Inst}
    (hd : divisorsOk x.par.shiftDiv x.par.latchDiv = true) (hb : buildable x) (hzero : x.zeroWord = ZERO)
    (hones : x.onesWord = ONES) : runCall (micros n (bringUpMicros x)) (setInst t n x)
      = runCall (micros n (launchMicros x) ++ [(n, .initDone)]) (setInst t n (builtUp x)) := by
  have hmicros : micros n (bringUpMicros x) = (n, .pteEnable x.par.shiftDiv x.par.latchDiv) ::
      (micros n buildMicros ++ (micros n (launchMicros x) ++ [(n, .initDone)])) := by
    simp only [bringUpMicros, micros_append, List.append_assoc]
    rfl
  rw [hmicros, runCall_onInst_setInst (runMicro_pteEnable hd n _)]
  exact runCall_build t n (x := enableEngine x.par.shiftDiv x.par.latchDiv x) _ hb hzero hones

/-- The instance at the end of `INITIALIZE`, from the one claimed and zeroed, with the table `d` (R243 i5 to i8). -/
def broughtUp (d : Vector Entry 8) (x : Inst) : Inst :=
  let looping := decide (x.mode ≠ .paced)
  { x with
    en := true, req := true, dbuf := 0, gate := 0, dlatch := 0, glatch := 0, dsec := none
    shiftDiv := x.par.shiftDiv, latchDiv := x.par.latchDiv, mid := false
    desc := d, irqAttached := true, run := looping, initialized := true
    cur := if looping then 0 else x.cur
    w := if looping then d[0].body else x.w
    srcCur := if looping then x.par.zeroAddr else x.srcCur
    cntRem := if looping then 1 else x.cntRem }

/-- In `MODE = PACED` the chain is not started (R243 i7). -/
theorem broughtUp_paced {d : Vector Entry 8} {x : Inst} (hmode : x.mode = .paced) (hrun : x.run = false)
    (hframe : builtUp x = { enableEngine x.par.shiftDiv x.par.latchDiv x with desc := d, irqAttached := true }) :
    broughtUp d x = initialised (builtUp x) := by
  simp [broughtUp, hmode, hframe, initialised, enableEngine, pteReset, hrun]

/-- In the looping modes the chain is started at the built record 0 (R243 i7, R172). -/
theorem startChain_builtUp {d : Vector Entry 8} {x : Inst} (hmode : x.mode ≠ .paced)
    (haddr : addressesOk x = true) (hprime : d[0] = ⟨true, encodeRecord .prime (primeFields x)⟩)
    (hframe : builtUp x = { enableEngine x.par.shiftDiv x.par.latchDiv x with desc := d, irqAttached := true }) :
    ∃ y, startChain (builtUp x) = .ok y ∧ broughtUp d x = initialised y := by
  have hentry : descAt (builtUp x) 0 = ⟨true, encodeRecord .prime (primeFields x)⟩ := by
    rw [hframe]
    exact hprime
  have hload : loadable (descAt (builtUp x) 0) := hentry ▸ loadable_prime (addressesOk_iff.1 haddr).2.2.1
  refine ⟨_, startChain_ok hload, ?_⟩
  rw [hentry, hframe]
  simp [broughtUp, hmode, initialised, enableEngine, pteReset, hprime, primeFields]

/-- i5 to i8 on the instance claimed and zeroed (R243). -/
theorem runCall_bringUp {t : State} (hcall : t.call = []) (n : Nat) {x : Inst}
    (hd : divisorsOk x.par.shiftDiv x.par.latchDiv = true) (hb : buildable x) (hzero : x.zeroWord = ZERO)
    (hones : x.onesWord = ONES) : ∃ d : Vector Entry 8,
      runCall (micros n (bringUpMicros x)) (setInst t n x)
        = .next { setInst t n (broughtUp d x) with ret := .bool true }
      ∧ ∀ i : Fin 8, d[i.val] = ⟨true, builtRecord x x.activePtr (BitVec.ofNat 3 i.val)⟩ := by
  obtain ⟨d, hframe, htable⟩ := builtUp_eq x
  obtain ⟨hrun, haddr, -⟩ := id hb
  refine ⟨d, ?_, htable⟩
  rw [runCall_bringUpMicros t n hd hb hzero hones]
  by_cases hmode : x.mode = .paced
  · rw [launchMicros, if_pos hmode, broughtUp_paced hmode hrun hframe]
    exact runCall_initDone hcall n (builtUp x)
  · obtain ⟨y, hstart, hend⟩ := startChain_builtUp hmode haddr (htable 0) hframe
    rw [launchMicros, if_neg hmode, hend]
    exact (runCall_tdcStart _ (hframe ▸ hrun) hstart).trans (runCall_initDone hcall n y)

/-- The registry and the generator after i1 to i4 (R243, R244). -/
def claimedState (s : State) (u : Fin 2) : State :=
  { s with owner := s.owner.set u.val (some s.sel), clkgen := if activeCount s = 0 then .locked else s.clkgen }

/-- i4, where a first instance finds lock reported (R244). -/
theorem runCall_powerMicros {s : State} (hlock : activeCount s = 0 → s.lockLine = true) (u : Fin 2) (x : Inst)
    (l : List (Nat × Micro)) : runCall (micros s.sel (powerMicros s) ++ l) (setThis (setOwner s u (some s.sel)) x)
      = runCall l (setInst (claimedState s u) s.sel x) := by
  by_cases hfirst : activeCount s = 0
  · have hmicro := runMicro_clkPowerUp_locks (s := setThis (setOwner s u (some s.sel)) x) (hlock hfirst) s.sel
    have hpower : micros s.sel (powerMicros s) = [(s.sel, .clkPowerUp)] := by rw [powerMicros, if_pos hfirst]; rfl
    rw [hpower, List.singleton_append, runCall, hmicro, claimedState, if_pos hfirst]
    rfl
  · rw [powerMicros, if_neg hfirst, claimedState, if_neg hfirst]
    rfl

/-- Settles O48: the micro-steps one after another, and the zeroed buffer at every address. -/
theorem initialiseSucceeds : Obligations.InitialiseSucceeds := by
  intro s unit p u hs hu h hd hb hzero hones hlock
  obtain ⟨-, haddr, -⟩ := id hb
  obtain ⟨-, hbase, -⟩ := addressesOk_iff.1 haddr
  obtain ⟨d, hrun, htable⟩ :=
    runCall_bringUp (t := claimedState s u) (x := claimed u (this s)) hs.1.1 s.sel hd hb hzero hones
  refine ⟨(claimed u (this s)).buf, d, ?_, htable, fun k hk => ?_, fun k hk => ?_⟩
  · rw [exec_initialise_claims hs p hu h, runCall_powerMicros hlock]
    exact hrun
  · exact zeroAndFlush_frameWord (x := { this s with unitNo := some u }) hbase hk
  · exact zeroAndFlush_other (x := { this s with unitNo := some u }) hbase hk

end Sys2Proof.Machine
end

section
/-! SUPPORT. Who writes what (20_memory.md R60): the hardware steps keep every instance's memory and table, the host
operations keep the three registers the sequencer writes, but where the engine is reset or loses its power. -/

namespace Sys2Proof.Machine

open Sys2Proof

/-- `y` has the frame buffer, the constant words and the descriptor table of `x` (R60). -/
def SameMemory (x y : Inst) : Prop :=
  y.buf = x.buf ∧ y.zeroWord = x.zeroWord ∧ y.onesWord = x.onesWord ∧ y.desc = x.desc

/-- `y` has the three DMA-writable registers of `x` (R60, R93). -/
def SameRegisters (x y : Inst) : Prop :=
  y.dbuf = x.dbuf ∧ y.dsec = x.dsec ∧ y.gate = x.gate

/-- Every instance of `t` stands to the same instance of `s` as `R` says. -/
def Each (R : Inst → Inst → Prop) (s t : State) : Prop :=
  ∀ n, R (getInst s n) (getInst t n)

section
variable {R : Inst → Inst → Prop} (hR : ∀ x, R x x)
include hR

theorem each_of_insts {s t : State} (h : t.insts = s.insts) : Each R s t := by
  intro n
  simp only [getInst, h]
  exact hR _

/-- Writing one instance, as `R` says. -/
theorem each_setInst {s : State} {n : Nat} {x : Inst} (h : R (getInst s n) x) : Each R s (setInst s n x) := by
  intro k
  by_cases hk : k = n
  · subst hk
    rwa [getInst_setInst_same]
  · rw [getInst_setInst_other _ _ hk]
    exact hR _

end

theorem SameMemory.refl (x : Inst) : SameMemory x x := ⟨rfl, rfl, rfl, rfl⟩

theorem SameRegisters.refl (x : Inst) : SameRegisters x x := ⟨rfl, rfl, rfl⟩

theorem SameRegisters.trans {x y z : Inst} (h : SameRegisters x y) (k : SameRegisters y z) : SameRegisters x z :=
  ⟨k.1.trans h.1, k.2.1.trans h.2.1, k.2.2.trans h.2.2⟩

/-! The hardware -/

/-- What the sequencer may write is no memory and no record (R60). -/
theorem SequencerOnly.sameMemory {x y : Inst} (h : SequencerOnly x y) : SameMemory x y := by
  rw [h]
  exact ⟨rfl, rfl, rfl, rfl⟩

theorem unitStep_sameMemory {s t : State} {k : Kind} {check : Inst → Option Fault} {effect : Inst → Inst} {f : Fields}
    (h : unitStep s (transfer k check effect f) = .next t) (he : ∀ x, SequencerOnly x (effect x)) :
    Each SameMemory s t := by
  rcases unitStep_next h with ⟨-, rfl⟩ | ⟨-, x, hx, rfl⟩
  · exact each_of_insts .refl rfl
  · exact each_setInst .refl (transfer_frame (he _) hx).sameMemory

/-- A hardware step writes no memory and no record (R60). -/
theorem exec_hardware_sameMemory {i : Instr} (hi : isHardwareStep i = true) {s t : State} (h : exec i s = .next t) :
    Each SameMemory s t := by
  cases i with
  | prime f => exact unitStep_sameMemory h .refl
  | gateHi f => exact unitStep_sameMemory h .refl
  | data f => exact unitStep_sameMemory h .refl
  | close f => exact unitStep_sameMemory h fun _ => rfl
  | gap f => exact unitStep_sameMemory h .refl
  | latch =>
    intro n
    obtain ⟨-, hn⟩ | hn := exec_latch_inst h n <;> rw [hn]
    · exact ⟨rfl, rfl, rfl, rfl⟩
    · exact .refl _
  | service =>
    simp only [exec, execService] at h
    split at h
    · obtain ⟨x, hx, rfl⟩ := hardware_next h
      exact each_setInst .refl (serviceInst_frame hx).sameMemory
    · cases h
      exact each_of_insts .refl rfl
  | _ => cases hi

/-! The host -/

/-- The micro-steps that write a register of the engine: its reset, and the power-down of its generator (R123, R275). -/
def writesEngine : Micro → Bool
  | .pteEnable _ _ => true
  | .clkPowerDown => true
  | _ => false

theorem startChain_sameRegisters {x y : Inst} (h : startChain x = .ok y) : SameRegisters x y := by
  unfold startChain at h
  split at h
  · cases h
  · rename_i hl
    cases h
    obtain ⟨-, rfl⟩ := (load_eq_ok _ _ _).1 hl
    exact ⟨rfl, rfl, rfl⟩

/-- Every other micro-step keeps the three registers of every instance (R60). -/
theorem runMicro_sameRegisters {n : Nat} {m : Micro} {s t : State} (h : runMicro n m s = .done t)
    (hm : writesEngine m = false) : Each SameRegisters s t := by
  cases m with
  | pteEnable sd ld => cases hm
  | clkPowerDown => cases hm
  | buildRecord i =>
    simp only [runMicro, microBuildRecord] at h
    split at h
    · cases h
    · split at h <;> cases h
      exact each_setInst .refl ⟨rfl, rfl, rfl⟩
  | buildEnd =>
    simp only [runMicro, microBuildEnd] at h
    split at h <;> cases h
    exact each_setInst .refl ⟨rfl, rfl, rfl⟩
  | tdcStart =>
    simp only [runMicro, microTdcStart, onInstE] at h
    split at h
    · cases h
    · split at h <;> cases h
      exact each_setInst .refl (startChain_sameRegisters ‹_›)
  | spinStopped =>
    simp only [runMicro] at h
    split at h <;> cases h
    exact each_of_insts .refl rfl
  | clkPowerUp =>
    simp only [runMicro, microClkPowerUp] at h
    split at h <;> cases h
    exact each_of_insts .refl rfl
  | unclaim =>
    simp only [runMicro, microUnclaim] at h
    split at h
    · cases h
      exact each_of_insts .refl rfl
    · split at h <;> cases h <;> exact each_of_insts .refl rfl
  | pinsConfigure p => cases h; exact each_of_insts .refl rfl
  | pinsRelease => cases h; exact each_of_insts .refl rfl
  | _ => cases h; exact each_setInst .refl ⟨rfl, rfl, rfl⟩

theorem MicroRun.sameRegisters {l : List (Nat × Micro)} {s t : State} (h : MicroRun l s t)
    (hl : ∀ e ∈ l, writesEngine e.2 = false) : Each SameRegisters s t := by
  induction h with
  | rest h => exact each_of_insts .refl h
  | micro h _ ih =>
    obtain ⟨hm, hl⟩ := List.forall_mem_cons.1 hl
    exact fun n => (runMicro_sameRegisters h hm n).trans (ih hl n)

/-- A host operation whose micro-steps leave the engine alone (R60). -/
theorem callOp_sameRegisters {l : List Micro} {s t : State} (h : callOp l s = .next t)
    (hl : l.any writesEngine = false) : Each SameRegisters s t :=
  (callOp_microRun h).sameRegisters (List.forall_mem_map.2 (by simpa using hl))

/-- A colour write leaves the engine alone (R60, R225). -/
theorem accessorOp_setColor_sameRegisters {buf : Word} {ch : Byte} {idx col : Word} {s t : State}
    (h : accessorOp (setColorMicros (this s) buf ch idx col) s = .next t) : Each SameRegisters s t := by
  obtain ⟨l, c, hl⟩ := setColorMicros_eq_map (this s) buf ch idx col
  rw [hl] at h
  exact (accessorOp_microRun h).sameRegisters (List.forall_mem_map.2 (List.forall_mem_map.2 fun _ _ => rfl))

theorem flipMicros_writesEngine (x : Inst) : (flipMicros x).any writesEngine = false := by
  unfold flipMicros
  cases x.mode <;> rfl

/-- A host operation of call context that answers a next state found nothing in progress (R15 (b), (d)). -/
theorem idle_of_exec_next {i : Instr} (hi : isHostCall i = true) (ha : isAccessor i = false) {s t : State}
    (h : exec i s = .next t) : idle s := by
  have hirq : s.irq = [] := by
    by_contra hirq
    rw [exec_heldByHandler hi ha hirq] at h
    cases h
  have hcall : s.call = [] := by
    by_contra hcall
    rw [exec_callerBusy hi hirq hcall] at h
    cases h
  exact ⟨hcall, hirq⟩

theorem powersDown_iff {s : State} : PowersDown s ↔ ownsUnit s s.sel = true ∧ activeCount s = 1 := by
  rw [ownsUnit_iff, and_comm]
  rfl

/-- A `TEARDOWN` that does not power the generator down (R246). -/
theorem exec_teardown_sameRegisters {s t : State} (h : exec .teardown s = .next t) (hp : ¬PowersDown s) :
    Each SameRegisters s t := by
  have hs : idle s := idle_of_exec_next rfl rfl h
  cases hg : s.grain with
  | micro =>
    rw [exec_teardown_micro hs hg] at h
    cases h
    exact each_setInst (s := s) .refl ⟨rfl, rfl, rfl⟩
  | whole =>
    cases hown : ownsUnit s s.sel with
    | false =>
      rw [exec_teardown_stranger ⟨hs, hg⟩ hown] at h
      cases h
      exact each_setInst .refl ⟨rfl, rfl, rfl⟩
    | true =>
      obtain ⟨u, hu, ho⟩ := ownsUnit_iff.1 hown
      rw [exec_teardown_owner ⟨hs, hg⟩ hu ho fun hlast => hp (powersDown_iff.2 ⟨hown, hlast⟩)] at h
      cases h
      exact each_setInst (s := s) .refl ⟨rfl, rfl, rfl⟩

/-- No other host operation than these writes the three registers (R60). -/
theorem exec_host_sameRegisters {i : Instr} (hi : isHostCall i = true) (henable : ∀ sd ld, i ≠ .pteEnable sd ld)
    (hinit : ∀ u p, i ≠ .initialise u p) {s t : State} (hp : i = .teardown → ¬PowersDown s)
    (h : exec i s = .next t) : Each SameRegisters s t := by
  cases i with
  | pteEnable sd ld => exact absurd rfl (henable sd ld)
  | initialise u p => exact absurd rfl (hinit u p)
  | teardown => exact exec_teardown_sameRegisters h (hp rfl)
  | pteDisable => exact callOp_sameRegisters h rfl
  | tdcBuild => exact callOp_sameRegisters h rfl
  | tdcStart => exact callOp_sameRegisters h rfl
  | tdcDisable => exact callOp_sameRegisters h rfl
  | flush addr len => exact callOp_sameRegisters h rfl
  | requestSwap =>
    simp only [exec, execRequestSwap] at h
    obtain ⟨-, -, h⟩ := asCall_next h
    split at h
    · exact callOp_sameRegisters h rfl
    all_goals cases h
  | bufferReady =>
    rw [exec_bufferReady (idle_of_exec_next rfl rfl h)] at h
    cases h
    exact each_of_insts .refl rfl
  | flipBuffers => exact callOp_sameRegisters h (flipMicros_writesEngine _)
  | flushBuffer => exact callOp_sameRegisters h (flipMicros_writesEngine _)
  | setChannelType ch ty =>
    simp only [exec, execSetChannelType] at h
    obtain ⟨-, -, h⟩ := asCall_next h
    split at h <;> cases h
    · exact each_of_insts .refl rfl
    · exact each_setInst .refl ⟨rfl, rfl, rfl⟩
  | setActiveColor ch idx col => exact accessorOp_setColor_sameRegisters h
  | setInactiveColor ch idx col => exact accessorOp_setColor_sameRegisters h
  | getActiveColor ch idx => cases asAccessor_next h; exact each_of_insts .refl rfl
  | getInactiveColor ch idx => cases asAccessor_next h; exact each_of_insts .refl rfl
  | construct leds cap mode =>
    rw [exec_construct (idle_of_exec_next rfl rfl h)] at h
    split_ifs at h <;> cases h <;> exact each_setInst (s := s) .refl ⟨rfl, rfl, rfl⟩
  | _ => cases hi

/-- Settles O34: the hardware by the frame of the sequencer, the host by its micro-steps. -/
theorem hardwareNeverWritesMemory : Obligations.HardwareNeverWritesMemory :=
  fun _ _ _ h n => ⟨fun hi => exec_hardware_sameMemory hi h n,
    fun hi henable hinit hp => exec_host_sameRegisters hi henable hinit hp h n⟩

end Sys2Proof.Machine
end

section
/-! SUPPORT. Instances are separate (10_state.md R44): which instance an operation's micro-steps can change, for the host
operations, the handler (60_exceptions.md R264), and the `TEARDOWN` that powers the generator down (R275). -/

namespace Sys2Proof.Machine

open Sys2Proof

/-- Every instance but `k` is as before (R44). -/
def OthersKept (k : Nat) (s t : State) : Prop :=
  ∀ n, n ≠ k → getInst t n = getInst s n

theorem othersKept_of_insts {k : Nat} {s t : State} (h : t.insts = s.insts) : OthersKept k s t :=
  fun n _ => congrArg (instAt · n) h

theorem othersKept_setInst (s : State) (k : Nat) (x : Inst) : OthersKept k s (setInst s k x) :=
  fun _ hn => getInst_setInst_other s x hn

theorem OthersKept.trans {k : Nat} {s t u : State} (h1 : OthersKept k s t) (h2 : OthersKept k t u) : OthersKept k s u :=
  fun n hn => (h2 n hn).trans (h1 n hn)

/-! Micro-steps -/

/-- Only the power-down of the generator reaches another instance than the one of the micro-step (R275). -/
theorem runMicro_othersKept {k : Nat} {m : Micro} {s t : State} (h : runMicro k m s = .done t)
    (hm : m ≠ .clkPowerDown) : OthersKept k s t := by
  cases m with
  | clkPowerDown => exact absurd rfl hm
  | pteEnable sd ld =>
    simp only [runMicro, microPteEnable] at h
    split at h <;> cases h
    exact othersKept_setInst _ _ _
  | buildRecord i =>
    simp only [runMicro, microBuildRecord] at h
    split at h
    · cases h
    · split at h <;> cases h
      exact othersKept_setInst _ _ _
  | buildEnd =>
    simp only [runMicro, microBuildEnd] at h
    split at h <;> cases h
    exact othersKept_setInst _ _ _
  | tdcStart =>
    simp only [runMicro, microTdcStart, onInstE] at h
    split at h
    · cases h
    · split at h <;> cases h
      exact othersKept_setInst _ _ _
  | spinStopped =>
    simp only [runMicro] at h
    split at h <;> cases h
    exact othersKept_of_insts rfl
  | clkPowerUp =>
    simp only [runMicro, microClkPowerUp] at h
    split at h <;> cases h
    exact othersKept_of_insts rfl
  | unclaim =>
    simp only [runMicro, microUnclaim] at h
    split at h
    · cases h; exact othersKept_of_insts rfl
    · split at h <;> cases h <;> exact othersKept_of_insts rfl
  | pinsConfigure p => cases h; exact othersKept_of_insts rfl
  | pinsRelease => cases h; exact othersKept_of_insts rfl
  | _ => cases h; exact othersKept_setInst _ _ _

theorem MicroRun.othersKept {k : Nat} {l : List Micro} {s t : State} (h : MicroRun (micros k l) s t)
    (hl : .clkPowerDown ∉ l) : OthersKept k s t := by
  induction l generalizing s with
  | nil => cases h with | rest h => exact othersKept_of_insts h
  | cons m l ih =>
    obtain ⟨hm, hl⟩ := not_or.1 (List.mem_cons.not.1 hl)
    cases h with
    | rest h => exact othersKept_of_insts h
    | micro h hrun => exact (runMicro_othersKept h (Ne.symm hm)).trans (ih hrun hl)

theorem callOp_othersKept {l : List Micro} {s t : State} (h : callOp l s = .next t) (hl : .clkPowerDown ∉ l) :
    OthersKept s.sel s t :=
  (callOp_microRun h).othersKept hl

theorem flipMicros_noPowerDown (x : Inst) : .clkPowerDown ∉ flipMicros x := by
  unfold flipMicros
  cases x.mode <;> simp [swapMicros]

theorem initMicros_noPowerDown (s : State) (u : Fin 2) (p : Pins) : .clkPowerDown ∉ initMicros s u p := by
  unfold initMicros
  split_ifs <;> simp [buildMicros]

theorem handlerMicros_noPowerDown (x : Inst) : .clkPowerDown ∉ handlerMicros x := by
  simp [handlerMicros]

theorem accessorOp_setColor_othersKept {buf : Word} {ch : Byte} {idx col : Word} {s t : State}
    (h : accessorOp (setColorMicros (this s) buf ch idx col) s = .next t) : OthersKept s.sel s t := by
  obtain ⟨l, c, hl⟩ := setColorMicros_eq_map (this s) buf ch idx col
  exact (accessorOp_microRun h).othersKept (by simp [hl])

/-! Hardware steps -/

/-- A hardware step, taken where it is enabled, writes the instance of the turn (R14). -/
theorem hardware_othersKept {s t : State} {enabled : Prop} [Decidable enabled] {g : Inst → Except Stop Inst}
    (h : (if enabled then hardware s g else .next s) = .next t) : OthersKept s.sel s t := by
  split at h
  · obtain ⟨x, -, rfl⟩ := hardware_next h
    exact othersKept_setInst _ _ _
  · cases h
    exact othersKept_of_insts rfl

/-! Instructions -/

/-- Every instruction but these two changes its own instance only (R44). -/
theorem exec_othersKept {i : Instr} {s t : State} (h : exec i s = .next t) (hirq : i ≠ .irqHandler)
    (hdown : i ≠ .teardown) : OthersKept s.sel s t := by
  cases i with
  | irqHandler => exact absurd rfl hirq
  | teardown => exact absurd rfl hdown
  | prime f => exact hardware_othersKept h
  | gateHi f => exact hardware_othersKept h
  | data f => exact hardware_othersKept h
  | close f => exact hardware_othersKept h
  | gap f => exact hardware_othersKept h
  | reservedKind5 f => cases h
  | reservedKind6 f => cases h
  | reservedKind7 f => cases h
  | pteEnable sd ld => exact callOp_othersKept h (by simp)
  | pteDisable => exact callOp_othersKept h (by simp)
  | tdcBuild => exact callOp_othersKept h (by simp [buildMicros])
  | tdcStart => exact callOp_othersKept h (by simp)
  | tdcDisable => exact callOp_othersKept h (by simp [disableMicros])
  | flush addr len => exact callOp_othersKept h (by simp)
  | requestSwap =>
    simp only [exec, execRequestSwap] at h
    obtain ⟨-, -, h⟩ := asCall_next h
    split at h
    · exact callOp_othersKept h (by simp [swapMicros])
    all_goals cases h
  | bufferReady =>
    rw [exec_bufferReady (idle_of_exec_next rfl rfl h)] at h
    cases h
    exact othersKept_of_insts rfl
  | flipBuffers => exact callOp_othersKept h (flipMicros_noPowerDown _)
  | flushBuffer => exact callOp_othersKept h (flipMicros_noPowerDown _)
  | setChannelType ch ty =>
    simp only [exec, execSetChannelType] at h
    obtain ⟨-, -, h⟩ := asCall_next h
    split at h <;> cases h
    · exact othersKept_of_insts rfl
    · exact othersKept_setInst _ _ _
  | setActiveColor ch idx col => exact accessorOp_setColor_othersKept h
  | setInactiveColor ch idx col => exact accessorOp_setColor_othersKept h
  | getActiveColor ch idx => cases asAccessor_next h; exact othersKept_of_insts rfl
  | getInactiveColor ch idx => cases asAccessor_next h; exact othersKept_of_insts rfl
  | construct leds cap mode =>
    rw [exec_construct (idle_of_exec_next rfl rfl h)] at h
    split_ifs at h <;> cases h <;> exact othersKept_setInst s _ _
  | initialise u p =>
    simp only [exec, execInitialise] at h
    obtain ⟨-, -, h⟩ := asCall_next h
    split at h
    · cases h; exact othersKept_of_insts rfl
    · exact callOp_othersKept h (initMicros_noPowerDown _ _ _)
  | latch => exact hardware_othersKept h
  | service => exact hardware_othersKept h
  | writeback a => exact hardware_othersKept h

/-- What `IRQ_HANDLER` can do: nothing, or take micro-steps of the handler of the routed instance (R264, R266). -/
theorem exec_irqHandler_next {s t : State} (h : exec .irqHandler s = .next t) :
    t = s ∨ ∃ k, routed s s.sel k ∧ MicroRun (micros k (handlerMicros (getInst s k))) s t := by
  simp only [exec, execIrqHandler, enterHandler] at h
  split at h
  · cases h; exact .inl rfl
  · split at h
    · cases h; exact .inl rfl
    · split at h
      · cases h; exact .inl rfl
      · next k hk =>
        refine .inr ⟨k, irqRoute_eq_some_iff.1 hk, ?_⟩
        split at h
        · exact runIrq_microRun h
        · exact stepIrq_microRun h

/-- The handler changes only the instance it is routed to (R264). -/
theorem exec_irqHandler_unrouted {s t : State} (h : exec .irqHandler s = .next t) {n : Nat}
    (hn : ¬routed s s.sel n) : getInst t n = getInst s n := by
  obtain rfl | ⟨k, hk, hrun⟩ := exec_irqHandler_next h
  · rfl
  · have hne : n ≠ k := fun hnk => hn (hnk ▸ hk)
    exact hrun.othersKept (handlerMicros_noPowerDown _) n hne

/-- What `TEARDOWN` does to another instance: nothing, or it takes the generator's power from its engine (R246, R275). -/
theorem exec_teardown_others {s t : State} (h : exec .teardown s = .next t) {n : Nat} (hn : n ≠ s.sel) :
    (PowersDown s ∧ EngineLost (getInst s n) (getInst t n)) ∨ getInst t n = getInst s n := by
  have hs : idle s := idle_of_exec_next rfl rfl h
  cases hg : s.grain with
  | micro =>
    rw [exec_teardown_micro hs hg] at h
    cases h
    exact .inr (othersKept_setInst s _ _ n hn)
  | whole =>
    cases hown : ownsUnit s s.sel with
    | false =>
      rw [exec_teardown_stranger ⟨hs, hg⟩ hown] at h
      cases h
      exact .inr (othersKept_setInst s _ _ n hn)
    | true =>
      obtain ⟨u, hu, ho⟩ := ownsUnit_iff.1 hown
      by_cases hlast : activeCount s = 1
      · obtain ⟨k, hk⟩ := exec_teardown_last ⟨hs, hg⟩ hu ho hlast
        rw [hk] at h
        cases h
        rw [getInst_setOwner, getInst_setInst_other _ _ hn]
        exact (getInst_powerDown_setInst_other s _ hn).imp_left fun hlost => ⟨powersDown_iff.2 ⟨hown, hlast⟩, hlost⟩
      · rw [exec_teardown_owner ⟨hs, hg⟩ hu ho hlast] at h
        cases h
        exact .inr (othersKept_setInst s _ _ n hn)

/-- Settles O57: by the instance of the micro-steps, the route of the handler, and what a power-down leaves. -/
theorem otherInstancesUntouched : Obligations.OtherInstancesUntouched := by
  refine fun i s t n h => ⟨fun hirq hdown hn => exec_othersKept h hirq hdown n hn, ?_, ?_, ?_⟩
  · rintro rfl hn
    exact exec_irqHandler_unrouted h hn
  · rintro rfl hn hp
    exact (exec_teardown_others h hn).resolve_left fun hlost => hp hlost.1
  · rintro rfl hn
    exact (exec_teardown_others h hn).imp_left And.right

end Sys2Proof.Machine
end

section
/-! SUPPORT. What a turn does (00_scope.md R14): one equation for each kind of turn, held or not, and the turn a step takes. -/

namespace Sys2Proof.Machine

open Sys2Proof

theorem takeTurn_held {t : Turn} {s : State} (h : HeldTurn t s) : takeTurn t s = .next s :=
  if_pos (turnHeld_iff.2 h)

theorem takeTurn_op {n : Nat} {g : Grain} {code : List Byte} {i : Instr} {s : State}
    (hfree : ¬HeldTurn (.op n g code) s) (hi : decodeLine code = .ok i) :
    takeTurn (.op n g code) s = exec i (select n g s) := by
  rw [← turnHeld_iff] at hfree
  simp [takeTurn, hfree, hi]

theorem takeTurn_op_undecodable {n : Nat} {g : Grain} {code : List Byte} {e : DecodeError} {s : State}
    (hfree : ¬HeldTurn (.op n g code) s) (he : decodeLine code = .error e) :
    takeTurn (.op n g code) s = .refused (.undecodable e) := by
  rw [← turnHeld_iff] at hfree
  simp [takeTurn, hfree, he]

theorem takeTurn_unit {n : Nat} {s : State} (hfree : ¬HeldTurn (.unit n) s)
    (hon : serviceEnabled (getInst s n) = true) :
    takeTurn (.unit n) s = exec (loadedInstr s n) (select n .whole s) := by
  rw [← turnHeld_iff] at hfree
  simp [takeTurn, hfree, hon]

/-- A unit transfer takes no step where `SERVICE` is not enabled, whether the turn is held or not (R14). -/
theorem takeTurn_unit_not_enabled {n : Nat} {s : State} (hoff : serviceEnabled (getInst s n) = false) :
    takeTurn (.unit n) s = .next s := by
  simp [takeTurn, hoff]

theorem takeTurn_callNext {s : State} (hfree : ¬HeldTurn .callNext s) : takeTurn .callNext s = callNext s :=
  if_neg (mt turnHeld_iff.1 hfree)

theorem takeTurn_irqNext {s : State} (hfree : ¬HeldTurn .irqNext s) : takeTurn .irqNext s = irqNext s :=
  if_neg (mt turnHeld_iff.1 hfree)

/-- A change of the lock report is no agent's step, so no `SERVICE` step holds it. -/
theorem not_heldTurn_lockLine (b : Bool) (s : State) : ¬HeldTurn (.lockLine b) s :=
  fun h => h.2 trivial

theorem takeTurn_lockLine (b : Bool) (s : State) : takeTurn (.lockLine b) s = .next { s with lockLine := b } :=
  if_neg (mt turnHeld_iff.1 (not_heldTurn_lockLine b s))

/-- Taking a line off the schedule changes no instance, so it holds and frees no turn. -/
theorem heldTurn_sched_iff {t : Turn} {s : State} {l : List Turn} : HeldTurn t { s with sched := l } ↔ HeldTurn t s := by
  simp only [← turnHeld_iff]
  rfl

theorem step_of_sched_cons {t : Turn} {l : List Turn} {s : State} (h : s.sched = t :: l) :
    step s = takeTurn t { s with sched := l } := by
  simp only [step, nextTurn, h]

theorem step_of_sched_nil {s : State} (h : s.sched = []) :
    step s = takeTurn (Config.freeTurn s.turnNo) { s with turnNo := s.turnNo + 1 } := by
  simp only [step, nextTurn, h]

/-- Settles O5: a step takes the turn at the head of the schedule, or a free one, and each kind of turn has its equation. -/
theorem stepRunsTheDecodedInstruction : Obligations.StepRunsTheDecodedInstruction := by
  refine fun s l => ⟨?op, ?undecodable, ?unit, ?unitOff, ?callNext, ?irqNext, ?lockLine, ?held, step_of_sched_nil⟩
  case op =>
    intro n g code i hs hfree hi
    exact (step_of_sched_cons hs).trans (takeTurn_op (mt heldTurn_sched_iff.1 hfree) hi)
  case undecodable =>
    intro n g code e hs hfree he
    exact (step_of_sched_cons hs).trans (takeTurn_op_undecodable (mt heldTurn_sched_iff.1 hfree) he)
  case unit =>
    intro n hs hfree hon
    exact (step_of_sched_cons hs).trans (takeTurn_unit (mt heldTurn_sched_iff.1 hfree) hon)
  case unitOff =>
    intro n hs hoff
    exact (step_of_sched_cons hs).trans (takeTurn_unit_not_enabled hoff)
  case callNext =>
    intro hs hfree
    exact (step_of_sched_cons hs).trans (takeTurn_callNext (mt heldTurn_sched_iff.1 hfree))
  case irqNext =>
    intro hs hfree
    exact (step_of_sched_cons hs).trans (takeTurn_irqNext (mt heldTurn_sched_iff.1 hfree))
  case lockLine =>
    intro b hs
    exact (step_of_sched_cons hs).trans (takeTurn_lockLine b _)
  case held =>
    intro t hs hheld
    exact (step_of_sched_cons hs).trans (takeTurn_held (heldTurn_sched_iff.2 hheld))

end Sys2Proof.Machine
end

section
/-! SUPPORT. Encoding and decoding (30_encoding.md sections 1 and 3): operand bytes read back, every instruction decodes
from its encoding, and the control word is the sum of its fields. -/

namespace Sys2Proof

/-! Operand bytes (R99) -/

/-- The two bytes of a 16-bit operand read back as it. -/
theorem join16_bytes (w : BitVec 16) : join16 (w.extractLsb' 0 8) (w.extractLsb' 8 8) = w := by
  ext i hi
  interval_cases i <;> simp [join16, ← BitVec.getLsbD_eq_getElem]

/-- The four bytes of a 32-bit operand read back as it. -/
theorem join32_bytes (w : Word) :
    join32 (w.extractLsb' 0 8) (w.extractLsb' 8 8) (w.extractLsb' 16 8) (w.extractLsb' 24 8) = w := by
  ext i hi
  interval_cases i <;> simp [join32, ← BitVec.getLsbD_eq_getElem]

@[simp] theorem read16_bytes16 (w : BitVec 16) (r : List Byte) : read16 (bytes16 w ++ r) = some (w, r) :=
  congrArg (fun v => some (v, r)) (join16_bytes w)

@[simp] theorem read32_bytes32 (w : Word) (r : List Byte) : read32 (bytes32 w ++ r) = some (w, r) :=
  congrArg (fun v => some (v, r)) (join32_bytes w)

@[simp] theorem capOfByte_byteOfCap (c : Cap) : capOfByte (byteOfCap c) = some c := by
  cases c <;> rfl

@[simp] theorem modeOfByte_byteOfMode (m : Mode) : modeOfByte (byteOfMode m) = some m := by
  cases m <;> rfl

/-! Operands read back from their bytes, whatever follows them -/

theorem operands16x2_bytes (op : Byte) (x y : BitVec 16) (r : List Byte) (k : BitVec 16 → BitVec 16 → Instr) :
    operands16x2 op (bytes16 x ++ bytes16 y ++ r) k = .ok (k x y, r) := by
  simp [operands16x2]

theorem operands32_bytes (op : Byte) (x : Word) (r : List Byte) (k : Word → Instr) :
    operands32 op (bytes32 x ++ r) k = .ok (k x, r) := by
  simp [operands32]

theorem operands32x2_bytes (op : Byte) (x y : Word) (r : List Byte) (k : Word → Word → Instr) :
    operands32x2 op (bytes32 x ++ bytes32 y ++ r) k = .ok (k x y, r) := by
  simp [operands32x2]

theorem operandsConstruct_bytes (op : Byte) (leds : Word) (c : Cap) (m : Mode) (r : List Byte) :
    operandsConstruct op (bytes32 leds ++ [byteOfCap c, byteOfMode m] ++ r) = .ok (.construct leds c m, r) := by
  simp [operandsConstruct, bytes32, join32_bytes]

/-- An operation's bytes decode to it and leave what follows (R99, R100). -/
theorem decode_encode_op {i : Instr} {bytes : List Byte} (h : encode i = .op bytes) (rest : List Byte) :
    decode (bytes ++ rest) = .ok (i, rest) := by
  cases i <;> cases h
  case pteEnable sd ld => exact operands16x2_bytes 0x01 sd ld rest .pteEnable
  case flush addr len => exact operands32x2_bytes 0x06 addr len rest .flush
  case setActiveColor ch idx col => exact operands32x2_bytes 0x0D idx col rest (.setActiveColor ch)
  case setInactiveColor ch idx col => exact operands32x2_bytes 0x0E idx col rest (.setInactiveColor ch)
  case getActiveColor ch idx => exact operands32_bytes 0x0F idx rest (.getActiveColor ch)
  case getInactiveColor ch idx => exact operands32_bytes 0x10 idx rest (.getInactiveColor ch)
  case construct leds cap mode => exact operandsConstruct_bytes 0x11 leds cap mode rest
  case writeback a => exact operands32_bytes 0x22 a rest .writeback
  all_goals rfl

/-- A record decodes to the instruction it encodes (R90 to R92). -/
theorem decodeRecord_encode {i : Instr} {d : Desc} (h : encode i = .record d) : decodeRecord d = i := by
  cases i <;> cases h <;> exact decodeRecord_encodeRecord _ _

/-- Settles O1, by the two encoded forms. -/
theorem encodeDecodeAgree : Obligations.EncodeDecodeAgree := by
  intro i
  cases h : encode i with
  | record d => exact decodeRecord_encode h
  | op bytes => exact decode_encode_op h

/-! The control word as a number (R91) -/

/-- A word whose bits from `i` on are clear, and whose value is `n`. -/
def PackedBelow (i : Nat) (w : Word) (n : Nat) : Prop :=
  w.toNat = n ∧ n < 2 ^ i

/-- A field or-ed in above the packed bits adds its value at its place. -/
theorem PackedBelow.or_field {i n k : Nat} {w : Word} (h : PackedBelow i w n) (x : BitVec k) (hi : i + k ≤ 32) :
    PackedBelow (i + k) (w ||| (x.setWidth 32 <<< i)) (n + 2 ^ i * x.toNat) := by
  obtain ⟨rfl, hlt⟩ := h
  have hx := x.isLt
  have hbound : w.toNat + 2 ^ i * x.toNat < 2 ^ (i + k) :=
    calc w.toNat + 2 ^ i * x.toNat
      _ < 2 ^ i * (x.toNat + 1) := by rw [Nat.mul_succ]; omega
      _ ≤ 2 ^ i * 2 ^ k := Nat.mul_le_mul_left _ hx
      _ = 2 ^ (i + k) := (pow_add 2 i k).symm
  have hfit : 2 ^ (i + k) ≤ 2 ^ 32 := Nat.pow_le_pow_right (by decide) hi
  have hk : 2 ^ k ≤ 2 ^ 32 := Nat.pow_le_pow_right (by decide) (by omega)
  refine ⟨?_, hbound⟩
  have hshift : x.toNat <<< i = 2 ^ i * x.toNat := by rw [Nat.shiftLeft_eq, mul_comm]
  have hword : x.toNat < 2 ^ 32 := by omega
  have hplaced : x.toNat <<< i < 2 ^ 32 := by rw [hshift]; omega
  rw [BitVec.toNat_or, BitVec.toNat_shiftLeft, BitVec.toNat_setWidth, Nat.mod_eq_of_lt hword,
    Nat.mod_eq_of_lt hplaced, Nat.or_comm, ← Nat.shiftLeft_add_eq_or_of_lt hlt, hshift, add_comm]

/-- Settles O2: the fields are or-ed in one above the other, each adding its value at its place. -/
theorem controlWordLayout : Obligations.ControlWordLayout := by
  intro k f
  have hkind : PackedBelow 3 ((bitsOfKind k).setWidth 32) (bitsOfKind k).toNat := by
    cases k <;> exact ⟨rfl, by decide⟩
  have hdst := hkind.or_field f.dst (by decide)
  have hsadv := hdst.or_field (BitVec.ofBool f.sadv) (by decide)
  have hinten := hsadv.or_field (BitVec.ofBool f.inten) (by decide)
  have hdstop := hinten.or_field (BitVec.ofBool f.dstop) (by decide)
  have hnext := hdstop.or_field f.next (by decide)
  have hrsvd := hnext.or_field f.rsvd (by decide)
  have hcount := hrsvd.or_field f.count (by decide)
  simp only [BitVec.toNat_ofBool] at hcount
  exact ⟨rfl, hcount.1⟩

/-- Settles O4: each listed text by running the decoder, any other first byte by the rows of the table. -/
theorem operationNumbersDecode : Obligations.OperationNumbersDecode := by
  refine ⟨rfl, rfl, rfl, rfl, rfl, rfl, rfl, rfl, rfl, rfl, rfl, rfl, rfl, rfl, rfl, rfl, rfl, rfl, rfl, rfl, rfl,
    rfl, fun op r h => ?_⟩
  have hop : op.toNat = 0 ∨ (0x13 < op.toNat ∧ op.toNat < 0x20) ∨ 0x22 < op.toNat :=
    h.imp_left fun h0 => by simp [h0]
  rw [decode]
  split
  case h_23 => rfl
  all_goals omega

end Sys2Proof
end

section
/-! SUPPORT. The invariants of an instance: each is kept by every primitive change of an instance (`InstMove`), so by
every step (`step_keeps`), and each holds after reset (10_state.md section 7). -/

namespace Sys2Proof.Machine

open Sys2Proof

/-- `TDC_START` writes nothing but what the sequencer may write (R172, R20). -/
theorem startChain_frame {x y : Inst} (h : startChain x = .ok y) : SequencerOnly x y := by
  unfold startChain at h
  split at h
  · cases h
  · rename_i hl
    cases h
    exact (load_frame hl).trans rfl

/-! The canonical form of the frame buffer (20_memory.md R64, R70) -/

theorem instMove_keeps_bufferWf {x y : Inst} (hm : InstMove x y) (h : x.buf.wf = true) : y.buf.wf = true := by
  cases hm with
  | flush addr len => exact flushBuf_wf _ _ _ h
  | setBit a ch b => exact writeBit_wf _ _ _ _ h
  | zeroFlush => exact zeroAndFlush_wf _ h
  | writeback a _ => exact writebackBuf_wf _ _ h
  | construct => rfl
  | start _ _ hs => rw [startChain_frame hs]; exact h
  | unit _ hu => rw [unitTransfer_frame hu]; exact h
  | _ => exact h

/-- Every listed instance is one of those counted by number. -/
theorem exists_getInst_of_mem {s : State} {x : Inst} (h : x ∈ s.insts) : ∃ n, getInst s n = x := by
  unfold getInst
  generalize s.insts = l at h
  induction l with
  | nil => cases h
  | cons y l ih =>
    rcases List.mem_cons.1 h with rfl | h
    · exact ⟨0, rfl⟩
    · obtain ⟨n, hn⟩ := ih h
      exact ⟨n + 1, hn⟩

/-- The instances not listed are as at process start, so the canonical form can be said of every number. -/
theorem memoryCanonical_iff {s : State} : memoryCanonical s = true ↔ ∀ n, (getInst s n).buf.wf = true := by
  rw [memoryCanonical, List.all_eq_true]
  refine ⟨fun h => getInst_of_all (P := fun x => x.buf.wf = true) s h rfl, fun h x hx => ?_⟩
  obtain ⟨n, rfl⟩ := exists_getInst_of_mem hx
  exact h n

/-- Settles O51: every primitive change keeps the canonical form. -/
theorem stepKeepsMemoryCanonical : Obligations.StepKeepsMemoryCanonical := by
  intro s t hs h
  rw [memoryCanonical_iff] at hs ⊢
  exact fun n => step_keeps (P := fun x => x.buf.wf = true) (fun _ _ => instMove_keeps_bufferWf) h n (hs n)

/-! The pointer pair (R35) -/

theorem instMove_keeps_pointersOk {x y : Inst} (hm : InstMove x y) (h : pointersOk x) : pointersOk y := by
  cases hm with
  | swapPtrs => exact h.symm.imp And.symm And.symm
  | construct => exact .inl ⟨rfl, rfl⟩
  | start _ _ hs => rw [startChain_frame hs]; exact h
  | unit _ hu => rw [unitTransfer_frame hu]; exact h
  | _ => exact h

/-- Settles O52: a swap exchanges the two halves, and only `CONSTRUCT`, which sets the pair, moves them. -/
theorem stepKeepsPointers : Obligations.StepKeepsPointers :=
  fun _ _ n hn h => step_keeps (fun _ _ => instMove_keeps_pointersOk) h n hn

/-! The channel types and the data descriptors (R222, R151) -/

/-- A frame without words has no segment (R151). -/
theorem segments_zero (p : Params) : segments 0 p = 0 := by
  rw [segments, ceilDiv, Nat.zero_add, Nat.div_eq_zero_iff]
  omega

theorem chTypeAt_writeChannelType (x : Inst) (c k : Fin 32) (t : ChType) :
    chTypeAt (writeChannelType c t x) k = if k = c then t else chTypeAt x k := by
  simp [chTypeAt, writeChannelType, Vector.getElem_set, Fin.ext_iff, eq_comm]

theorem configOk_constructInst {leds : Nat} {cap : Cap} {mode : Mode} {k : Nat} {x : Inst}
    (hfew : leds = 0 ∨ segments (leds * depthOf cap) x.par ≤ 4) (htypes : chTypesOk cap x.par.chtypeInit = true) :
    configOk (constructInst leds cap mode k x) := by
  refine ⟨fun c hc => ?_, ?_⟩
  · rw [chTypesOk_iff] at htypes
    cases cap with
    | three => exact absurd ⟨rfl, c, hc⟩ htypes
    | four => rfl
  · change segments (leds * depthOf cap) x.par ≤ 4
    rcases hfew with rfl | hfew
    · rw [Nat.zero_mul, segments_zero]
      exact Nat.zero_le 4
    · exact hfew

theorem instMove_keeps_configOk {x y : Inst} (hm : InstMove x y) (h : configOk x) : configOk y := by
  cases hm with
  | setType c t hfour =>
    refine ⟨fun k hk => ?_, h.2⟩
    rw [chTypeAt_writeChannelType] at hk
    split at hk
    · exact hfour hk
    · exact h.1 k hk
  | construct _ _ _ _ hfew htypes => exact configOk_constructInst hfew htypes
  | start _ _ hs => rw [startChain_frame hs]; exact h
  | unit _ hu => rw [unitTransfer_frame hu]; exact h
  | _ => exact h

/-- Settles O53: a channel type is assigned under its capacity only, and `CONSTRUCT` checks both. -/
theorem stepKeepsConfiguration : Obligations.StepKeepsConfiguration :=
  fun _ _ n hn h => step_keeps (fun _ _ => instMove_keeps_configOk) h n hn

/-! The flag bits of the records (R34) -/

/-- Record `i` may carry the interrupt bit only at index 6 and the stop bit only at index 7 (R34). -/
def FlagBitsAt (i : BitVec 3) (d : Desc) : Prop :=
  (i ≠ 6 → (fieldsOf d).inten = false) ∧ (i ≠ 7 → (fieldsOf d).dstop = false)

/-- One record written, with flag bits its index may carry. -/
theorem flagBitsOk_of_record {x y : Inst} {i : BitVec 3} (h : flagBitsOk x)
    (hother : ∀ j, j ≠ i → descAt y j = descAt x j) (hi : FlagBitsAt i (descAt y i).body) : flagBitsOk y := by
  intro j
  by_cases hj : j = i
  · subst hj
    exact hi
  · rw [hother j hj]
    exact h j

/-- A table of one entry throughout (R43). -/
theorem descAt_replicate {x : Inst} {e : Entry} (h : x.desc = Vector.replicate 8 e) (i : BitVec 3) :
    descAt x i = e := by
  simp [descAt, h]

/-- A table of zero records carries no flag bit. -/
theorem flagBitsOk_replicate {x : Inst} (h : x.desc = Vector.replicate 8 ⟨false, ⟨0, 0⟩⟩) : flagBitsOk x := by
  intro i
  rw [descAt_replicate h]
  exact ⟨fun _ => by decide, fun _ => by decide⟩

/-- No built record is armed, and only the gap's may stop the chain (R156). -/
theorem flagBitsAt_builtRecord (x : Inst) (base : Word) (i : BitVec 3) : FlagBitsAt i (builtRecord x base i) := by
  have hseg : ∀ k, FlagBitsAt i (segRecord x base k) := by
    intro k
    unfold segRecord
    split
    · simp [FlagBitsAt]
    · exact ⟨fun _ => by decide, fun _ => by decide⟩
  unfold builtRecord
  split
  case h_4 hi =>
    have h7 : i = 7 := BitVec.eq_of_toNat_eq hi
    simp [FlagBitsAt, gapFields, h7]
  case h_5 => exact hseg _
  all_goals simp [FlagBitsAt, primeFields, gateHiFields, closeFields]

theorem instMove_keeps_flagBitsOk {x y : Inst} (hm : InstMove x y) (h : flagBitsOk x) : flagBitsOk y := by
  cases hm with
  | buildRecord i _ _ =>
    refine flagBitsOk_of_record h (fun j hj => descAt_writeRecord_other _ _ hj) ?_
    rw [descAt_writeRecord_same]
    exact flagBitsAt_builtRecord _ _ _
  | armed b =>
    refine flagBitsOk_of_record h (fun j hj => descAt_editRecord_other _ _ hj) ?_
    rw [setArmed, descAt_editRecord_same, FlagBitsAt, fieldsOf_setInten]
    exact ⟨fun h6 => absurd rfl h6, (h 6).2⟩
  | retarget i =>
    refine flagBitsOk_of_record h (fun j hj => descAt_editRecord_other _ _ hj) ?_
    rw [retargetSegment, descAt_editRecord_same]
    exact h _
  | construct => exact flagBitsOk_replicate rfl
  | start _ _ hs => rw [startChain_frame hs]; exact h
  | unit _ hu => rw [unitTransfer_frame hu]; exact h
  | _ => exact h

/-- Settles O54: a built record, an armed `CLOSE` and a retargeted segment each carry what their index may. -/
theorem stepKeepsFlagBits : Obligations.StepKeepsFlagBits :=
  fun _ _ n hn h => step_keeps (fun _ _ => instMove_keeps_flagBitsOk) h n hn

/-! After reset (R43, R290) -/

theorem getInst_reset (n : Nat) : getInst State.reset n = Inst.atStart := rfl

theorem nData_atStart : nData Inst.atStart = 0 := by
  simp [nData, frameWords, Inst.atStart, segments_zero]

theorem descAt_atStart (i : BitVec 3) : descAt Inst.atStart i = ⟨false, ⟨0, 0⟩⟩ :=
  descAt_replicate rfl i

theorem chTypeAt_atStart (c : Fin 32) : chTypeAt Inst.atStart c = .a :=
  Vector.getElem_replicate _

theorem configOk_atStart : configOk Inst.atStart :=
  ⟨fun c hc => (by rw [chTypeAt_atStart] at hc; cases hc), by rw [nData_atStart]; exact Nat.zero_le 4⟩

/-- Settles O55: every instance is as at process start, where the invariants hold. -/
theorem resetMeetsTheInvariants : Obligations.ResetMeetsTheInvariants := by
  refine ⟨rfl, rfl, ⟨rfl, rfl⟩, fun n => ?_⟩
  rw [getInst_reset]
  exact ⟨.inl ⟨rfl, rfl⟩, configOk_atStart, flagBitsOk_replicate rfl, rfl, rfl, rfl, rfl, rfl, rfl, rfl, rfl,
    fun i => congrArg Entry.known (descAt_atStart i), rfl, rfl⟩

end Sys2Proof.Machine
end

section
/-! SUPPORT. The parameters (00_scope.md R8), the configuration (R6) and the pending flag (10_state.md R32): what keeps
them over every micro-step, every instruction and every step. -/

namespace Sys2Proof.Machine

open Sys2Proof

/-- `y` has the configuration of `x` (R6). -/
def SameConfig (x y : Inst) : Prop :=
  y.leds = x.leds ∧ y.cap = x.cap ∧ y.mode = x.mode

/-- A flag pending in `x` is pending in `y` (R32). -/
def KeepsPending (x y : Inst) : Prop :=
  x.irqPend = true → y.irqPend = true

/-- `y` has the configuration of `x` and keeps a pending flag: what every change but `CONSTRUCT` and the end of a
handler run does. -/
def Steady (x y : Inst) : Prop :=
  SameConfig x y ∧ KeepsPending x y

theorem SameConfig.refl (x : Inst) : SameConfig x x := ⟨rfl, rfl, rfl⟩

theorem SameConfig.trans {x y z : Inst} (h : SameConfig x y) (k : SameConfig y z) : SameConfig x z :=
  ⟨k.1.trans h.1, k.2.1.trans h.2.1, k.2.2.trans h.2.2⟩

theorem Steady.refl (x : Inst) : Steady x x := ⟨.refl x, id⟩

theorem Steady.trans {x y z : Inst} (h : Steady x y) (k : Steady y z) : Steady x z :=
  ⟨h.1.trans k.1, k.2 ∘ h.2⟩

/-- A change that leaves the configuration and the flag alone. -/
theorem Steady.of_eq {x y : Inst} (h : SameConfig x y) (hp : y.irqPend = x.irqPend) : Steady x y :=
  ⟨h, hp.trans⟩

/-! The sequencer: the flag is raised where a record with `INTEN` completes, and never cleared (R162) -/

theorem SequencerOnly.sameConfig {x y : Inst} (h : SequencerOnly x y) : SameConfig x y := by
  rw [h]
  exact ⟨rfl, rfl, rfl⟩

theorem load_irqPend {i : BitVec 3} {x y : Inst} (h : load i x = .ok y) : y.irqPend = x.irqPend := by
  obtain ⟨-, rfl⟩ := (load_eq_ok _ _ _).1 h
  rfl

theorem complete_irqPend {f : Fields} {x y : Inst} (h : complete f x = .ok y) :
    y.irqPend = (x.irqPend || f.inten) := by
  rw [complete_eq] at h
  split at h
  · cases h
    rfl
  · exact load_irqPend h

theorem transfer_steady {k : Kind} {f : Fields} {x y : Inst}
    (h : transfer k (checkOf k) (effectOf k) f x = .ok y) : Steady x y := by
  have heffect : SequencerOnly x (effectOf k x) := by cases k <;> rfl
  refine ⟨(transfer_frame heffect h).sameConfig, fun hp => ?_⟩
  obtain ⟨-, -, -, v, -, hdone⟩ := transfer_ok h
  rw [advance_writeReg_effectOf] at hdone
  have hmoved : (moved k f v x).irqPend = true := hp
  rcases hdone with ⟨-, hc⟩ | ⟨-, rfl⟩
  · rw [complete_irqPend hc, hmoved, Bool.true_or]
  · exact hmoved

/-- One pass of the loop of `SERVICE` is a unit transfer of the loaded record's kind, with that kind's check and effect
(R161). -/
theorem unitTransfer_eq {x : Inst} (h5 : kindOf x.w ≠ .reserved5) (h6 : kindOf x.w ≠ .reserved6)
    (h7 : kindOf x.w ≠ .reserved7) :
    unitTransfer x = transfer (kindOf x.w) (checkOf (kindOf x.w)) (effectOf (kindOf x.w)) (fieldsOf x.w) x := by
  rw [unitTransfer]
  cases hk : kindOf x.w
  case reserved5 => exact absurd hk h5
  case reserved6 => exact absurd hk h6
  case reserved7 => exact absurd hk h7
  all_goals rfl

theorem unitTransfer_steady {x y : Inst} (h : unitTransfer x = .ok y) : Steady x y := by
  have hkind : kindOf x.w ≠ .reserved5 ∧ kindOf x.w ≠ .reserved6 ∧ kindOf x.w ≠ .reserved7 := by
    refine ⟨?_, ?_, ?_⟩ <;> intro hk <;> rw [unitTransfer, hk] at h <;> cases h
  obtain ⟨h5, h6, h7⟩ := hkind
  rw [unitTransfer_eq h5 h6 h7] at h
  exact transfer_steady h

theorem serviceLoop_steady (n : Nat) {x y : Inst} (h : serviceLoop n x = .ok y) : Steady x y := by
  induction n generalizing x with
  | zero => cases h; exact .refl _
  | succ n ih =>
    rw [serviceLoop_succ] at h
    split at h
    · cases h
    · next z hz =>
      split at h
      · exact (unitTransfer_steady hz).trans (ih h)
      · cases h
        exact unitTransfer_steady hz

/-! The micro-steps -/

theorem startChain_steady {x y : Inst} (h : startChain x = .ok y) : Steady x y := by
  refine ⟨(startChain_frame h).sameConfig, fun hp => ?_⟩
  unfold startChain at h
  split at h
  · cases h
  · next z hl =>
    cases h
    exact (load_irqPend hl).trans hp

/-- Every micro-step but the handler's last keeps configuration and flag. -/
theorem runMicro_steady {n : Nat} {m : Micro} {s t : State} (h : runMicro n m s = .done t) (hm : m ≠ .ack) :
    Each Steady s t := by
  cases m with
  | ack => exact absurd rfl hm
  | pteEnable sd ld =>
    simp only [runMicro, microPteEnable] at h
    split at h <;> cases h
    exact each_setInst .refl (.of_eq ⟨rfl, rfl, rfl⟩ rfl)
  | buildRecord i =>
    simp only [runMicro, microBuildRecord] at h
    split at h
    · cases h
    · split at h <;> cases h
      exact each_setInst .refl (.of_eq ⟨rfl, rfl, rfl⟩ rfl)
  | buildEnd =>
    simp only [runMicro, microBuildEnd] at h
    split at h <;> cases h
    exact each_setInst .refl (.of_eq ⟨rfl, rfl, rfl⟩ rfl)
  | tdcStart =>
    simp only [runMicro, microTdcStart, onInstE] at h
    split at h
    · cases h
    · split at h <;> cases h
      exact each_setInst .refl (startChain_steady ‹_›)
  | spinStopped =>
    simp only [runMicro] at h
    split at h <;> cases h
    exact each_of_insts .refl rfl
  | clkPowerUp =>
    simp only [runMicro, microClkPowerUp] at h
    split at h <;> cases h
    exact each_of_insts .refl rfl
  | clkPowerDown =>
    simp only [runMicro, microClkPowerDown] at h
    split at h <;> cases h
    · intro k
      obtain ⟨j, hj⟩ | ⟨-, hj⟩ := getInst_powerDown s k <;> rw [hj]
      · exact .of_eq ⟨rfl, rfl, rfl⟩ rfl
      · exact .refl _
    · exact each_of_insts .refl rfl
  | unclaim =>
    simp only [runMicro, microUnclaim] at h
    split at h
    · cases h
      exact each_of_insts .refl rfl
    · split at h <;> cases h <;> exact each_of_insts .refl rfl
  | pinsConfigure p => cases h; exact each_of_insts .refl rfl
  | pinsRelease => cases h; exact each_of_insts .refl rfl
  | _ => cases h; exact each_setInst .refl (.of_eq ⟨rfl, rfl, rfl⟩ rfl)

/-- No micro-step changes a configuration. -/
theorem runMicro_sameConfig {n : Nat} {m : Micro} {s t : State} (h : runMicro n m s = .done t) :
    Each SameConfig s t := by
  by_cases hm : m = .ack
  · subst hm
    cases h
    exact each_setInst .refl ⟨rfl, rfl, rfl⟩
  · exact fun k => (runMicro_steady h hm k).1

theorem MicroRun.sameConfig {l : List (Nat × Micro)} {s t : State} (h : MicroRun l s t) : Each SameConfig s t := by
  induction h with
  | rest h => exact each_of_insts .refl h
  | micro h _ ih => exact fun k => (runMicro_sameConfig h k).trans (ih k)

theorem MicroRun.steady {l : List (Nat × Micro)} {s t : State} (h : MicroRun l s t) (hl : ∀ e ∈ l, e.2 ≠ .ack) :
    Each Steady s t := by
  induction h with
  | rest h => exact each_of_insts .refl h
  | micro h _ ih =>
    obtain ⟨hm, hl⟩ := List.forall_mem_cons.1 hl
    exact fun k => (runMicro_steady h hm k).trans (ih hl k)

/-! The instructions -/

theorem callOp_steady {l : List Micro} {s t : State} (h : callOp l s = .next t) (hl : .ack ∉ l) : Each Steady s t :=
  (callOp_microRun h).steady (List.forall_mem_map.2 fun _ hm hack => hl (hack ▸ hm))

theorem accessorOp_setColor_steady {buf : Word} {ch : Byte} {idx col : Word} {s t : State}
    (h : accessorOp (setColorMicros (this s) buf ch idx col) s = .next t) : Each Steady s t := by
  obtain ⟨l, c, hl⟩ := setColorMicros_eq_map (this s) buf ch idx col
  rw [hl] at h
  exact (accessorOp_microRun h).steady (List.forall_mem_map.2 (List.forall_mem_map.2 fun _ _ => nofun))

theorem flipMicros_noAck (x : Inst) : .ack ∉ flipMicros x := by
  unfold flipMicros
  cases x.mode <;> simp [swapMicros]

theorem initMicros_noAck (s : State) (u : Fin 2) (p : Pins) : .ack ∉ initMicros s u p := by
  unfold initMicros
  split_ifs <;> simp [buildMicros]

/-- A hardware step, taken where it is enabled, that keeps configuration and flag of its instance. -/
theorem hardware_steady {s t : State} {enabled : Prop} [Decidable enabled] {g : Inst → Except Stop Inst}
    (h : (if enabled then hardware s g else .next s) = .next t) (hg : ∀ x y, g x = .ok y → Steady x y) :
    Each Steady s t := by
  split at h
  · obtain ⟨x, hx, rfl⟩ := hardware_next h
    exact each_setInst .refl (hg _ _ hx)
  · cases h
    exact each_of_insts .refl rfl

/-- Every instruction but the handler and `CONSTRUCT` keeps every configuration and every pending flag. -/
theorem exec_steady {i : Instr} {s t : State} (h : exec i s = .next t) (hirq : i ≠ .irqHandler)
    (hcon : ∀ l c m, i ≠ .construct l c m) : Each Steady s t := by
  cases i with
  | irqHandler => exact absurd rfl hirq
  | construct l c m => exact absurd rfl (hcon l c m)
  | prime f => exact hardware_steady h fun _ _ => transfer_steady (k := .prime)
  | gateHi f => exact hardware_steady h fun _ _ => transfer_steady (k := .gateHi)
  | data f => exact hardware_steady h fun _ _ => transfer_steady (k := .data)
  | close f => exact hardware_steady h fun _ _ => transfer_steady (k := .close)
  | gap f => exact hardware_steady h fun _ _ => transfer_steady (k := .gap)
  | reservedKind5 f => cases h
  | reservedKind6 f => cases h
  | reservedKind7 f => cases h
  | pteEnable sd ld => exact callOp_steady h (by simp)
  | pteDisable => exact callOp_steady h (by simp)
  | tdcBuild => exact callOp_steady h (by simp [buildMicros])
  | tdcStart => exact callOp_steady h (by simp)
  | tdcDisable => exact callOp_steady h (by simp [disableMicros])
  | flush addr len => exact callOp_steady h (by simp)
  | requestSwap =>
    simp only [exec, execRequestSwap] at h
    obtain ⟨-, -, h⟩ := asCall_next h
    split at h
    · exact callOp_steady h (by simp [swapMicros])
    all_goals cases h
  | bufferReady =>
    rw [exec_bufferReady (idle_of_exec_next rfl rfl h)] at h
    cases h
    exact each_of_insts .refl rfl
  | flipBuffers => exact callOp_steady h (flipMicros_noAck _)
  | flushBuffer => exact callOp_steady h (flipMicros_noAck _)
  | setChannelType ch ty =>
    simp only [exec, execSetChannelType] at h
    obtain ⟨-, -, h⟩ := asCall_next h
    split at h <;> cases h
    · exact each_of_insts .refl rfl
    · exact each_setInst .refl (.of_eq ⟨rfl, rfl, rfl⟩ rfl)
  | setActiveColor ch idx col => exact accessorOp_setColor_steady h
  | setInactiveColor ch idx col => exact accessorOp_setColor_steady h
  | getActiveColor ch idx => cases asAccessor_next h; exact each_of_insts .refl rfl
  | getInactiveColor ch idx => cases asAccessor_next h; exact each_of_insts .refl rfl
  | initialise u p =>
    simp only [exec, execInitialise] at h
    obtain ⟨-, -, h⟩ := asCall_next h
    split at h
    · cases h
      exact each_of_insts .refl rfl
    · exact callOp_steady h (initMicros_noAck _ _ _)
  | teardown => exact callOp_steady h (by simp [teardownMicros, disableMicros])
  | latch => exact hardware_steady h fun _ _ hx => by cases hx; exact .of_eq ⟨rfl, rfl, rfl⟩ rfl
  | service => exact hardware_steady h fun _ _ => serviceLoop_steady _
  | writeback a => exact hardware_steady h fun _ _ hx => by cases hx; exact .of_eq ⟨rfl, rfl, rfl⟩ rfl

/-- Every instruction but `CONSTRUCT` keeps every configuration. -/
theorem exec_sameConfig {i : Instr} {s t : State} (h : exec i s = .next t) (hcon : ∀ l c m, i ≠ .construct l c m) :
    Each SameConfig s t := by
  by_cases hirq : i = .irqHandler
  · subst hirq
    obtain ⟨n, hrun⟩ := enterHandler_microRun h
    exact hrun.sameConfig
  · exact fun n => (exec_steady h hirq hcon n).1

/-- Settles O59: the flag is cleared by the handler's last micro-step and by `CONSTRUCT`, and by nothing else. -/
theorem interruptIsSticky : Obligations.InterruptIsSticky :=
  fun _ _ _ n h hirq hcon => (exec_steady h hirq hcon n).2

/-! The steps -/

theorem decodeRecord_ne_construct (d : Desc) (l : Word) (c : Cap) (m : Mode) : decodeRecord d ≠ .construct l c m := by
  unfold decodeRecord
  cases kindOf d <;> nofun

/-- A turn that is no `CONSTRUCT` of an instance keeps the configuration of that instance. -/
theorem takeTurn_sameConfig {u : Turn} {s t : State} (h : takeTurn u s = .next t) {n : Nat}
    (hcon : ∀ l c m, turnIs u n (.construct l c m) = false) : SameConfig (getInst s n) (getInst t n) := by
  unfold takeTurn at h
  split at h
  · cases h
    exact .refl _
  · cases u with
    | op k g code =>
      rcases hd : decodeLine code with e | i <;> simp only [hd] at h
      · cases h
      · by_cases hi : ∃ l c m, i = .construct l c m
        · obtain ⟨l, c, m, rfl⟩ := hi
          have hk : n ≠ k := by
            rintro rfl
            simpa [turnIs, hd] using hcon l c m
          rw [exec_othersKept h nofun nofun n hk]
          exact .refl _
        · exact exec_sameConfig h (fun l c m hi' => hi ⟨l, c, m, hi'⟩) n
    | unit k =>
      dsimp only at h
      split at h
      · exact exec_sameConfig h (decodeRecord_ne_construct _) n
      · cases h
        exact .refl _
    | callNext =>
      simp only [callNext] at h
      split at h
      · cases h
        exact .refl _
      · exact (stepCall_microRun h).sameConfig n
    | irqNext => exact (stepIrq_microRun h).sameConfig n
    | lockLine b => cases h; exact .refl _

theorem instMove_par {x y : Inst} (hm : InstMove x y) : y.par = x.par := by
  cases hm with
  | start _ _ hs => rw [startChain_frame hs]
  | unit _ hu => rw [unitTransfer_frame hu]
  | _ => rfl

/-- Settles O56: no primitive change writes the parameters, and none but `CONSTRUCT` the configuration. -/
theorem parametersNeverChange : Obligations.ParametersNeverChange := by
  refine ⟨fun s t n h => ?_, fun s t n h hcon => ?_, fun i s t n h hcon => exec_sameConfig h hcon n⟩
  · exact step_keeps (P := fun x => x.par = (getInst s n).par) (fun _ _ hm hx => (instMove_par hm).trans hx) h n rfl
  · have hn : getInst (nextTurn s).2 n = getInst s n := congrArg (instAt · n) (nextTurn_insts s)
    have hconfig := takeTurn_sameConfig h hcon
    rwa [hn] at hconfig

end Sys2Proof.Machine
end

section
/-! SUPPORT. The lines of a slot, the duty cycle and the clock rates (40_timing_engine.md R120, R121, R128, R130). -/

namespace Sys2Proof.Machine

open Sys2Proof

/-! Lanes (R128) -/

theorem slotSyms_getElem? (g d : Word) {c : Nat} (hc : c < 32) : (slotSyms g d)[c]? = some (sym g d c) := by
  simp [slotSyms, hc]

/-- A line's symbol reads its own bit of the data word (R127, R128). -/
theorem sym_congr {g d d' : Word} {c : Nat} (h : d.getLsbD c = d'.getLsbD c) : sym g d c = sym g d' c := by
  simp only [sym, h]

/-- The slot a `LATCH` that is enabled appends (R126). -/
theorem out_of_exec_latch {s t : State} (hon : latchEnabled s.clkgen (this s) = true) (h : exec .latch s = .next t) :
    (this t).out = (this s).out ++ [slotSyms (this s).gate (this s).dbuf] := by
  rw [exec_latch_enabled hon] at h
  cases h
  rw [this_setThis]
  rfl

/-- Settles O11: the slots appended have the line's symbols, and those read the same gate and the same bit. -/
theorem lanesAreIndependent : Obligations.LanesAreIndependent := by
  intro s s' t t' c hc hon hon' hgate hbit ht ht'
  refine ⟨_, _, out_of_exec_latch hon ht, out_of_exec_latch hon' ht', slotSyms_length _ _, slotSyms_length _ _, ?_⟩
  rw [slotSyms_getElem? _ _ hc, slotSyms_getElem? _ _ hc, hgate, sym_congr hbit]

/-! The duty cycle (R130) -/

/-- The first `e` of `n` ticks. -/
theorem length_filter_range_lt {e n : Nat} (h : e ≤ n) : ((List.range n).filter (· < e)).length = e := by
  obtain ⟨k, rfl⟩ := Nat.exists_eq_add_of_le h
  have hlow : (List.range e).filter (· < e) = List.range e := List.filter_eq_self.2 (by simp)
  have hhigh : ((List.range k).map (e + ·)).filter (· < e) = [] := List.filter_eq_nil_iff.2 (by simp)
  rw [List.range_add, List.filter_append, hlow, hhigh, List.append_nil, List.length_range]

/-- How many of the 32 ticks of a bit-time a symbol is high (R129). -/
def highTicks (p : Params) : Sym → Nat
  | .low => 0
  | .pulse0 => p.envTicks
  | .pulse1 => p.oneTicks
  | .unspec => 0

theorem length_filter_wave {p : Params} (henv : p.envTicks ≤ 32) (hone : p.oneTicks ≤ 32) (y : Sym) :
    ((List.range 32).filter fun k => wave p y k == some true).length = highTicks p y := by
  cases y with
  | low => simp [wave, highTicks]
  | pulse0 => simpa [wave, highTicks] using length_filter_range_lt henv
  | pulse1 => simpa [wave, highTicks] using length_filter_range_lt hone
  | unspec => simp [wave, highTicks]

theorem dutyCycle_eq (p : Params) {y : Sym} (hy : y ≠ .unspec) :
    dutyCycle p y = some ((highTicks p y : Rat) / 32) := by
  cases y with
  | low => simp [dutyCycle, highTicks]
  | pulse0 => rfl
  | pulse1 => rfl
  | unspec => exact absurd rfl hy

/-- Settles O13: the high ticks are the first ones, up to the symbol's length. -/
theorem dutyIsTheHighTime : Obligations.DutyIsTheHighTime := by
  intro p y henv hone hy
  rw [length_filter_wave (by omega) hone, dutyCycle_eq p hy]

/-! The clock rates (R120, R121) -/

theorem toNat_ne_zero {d : BitVec 16} (h : d ≠ 0) : (d.toNat : Rat) ≠ 0 := by
  rw [Nat.cast_ne_zero]
  exact fun h0 => h (BitVec.eq_of_toNat_eq h0)

/-- Settles O14: both rates are quotients of one positive number by positive numbers. -/
theorem clockRates : Obligations.ClockRates := by
  intro p sd ld hf hsd hld
  have hfInt : (p.fInt : Rat) ≠ 0 := Nat.cast_ne_zero.2 hf.ne'
  have hshift := toNat_ne_zero hsd
  have hlatch := toNat_ne_zero hld
  refine ⟨p.fInt / sd.toNat, p.fInt / ld.toNat, if_neg hsd, if_neg hld, div_mul_cancel₀ _ hshift,
    div_mul_cancel₀ _ hlatch, ?_⟩
  calc (p.fInt / sd.toNat : Rat) = 32 * (p.fInt / ld.toNat)
    _ ↔ (p.fInt : Rat) * ld.toNat = p.fInt * (32 * sd.toNat) := by
      rw [← mul_div_assoc, div_eq_div_iff hshift hlatch, mul_left_comm, mul_comm (32 : Rat), mul_assoc, mul_left_comm]
    _ ↔ ld.toNat = 32 * sd.toNat := by rw [mul_right_inj' hfInt]; exact_mod_cast Iff.rfl

end Sys2Proof.Machine
end

section
/-! SUPPORT. The phase (41_descriptor_chain.md R170) and a second request for a swap (42_swap_synchronizer.md R196). -/

namespace Sys2Proof.Machine

open Sys2Proof

/-- Settles O30: each index stands on one side of the two bounds. -/
theorem phaseTable : Obligations.PhaseTable := by
  refine fun x => ⟨fun h => if_pos h, fun h hcur => ?_, fun h hcur => ?_, fun h hcur => ?_⟩
  · rcases hcur with hcur | hcur <;> simp [phase, h, hcur]
  · rcases hcur with hcur | hcur | hcur | hcur <;> simp [phase, h, hcur]
  · rcases hcur with hcur | hcur <;> simp [phase, h, hcur]

/-! A second request (R196) -/

/-- The instance after `REQUEST_SWAP` taken whole (R191). -/
def swapRequested (x : Inst) : Inst :=
  setArmed
    { x with
      activePtr := x.inactivePtr, inactivePtr := x.activePtr
      buf := flushBuf x.buf x.inactivePtr.toNat (4 * frameWords x) } true

/-- A request that answers a next state was made in `MODE = DOUBLE` and did this (R190, R191). -/
theorem exec_requestSwap_next {s t : State} (hs : idleWhole s) (h : exec .requestSwap s = .next t) :
    t = setThis s (swapRequested (this s)) := by
  by_cases hmode : (this s).mode = .double
  · rw [exec_requestSwap_whole hs hmode] at h
    cases h
    rfl
  · rw [exec_requestSwap_refused hs.1 hmode] at h
    cases h

/-- An armed record 6 has its interrupt bit (R34). -/
theorem inten_setArmed (x : Inst) (b : Bool) : (fieldsOf (descAt (setArmed x b) 6).body).inten = b := by
  rw [setArmed, descAt_editRecord_same, fieldsOf_setInten]

/-- Arming an armed table leaves it (R196). -/
theorem setArmed_desc_of_armed {x y : Inst} {b : Bool} (h : y.desc = (setArmed x b).desc) :
    (setArmed y b).desc = y.desc := by
  have h6 : descAt y 6 = descAt (setArmed x b) 6 := by rw [descAt, h]; rfl
  have hbody : setInten b (descAt y 6).body = (descAt y 6).body := by
    rw [h6, setArmed, descAt_editRecord_same, setInten_setInten]
  change y.desc.set 6 ⟨(descAt y 6).known, setInten b (descAt y 6).body⟩ = y.desc
  rw [hbody]
  exact Vector.set_getElem_self _

/-- Settles O36: the pointers are exchanged twice, the bit is set over itself. -/
theorem secondSwapUndoesTheFirst : Obligations.SecondSwapUndoesTheFirst := by
  intro s t u hs ht hu
  obtain rfl := exec_requestSwap_next hs ht
  obtain rfl := exec_requestSwap_next (s := setThis s (swapRequested (this s))) hs hu
  simp only [this_setThis]
  exact ⟨rfl, rfl, setArmed_desc_of_armed rfl, inten_setArmed _ _, rfl⟩

end Sys2Proof.Machine
end

section
/-! SUPPORT. A `SERVICE` step of several passes on a chain that passes R97 (41_descriptor_chain.md R161, R171): every
record of the ring can be loaded, and each pass is the unit transfer of a canonical record. -/

namespace Sys2Proof.Machine

open Sys2Proof

/-! Every record on the ring can be loaded (R97, R160) -/

/-- A well-formed record that is known can be loaded (R98, R160). -/
theorem loadable_of_wellFormed {e : Entry} (hk : e.known = true) (h : (decodeRecord e.body).wellFormed = true) :
    loadable e := by
  have hlegal : ∀ f : Fields, f.legal = true → f.reservedBits = false ∧ f.src.toNat % 4 = 0 := fun f hf => by
    simpa [Fields.legal] using hf
  unfold decodeRecord at h
  cases hkind : kindOf e.body <;> rw [hkind] at h <;>
    simp only [instrOfRecord, Instr.wellFormed, Fields.oneShot, Bool.and_eq_true, Bool.false_eq_true] at h
  all_goals
    obtain ⟨hres, hsrc⟩ := hlegal (fieldsOf e.body) (by tauto)
    exact ⟨hk, by simp [hkind], by simp [hkind], by simp [hkind], hres, hsrc⟩

/-- The records of the ring are known (R97). -/
theorem CanonicalRecords.known {x : Inst} (hx : CanonicalRecords x) {i : BitVec 3}
    (hi : i.toNat < 2 + nData x ∨ 6 ≤ i.toNat) : (descAt x i).known = true := by
  obtain rfl | rfl | ⟨j, hj, rfl⟩ | rfl | rfl := ringIndex_cases hi
  · rw [hx.prime]
  · rw [hx.gateHi]
  · obtain ⟨f, hseg, -⟩ := hx.data j hj
    rw [← segAt, hseg]
  · obtain ⟨armed, hclose⟩ := hx.close
    rw [hclose]
  · rw [hx.gap]

theorem ring_loadable {x : Inst} (hchain : chainOk x = true) (haddr : addressesOk x = true) {i : BitVec 3}
    (hi : i.toNat < 2 + nData x ∨ 6 ≤ i.toNat) : loadable (descAt x i) :=
  loadable_of_wellFormed ((canonicalRecords_of_recordsCanonical (chainOk_iff.1 hchain).1).known hi)
    (ring_wellFormed hchain haddr hi)

/-- A segment of the chain leads to a record of the ring (R155). -/
theorem segNext_ring {x : Inst} (hfour : nData x ≤ 4) (i : Nat) :
    (segNext x i).toNat < 2 + nData x ∨ 6 ≤ (segNext x i).toNat := by
  unfold segNext
  split
  · rw [BitVec.toNat_ofNat]; omega
  · exact .inr (by decide)

/-! One pass of the loop on a canonical record (R161) -/

/-- The position `Load` leaves, at record `i` (R160). -/
def loadedAt (i : BitVec 3) (x : Inst) : Inst :=
  { x with
    cur := i, w := (descAt x i).body, srcCur := (descAt x i).body.src, cntRem := (fieldsOf (descAt x i).body).count }

/-- The position at a record whose fields are known. -/
theorem loadedAt_of_encodeRecord {i : BitVec 3} {x : Inst} {k : Kind} {f : Fields}
    (h : descAt x i = ⟨true, encodeRecord k f⟩) :
    loadedAt i x = { x with cur := i, w := encodeRecord k f, srcCur := f.src, cntRem := f.count } := by
  rw [loadedAt, h, fieldsOf_encodeRecord, encodeRecord_src]

namespace Transfers

variable {k : Kind} {f : Fields} {v : Word} {x : Inst}

/-- A pass with such a record loaded is its effect. -/
theorem unitTransfer_eq (h : Transfers k f v x) (hw : x.w = encodeRecord k f) :
    unitTransfer x = if x.cntRem = 1 then completeStep f (moved k f v x) else .ok (moved k f v x) := by
  obtain ⟨h5, h6, h7⟩ := h.canonical.not_reserved
  have hkind : kindOf x.w = k := by rw [hw, kindOf_encodeRecord]
  have hfields : fieldsOf x.w = f := by rw [hw, fieldsOf_encodeRecord]
  have hcheck : checkOf k x = none := by rw [checkOf_eq, if_neg fun hc => hc.2 (h.primed hc.1)]
  rw [Machine.unitTransfer_eq (hkind ▸ h5) (hkind ▸ h6) (hkind ▸ h7), hkind, hfields,
    transfer_eq_effect h.unreserved h.mapped hcheck (admitted_iff.2 ⟨h.zero, h.ones, h.canonical⟩),
    transferEffect_eq]

/-- Before the last word the record stays loaded. -/
theorem unitTransfer_goesOn (h : Transfers k f v x) (hw : x.w = encodeRecord k f) (hc : x.cntRem ≠ 1) :
    unitTransfer x = .ok (moved k f v x) :=
  (h.unitTransfer_eq hw).trans (if_neg hc)

/-- The last word of a record with `DSTOP` stops the chain. -/
theorem unitTransfer_stops (h : Transfers k f v x) (hw : x.w = encodeRecord k f) (hc : x.cntRem = 1)
    (hstop : f.dstop = true) :
    unitTransfer x = .ok { moved k f v x with irqPend := x.irqPend || f.inten, run := false } :=
  ((h.unitTransfer_eq hw).trans (if_pos hc)).trans (completeStep_stop hstop)

/-- The last word of another record loads its successor. -/
theorem unitTransfer_loads (h : Transfers k f v x) (hw : x.w = encodeRecord k f) (hc : x.cntRem = 1)
    (hstop : f.dstop = false) (hl : loadable (descAt x f.next)) :
    unitTransfer x = .ok (loadedAt f.next { moved k f v x with irqPend := x.irqPend || f.inten }) :=
  ((h.unitTransfer_eq hw).trans (if_pos hc)).trans (completeStep_load hstop hl)

/-- The last word of a record without `INTEN` loads its successor and raises nothing. -/
theorem unitTransfer_loads_quietly (h : Transfers k f v x) (hw : x.w = encodeRecord k f) (hc : x.cntRem = 1)
    (hstop : f.dstop = false) (hinten : f.inten = false) (hl : loadable (descAt x f.next)) :
    unitTransfer x = .ok (loadedAt f.next (moved k f v x)) := by
  rw [h.unitTransfer_loads hw hc hstop hl, hinten, Bool.or_false]
  rfl

end Transfers

/-- A pass that neither writes the data word nor stops the chain goes on with the next (R161). -/
theorem serviceLoop_goesOn {n : Nat} {x y : Inst} (h : unitTransfer x = .ok y) (hmid : y.mid = true)
    (hrun : y.run = true) : serviceLoop (n + 1) x = serviceLoop n y := by
  rw [serviceLoop_succ, h]
  exact if_pos (by simp [hmid, hrun])

/-- A pass that writes the data word ends the loop (R161). -/
theorem serviceLoop_ends {n : Nat} {x y : Inst} (h : unitTransfer x = .ok y) (hmid : y.mid = false) :
    serviceLoop (n + 1) x = .ok y := by
  rw [serviceLoop_succ, h]
  exact if_neg (by simp [hmid])

theorem serviceEnabled_iff {x : Inst} : serviceEnabled x = true ↔ x.en = true ∧ x.req = true ∧ x.run = true := by
  simp [serviceEnabled, and_assoc]

/-! A chain that streams (R97, R67) -/

/-- A chain that passes R97's check, with good addresses and `SERVICE` enabled: what each pass of a step needs. -/
structure Streams (x : Inst) : Prop where
  enabled : serviceEnabled x = true
  chain : chainOk x = true
  addresses : addressesOk x = true

namespace Streams

variable {x : Inst} (h : Streams x)
include h

theorem run : x.run = true :=
  (serviceEnabled_iff.1 h.enabled).2.2

theorem records : CanonicalRecords x :=
  canonicalRecords_of_recordsCanonical (chainOk_iff.1 h.chain).1

theorem constants : x.zeroWord = ZERO ∧ x.onesWord = ONES := by
  obtain ⟨-, -, -, -, hconst, -⟩ := chainOk_iff.1 h.chain
  exact constantsOk_iff.1 hconst

theorem memRead_zero : memRead x x.par.zeroAddr = some ZERO := by
  obtain ⟨-, -, -, -, hout, -⟩ := addressesOk_iff.1 h.addresses
  rw [memRead_zeroAddr hout, h.constants.1]

theorem memRead_ones : memRead x x.par.onesAddr = some ONES := by
  obtain ⟨-, -, -, -, -, hout, hapart⟩ := addressesOk_iff.1 h.addresses
  rw [memRead_onesAddr hout hapart.symm, h.constants.2]

theorem gapCount_ne_zero : x.par.gapCount ≠ 0 := by
  obtain ⟨-, -, -, -, -, hgap⟩ := chainOk_iff.1 h.chain
  bv_omega

end Streams

/-! The step that opens the frame (R171, `s = 0`) -/

/-- The instance after `PRIME`, with `GATEHI` loaded (R165). -/
def primed (x : Inst) : Inst :=
  { x with
    dsec := some 0, mid := true, cur := 1, w := encodeRecord .gateHi (gateHiFields x), srcCur := x.par.onesAddr
    cntRem := 1 }

/-- The instance after `GATEHI`, with segment 0 loaded (R166). -/
def gateOpened (x : Inst) : Inst :=
  loadedAt 2 { x with dsec := some 0, gate := ONES, mid := true }

/-- The pass of `PRIME` (R165). -/
theorem unitTransfer_prime {x : Inst} (h : Streams x) (hcur : x.cur = 0) (hw : x.w = (descAt x 0).body)
    (hsrc : x.srcCur = x.par.zeroAddr) (hcnt : x.cntRem = 1) : unitTransfer x = .ok (primed x) := by
  have ht : Transfers .prime (primeFields x) ZERO x :=
    { enabled := h.enabled, unreserved := rfl, mapped := by rw [hsrc, h.memRead_zero], primed := nofun
      zero := h.constants.1, ones := h.constants.2, canonical := ⟨hcur, rfl⟩ }
  have hrecord : x.w = encodeRecord .prime (primeFields x) := by rw [hw, h.records.prime]
  have hnext : loadable (descAt x 1) := ring_loadable h.chain h.addresses (.inl (by simp; omega))
  rw [ht.unitTransfer_loads_quietly hrecord hcnt rfl rfl hnext]
  exact congrArg Except.ok (loadedAt_of_encodeRecord (x := moved .prime (primeFields x) ZERO x) h.records.gateHi)

/-- The pass of `GATEHI` (R166). -/
theorem unitTransfer_gateHi {x : Inst} (h : Streams x) : unitTransfer (primed x) = .ok (gateOpened x) := by
  have ht : Transfers .gateHi (gateHiFields x) ONES (primed x) :=
    { enabled := h.enabled, unreserved := rfl, mapped := h.memRead_ones, primed := fun _ => rfl
      zero := h.constants.1, ones := h.constants.2, canonical := ⟨rfl, rfl⟩ }
  have hone := h.records.one_le_nData
  have hnext : loadable (descAt x 2) := ring_loadable h.chain h.addresses (.inl (by simp; omega))
  exact ht.unitTransfer_loads_quietly rfl rfl rfl rfl hnext

/-- Record 2 of the chain is segment 0, with the fields of R95. -/
theorem firstSegment {x : Inst} (h : Streams x) : ∃ f,
    descAt x 2 = ⟨true, encodeRecord .data f⟩ ∧ dataCanonical x 0 f = true :=
  h.records.data 0 h.records.one_le_nData

/-- The first word of segment 0 can be sent once the gate is open (R167). -/
theorem transfers_firstWord {x : Inst} (h : Streams x) {f : Fields}
    (hentry : descAt x 2 = ⟨true, encodeRecord .data f⟩) (hf : dataCanonical x 0 f = true) :
    Transfers .data f (dmaRead x.buf f.src.toNat) (gateOpened x) := by
  obtain ⟨hword, hcount, hmax, hfields⟩ := dataCanonical_iff.1 hf
  have hne : f.count ≠ 0 := by bv_omega
  have hsrc : (gateOpened x).srcCur = f.src := congrArg (fun e => e.body.src) hentry
  exact
    { enabled := h.enabled
      unreserved := by rw [hfields]; simpa [Fields.reservedBits] using hne
      mapped := by rw [hsrc]; exact memRead_frame (x := gateOpened x) hword
      primed := nofun, zero := h.constants.1, ones := h.constants.2
      canonical := ⟨0, by decide, h.records.one_le_nData, rfl, hword, hcount, hmax, hfields⟩ }

/-- The instance once the first word is sent, but for the position (R171). -/
def frameOpened (x : Inst) : Inst :=
  { x with
    dsec := some 0, gate := ONES, dbuf := dmaRead x.buf (descAt x 2).body.src.toNat, req := false, mid := false }

/-- What the pass of the first word makes of the instance with the gate open (R161, R167). -/
theorem moved_firstWord {x : Inst} {f : Fields} (hentry : descAt x 2 = ⟨true, encodeRecord .data f⟩)
    (hf : dataCanonical x 0 f = true) : moved .data f (dmaRead x.buf f.src.toNat) (gateOpened x)
      = { frameOpened x with
          cur := 2, w := (descAt x 2).body, srcCur := (descAt x 2).body.src + 4
          cntRem := (fieldsOf (descAt x 2).body).count - 1 } := by
  obtain ⟨-, -, -, hfields⟩ := dataCanonical_iff.1 hf
  have hdst : f.dst = 0 := congrArg Fields.dst hfields
  have hsadv : f.sadv = true := congrArg Fields.sadv hfields
  have hsrc : f.src = (descAt x 2).body.src := by rw [hentry, encodeRecord_src]
  rw [moved, hdst, hsadv, hsrc]
  rfl

section
variable {x : Inst} (h : Streams x) (hcur : x.cur = 0) (hw : x.w = (descAt x 0).body)
  (hsrc : x.srcCur = x.par.zeroAddr) (hcnt : x.cntRem = 1)
include h hcur hw hsrc hcnt

/-- `PRIME` and `GATEHI` are the first two passes of the step (R171). -/
theorem serviceInst_opens : serviceInst x = serviceLoop (524285 + 1) (gateOpened x) := by
  rw [serviceInst_eq, serviceLoop_goesOn (unitTransfer_prime h hcur hw hsrc hcnt) rfl h.run,
    serviceLoop_goesOn (unitTransfer_gateHi h) rfl h.run]

/-- The step that opens the frame, with a first segment of several words (R171). -/
theorem serviceInst_opens_long (hlong : (fieldsOf (descAt x 2).body).count ≠ 1) : serviceInst x = .ok
      { frameOpened x with
        cur := 2, w := (descAt x 2).body, srcCur := (descAt x 2).body.src + 4
        cntRem := (fieldsOf (descAt x 2).body).count - 1 } := by
  obtain ⟨f, hentry, hf⟩ := firstSegment h
  have hpass := (transfers_firstWord h hentry hf).unitTransfer_goesOn (congrArg Entry.body hentry) hlong
  rw [moved_firstWord hentry hf] at hpass
  rw [serviceInst_opens h hcur hw hsrc hcnt, serviceLoop_ends hpass rfl]

/-- The step that opens the frame, with a first segment of one word (R171). -/
theorem serviceInst_opens_short (hshort : (fieldsOf (descAt x 2).body).count = 1) :
    serviceInst x = .ok (loadedAt (fieldsOf (descAt x 2).body).next (frameOpened x)) := by
  obtain ⟨f, hentry, hf⟩ := firstSegment h
  obtain ⟨-, -, -, hfields⟩ := dataCanonical_iff.1 hf
  have hnext : f.next = (fieldsOf (descAt x 2).body).next := by rw [hentry, fieldsOf_encodeRecord]
  have hload : loadable (descAt x f.next) := by
    rw [congrArg Fields.next hfields]
    exact ring_loadable h.chain h.addresses (segNext_ring h.records.nData_le_four 0)
  have hpass := (transfers_firstWord h hentry hf).unitTransfer_loads_quietly (congrArg Entry.body hentry) hshort
    (congrArg Fields.dstop hfields) (congrArg Fields.inten hfields) hload
  rw [moved_firstWord hentry hf, hnext] at hpass
  rw [serviceInst_opens h hcur hw hsrc hcnt, serviceLoop_ends hpass rfl]
  rfl

end

/-- Settles O28: `PRIME`, `GATEHI`, and the first word of segment 0, after which the segment goes on or its successor is
loaded. -/
theorem serviceOpensTheFrame : Obligations.ServiceOpensTheFrame := by
  intro s x d y hon hchain haddr hcur hw hsrc hcnt
  have h : Streams x := ⟨hon, hchain, haddr⟩
  rw [exec_service_enabled hon]
  exact ⟨fun hlong => hardware_ok (serviceInst_opens_long h hcur hw hsrc hcnt hlong),
    fun hshort => hardware_ok (serviceInst_opens_short h hcur hw hsrc hcnt hshort)⟩

/-! The step that closes the frame (R171, `s = N`) -/

/-- The instance after `CLOSE`, with the gap loaded (R168). -/
def gateClosed (armed : Bool) (x : Inst) : Inst :=
  { x with
    gate := ZERO, dsec := none, mid := true, irqPend := if armed = true then true else x.irqPend
    cur := 7, w := encodeRecord .gap (gapFields x), srcCur := x.par.zeroAddr, cntRem := x.par.gapCount }

/-- The pass of `CLOSE` (R168). -/
theorem unitTransfer_close {x : Inst} (h : Streams x) {armed : Bool} (hcur : x.cur = 6)
    (hw : x.w = encodeRecord .close (closeFields x armed)) (hsrc : x.srcCur = x.par.zeroAddr) (hcnt : x.cntRem = 1) :
    unitTransfer x = .ok (gateClosed armed x) := by
  have ht : Transfers .close (closeFields x armed) ZERO x :=
    { enabled := h.enabled, unreserved := rfl, mapped := by rw [hsrc, h.memRead_zero], primed := nofun
      zero := h.constants.1, ones := h.constants.2, canonical := ⟨hcur, rfl⟩ }
  have hpend : (x.irqPend || armed) = if armed = true then true else x.irqPend := by cases armed <;> simp
  have hnext : loadable (descAt x 7) := ring_loadable h.chain h.addresses (.inr (by decide))
  rw [ht.unitTransfer_loads hw hcnt rfl hnext, gateClosed, ← hpend]
  exact congrArg Except.ok (loadedAt_of_encodeRecord
    (x := { moved .close (closeFields x armed) ZERO x with irqPend := x.irqPend || armed }) h.records.gap)

/-- A zero of the gap can be sent once the gate is closed (R169). -/
theorem transfers_gapZero {x : Inst} (h : Streams x) (armed : Bool) :
    Transfers .gap (gapFields x) ZERO (gateClosed armed x) :=
  { enabled := h.enabled
    unreserved := by simpa [Fields.reservedBits, gapFields] using h.gapCount_ne_zero
    mapped := h.memRead_zero, primed := nofun, zero := h.constants.1, ones := h.constants.2
    canonical := ⟨rfl, by rw [← beq_eq_decide]; rfl⟩ }

/-- The instance once the first zero of the gap is sent, but for the position (R171). -/
def frameClosed (armed : Bool) (x : Inst) : Inst :=
  { x with
    gate := ZERO, dsec := none, dbuf := 0, req := false, mid := false
    irqPend := if armed = true then true else x.irqPend }

/-- What the pass of the first zero makes of the instance with the gate closed (R161, R169). -/
theorem moved_gapZero {x : Inst} (h : Streams x) (armed : Bool) : moved .gap (gapFields x) ZERO (gateClosed armed x)
    = { frameClosed armed x with
        cur := 7, w := (descAt x 7).body, srcCur := x.par.zeroAddr, cntRem := x.par.gapCount - 1 } := by
  rw [h.records.gap]
  rfl

section
variable {x : Inst} (h : Streams x) {armed : Bool} (hcur : x.cur = 6)
  (hw : x.w = encodeRecord .close (closeFields x armed)) (hsrc : x.srcCur = x.par.zeroAddr) (hcnt : x.cntRem = 1)
include h hcur hw hsrc hcnt

/-- `CLOSE` is the first pass of the step (R171). -/
theorem serviceInst_closes : serviceInst x = serviceLoop (524285 + 2) (gateClosed armed x) := by
  rw [serviceInst_eq, serviceLoop_goesOn (unitTransfer_close h hcur hw hsrc hcnt) rfl h.run]

/-- The step that closes the frame, with a gap of several zeros (R171). -/
theorem serviceInst_closes_long (hgap : x.par.gapCount ≠ 1) : serviceInst x = .ok
    { frameClosed armed x with
      cur := 7, w := (descAt x 7).body, srcCur := x.par.zeroAddr, cntRem := x.par.gapCount - 1 } := by
  have hpass := (transfers_gapZero h armed).unitTransfer_goesOn rfl hgap
  rw [moved_gapZero h] at hpass
  rw [serviceInst_closes h hcur hw hsrc hcnt, serviceLoop_ends hpass rfl]

/-- The step that closes the frame and stops the chain, with a gap of one zero in `MODE = PACED` (R171, R169). -/
theorem serviceInst_closes_stops (hgap : x.par.gapCount = 1) (hmode : x.mode = .paced) : serviceInst x = .ok
    { frameClosed armed x with
      cur := 7, w := (descAt x 7).body, srcCur := x.par.zeroAddr, cntRem := 0, run := false } := by
  have hstop : (gapFields x).dstop = true := by simp [gapFields, hmode]
  have hpass := (transfers_gapZero h armed).unitTransfer_stops rfl hgap hstop
  have hinten : (gapFields x).inten = false := rfl
  rw [moved_gapZero h, hgap, hinten, Bool.or_false] at hpass
  rw [serviceInst_closes h hcur hw hsrc hcnt, serviceLoop_ends hpass rfl]
  rfl

/-- The step that closes the frame and loads the head of the ring, with a gap of one zero in a looping mode (R171,
R169). -/
theorem serviceInst_closes_loops (hgap : x.par.gapCount = 1) (hmode : x.mode ≠ .paced) : serviceInst x = .ok
    { frameClosed armed x with
      cur := 0, w := (descAt x 0).body, srcCur := x.par.zeroAddr, cntRem := 1 } := by
  have hstop : (gapFields x).dstop = false := by simp [gapFields, hmode]
  have hhead : loadable (descAt x 0) := ring_loadable h.chain h.addresses (.inl (by simp))
  have hpass := (transfers_gapZero h armed).unitTransfer_loads_quietly rfl hgap hstop rfl hhead
  rw [serviceInst_closes h hcur hw hsrc hcnt, serviceLoop_ends hpass rfl, h.records.prime]
  exact congrArg Except.ok (loadedAt_of_encodeRecord
    (x := moved .gap (gapFields x) ZERO (gateClosed armed x)) h.records.prime)

end

/-- Settles O29: `CLOSE` and the first zero of the gap, after which the gap goes on, the chain stops, or its head is
loaded. -/
theorem serviceClosesTheFrame : Obligations.ServiceClosesTheFrame := by
  intro s armed x y hon hchain haddr hcur hw hsrc hcnt
  have h : Streams x := ⟨hon, hchain, haddr⟩
  rw [exec_service_enabled hon]
  exact ⟨fun hgap => hardware_ok (serviceInst_closes_long h hcur hw hsrc hcnt hgap),
    fun hgap hmode => hardware_ok (serviceInst_closes_stops h hcur hw hsrc hcnt hgap hmode),
    fun hgap hmode => hardware_ok (serviceInst_closes_loops h hcur hw hsrc hcnt hgap hmode)⟩

end Sys2Proof.Machine
end
